-- ==== Sys2Proof/Word.lean ====
section
/-! DEFINITION. The machine's words (spec/00_scope.md R6, R8, R9): their widths and the one constant of their
arithmetic. Bit `k` of every value has weight `2^k` (R8), so `BitVec.getLsbD v k` is the spec's `v[k]`. -/

namespace Sys2Proof

/-- A 64-bit word of the bit-stream algebra (R6: `W = 64`). Bit `i` is byte position `i` of the block (R60). -/
abbrev Word := BitVec 64

/-- One byte of the input block (R27). -/
abbrev Byte := BitVec 8

/-- One 32-bit command word of the program memory (R80), and the width of the host's bus (R52). -/
abbrev Cmd := BitVec 32

/-- R9: `MASK63 = 0x7FFF_FFFF_FFFF_FFFF`: bits 62..0 set, the headroom bit 63 clear. -/
abbrev mask63 : Word := 0x7FFFFFFFFFFFFFFF#64

end Sys2Proof
end

