-- ==== Sys2Proof/Config.lean ====
section
/-! DEFINITION. What is fixed for one PBX block (spec/00_scope.md R6, R7) and the one family of values the spec
leaves open (spec/93_implementation_defined.md I1, I2). -/

namespace Sys2Proof

namespace Config

/-- R6: `PAY = 63`, the payload bits of a word and the bytes of a block. -/
abbrev payloadBits : Nat := 63

/-- R7, R20: `NREG = 32` word registers. -/
abbrev nreg : Nat := 32

/-- R7, R25: `NCARRY = 64` carry slots. -/
abbrev ncarry : Nat := 64

/-- R7, R27: `IBUF_BYTES = 64`: 63 payload bytes and the pad byte. -/
abbrev ibufBytes : Nat := 64

/-- R7, R28: `IMEM_WORDS = 1024` in this hardware. A block's own size stands in `State.imemWords`, since a model may
take any value 1..1024 (I16); this is the value after `State.reset`. -/
abbrev imemWords : Nat := 1024

/-- R7, R28: the largest `IMEM_WORDS` a block may have. -/
abbrev imemWordsMax : Nat := 1024

/-- A FREE VALUE (I1, I2; R59, R230): what the `n`-th unspecified host read returns. It has no body: nothing can be
proved of its value. Log entry 4. -/
opaque freeWord : Nat → BitVec 32

end Config

end Sys2Proof
end

