-- ==== Sys2Proof/Syntax.lean ====
section
/-! DEFINITION. The commands of PBX-CMD version 1 (spec/30_encoding.md R85), one constructor per row of the opcode
table, and the host-side syntax the spec transcribes (spec/49_host_cc_reference.md R180): boolean expressions,
character classes and patterns. -/

namespace Sys2Proof

/-- A word register index, 0..31: every index is legal in every register field (R83). -/
abbrev Reg := Fin 32

/-- A carry slot index, 0..63: every index is legal in the carry field (R83, R84). -/
abbrev Slot := Fin 64

/-- The commands of rule R85. Operands stand in the order of the assembler syntax (R89): destination first. -/
inductive Instr where
  /-- NOP (R164). -/
  | nop
  /-- HALT (R165). -/
  | halt
  /-- TRANSPOSE (R100). -/
  | transpose
  /-- TRUE rd (R110). -/
  | setTrue (rd : Reg)
  /-- FALSE rd (R111). -/
  | setFalse (rd : Reg)
  /-- AND rd, ra, rb (R112). -/
  | band (rd ra rb : Reg)
  /-- OR rd, ra, rb (R113). -/
  | bor (rd ra rb : Reg)
  /-- XOR rd, ra, rb (R114). -/
  | bxor (rd ra rb : Reg)
  /-- NOT rd, ra (R115). -/
  | bnot (rd ra : Reg)
  /-- SEL rd, rcond, rthen, relse (R116). -/
  | sel (rd rcond rthen relse : Reg)
  /-- ADV rd, rm, rcc, cK (R131). -/
  | adv (rd rm rcc : Reg) (ck : Slot)
  /-- MSTAR rd, rm, rcc, cK (R132). -/
  | mstar (rd rm rcc : Reg) (ck : Slot)
  /-- SCANTHRU rd, rm, rcc (R133). -/
  | scanthru (rd rm rcc : Reg)
  /-- ADDC rd, ra, rb, cK (R130). -/
  | addc (rd ra rb : Reg) (ck : Slot)
  /-- POPC rd, ra (R150). -/
  | popc (rd ra : Reg)
  /-- ACCPOP ra (R151). -/
  | accpop (ra : Reg)
  /-- CLRC cK (R134). -/
  | clrc (ck : Slot)
  deriving DecidableEq, Repr

/-- The name of a row of the opcode table (R85). -/
inductive Op where
  | nop | halt | transpose | setTrue | setFalse | band | bor | bxor | bnot | sel
  | adv | mstar | scanthru | addc | popc | accpop | clrc
  deriving DecidableEq, Repr

/-- The row of the opcode table a command belongs to. -/
def Instr.op : Instr → Op
  | .nop => .nop
  | .halt => .halt
  | .transpose => .transpose
  | .setTrue _ => .setTrue
  | .setFalse _ => .setFalse
  | .band _ _ _ => .band
  | .bor _ _ _ => .bor
  | .bxor _ _ _ => .bxor
  | .bnot _ _ => .bnot
  | .sel _ _ _ _ => .sel
  | .adv _ _ _ _ => .adv
  | .mstar _ _ _ _ => .mstar
  | .scanthru _ _ _ => .scanthru
  | .addc _ _ _ _ => .addc
  | .popc _ _ => .popc
  | .accpop _ => .accpop
  | .clrc _ => .clrc

/-! The pseudo-instructions of rule R91, each one command. -/

/-- R91: `MOV rd, ra` is `OR rd, ra, ra`. -/
abbrev Instr.mov (rd ra : Reg) : Instr := .bor rd ra ra

/-- R91: `SHL rd, ra, cK` is `ADV rd, ra, ra, cK`. -/
abbrev Instr.shl (rd ra : Reg) (ck : Slot) : Instr := .adv rd ra ra ck

/-- R91: `CLR rd` is `FALSE rd`. -/
abbrev Instr.clr (rd : Reg) : Instr := .setFalse rd

/-! The host side: expressions, classes, patterns. -/

/-- R180: a `BooleanExpression`: a finite tree with exactly these variants. -/
inductive BoolExpr where
  /-- `Bit(k)`, `k` in 0..7: one byte bit-plane. -/
  | bit (k : Fin 8)
  /-- `True`. -/
  | tru
  /-- `False`. -/
  | fls
  /-- `And(l, r)`. -/
  | conj (l r : BoolExpr)
  /-- `Or(l, r)`. -/
  | disj (l r : BoolExpr)
  /-- `Not(e)`. -/
  | neg (e : BoolExpr)
  /-- `Select(cond, then, else)`. -/
  | ite (c t e : BoolExpr)
  deriving DecidableEq, Repr

/-- R12: one inclusive byte-value range of a character class. -/
structure ByteRange where
  /-- The least byte of the range. -/
  low : Byte
  /-- The greatest byte of the range. -/
  high : Byte
  deriving DecidableEq, Repr

/-- R12: a character class: a set of inclusive byte ranges, optionally marked repeating. -/
structure CharClass where
  /-- The ranges, in the class's order. -/
  ranges : List ByteRange
  /-- Whether the class is matched by MSTAR (R170) and not by ADV. -/
  repeating : Bool
  deriving DecidableEq, Repr

/-- R180: a `CompiledPattern`: an ordered list of pairs of a class and its expression. -/
abbrev CompiledPattern := List (CharClass × BoolExpr)

/-- R12: byte `b` belongs to a range. -/
def ByteRange.contains (r : ByteRange) (b : Byte) : Bool :=
  decide (r.low.toNat ≤ b.toNat) && decide (b.toNat ≤ r.high.toNat)

/-- R12: a class matches byte `b` when `b` lies in any of its ranges. -/
def CharClass.contains (c : CharClass) (b : Byte) : Bool :=
  c.ranges.any (fun r => r.contains b)

end Sys2Proof
end

