-- ==== Sys2Proof/WellFormed.lean ====
section
/-! DEFINITION. What is well-formed, as checks that answer a Bool. The operands of `Instr` are in range by their
types (R83: any register 0..31 and any slot 0..63 is legal in any field), so every `Instr` is well-formed; what can
be ill-formed is a command word (R85, R87), a program as the host loads it (R28, R160), a character class (R192)
and a pattern (R170, I18). The opcode table stands here as data, apart from the decoder that must agree with it. -/

namespace Sys2Proof

/-- The command formats of rule R82. -/
inductive Format where
  | N | D | R1 | R2 | R3 | RC | A | CF
  deriving DecidableEq, Repr

/-- R82: the reserved mask of a format: the bits of the word that must be 0. -/
def Format.reserved : Format → Cmd
  | .N => 0x03FFFFFF#32
  | .D => 0x001FFFFF#32
  | .R1 => 0x0000FFFF#32
  | .R2 => 0x000007FF#32
  | .R3 => 0x0000003F#32
  | .RC => 0x0000001F#32
  | .A => 0x03E0FFFF#32
  | .CF => 0x03FFF81F#32

/-- One row of the opcode map of rule R85, as the spec prints it. -/
structure Row where
  /-- The command of the row. -/
  op : Op
  /-- `OPC`. -/
  opc : BitVec 6
  /-- The row's format. -/
  format : Format
  /-- `match`. -/
  pattern : Cmd
  /-- `mask`. -/
  mask : Cmd
  deriving DecidableEq, Repr

/-- R85: the opcode map, row by row. -/
def opcodeTable : List Row :=
  [ ⟨.nop, 0x01#6, .N, 0x04000000#32, 0xFFFFFFFF#32⟩,
    ⟨.halt, 0x02#6, .N, 0x08000000#32, 0xFFFFFFFF#32⟩,
    ⟨.transpose, 0x03#6, .N, 0x0C000000#32, 0xFFFFFFFF#32⟩,
    ⟨.setTrue, 0x04#6, .D, 0x10000000#32, 0xFC1FFFFF#32⟩,
    ⟨.setFalse, 0x05#6, .D, 0x14000000#32, 0xFC1FFFFF#32⟩,
    ⟨.band, 0x06#6, .R2, 0x18000000#32, 0xFC0007FF#32⟩,
    ⟨.bor, 0x07#6, .R2, 0x1C000000#32, 0xFC0007FF#32⟩,
    ⟨.bxor, 0x08#6, .R2, 0x20000000#32, 0xFC0007FF#32⟩,
    ⟨.bnot, 0x09#6, .R1, 0x24000000#32, 0xFC00FFFF#32⟩ ] ++
  [ ⟨.sel, 0x0A#6, .R3, 0x28000000#32, 0xFC00003F#32⟩,
    ⟨.adv, 0x0B#6, .RC, 0x2C000000#32, 0xFC00001F#32⟩,
    ⟨.mstar, 0x0C#6, .RC, 0x30000000#32, 0xFC00001F#32⟩,
    ⟨.scanthru, 0x0D#6, .R2, 0x34000000#32, 0xFC0007FF#32⟩,
    ⟨.addc, 0x0E#6, .RC, 0x38000000#32, 0xFC00001F#32⟩,
    ⟨.popc, 0x0F#6, .R1, 0x3C000000#32, 0xFC00FFFF#32⟩,
    ⟨.accpop, 0x10#6, .A, 0x40000000#32, 0xFFE0FFFF#32⟩,
    ⟨.clrc, 0x11#6, .CF, 0x44000000#32, 0xFFFFF81F#32⟩ ]

/-- R85: a word is the command of a row exactly when `(w & mask) == match`. -/
def Row.accepts (r : Row) (w : Cmd) : Bool := (w &&& r.mask) == r.pattern

/-- R87: a word is legal when some row of the opcode map matches it. -/
def legalWord (w : Cmd) : Bool := opcodeTable.any (fun r => r.accepts w)

/-- A program as the host loads it at IMEM index `entry`: the whole of it inside the `imemWords` words of the program
memory (R28, R161), and every word legal (R87). -/
def programWf (imemWords entry : Nat) (ws : List Cmd) : Bool :=
  decide (entry + ws.length ≤ imemWords) && ws.all legalWord

/-- R190: a range is given with `low <= high`. -/
def ByteRange.wf (r : ByteRange) : Bool := decide (r.low.toNat ≤ r.high.toNat)

/-- R192: a class has at least one range (`EmptyCharacterClass` otherwise), and each is a range. -/
def CharClass.wf (c : CharClass) : Bool := !c.ranges.isEmpty && c.ranges.all (fun r => r.wf)

/-- R170, R171, I18: a pattern one program evaluates has 1 to 64 classes, each well-formed. -/
def patternWf (cs : List CharClass) : Bool :=
  decide (1 ≤ cs.length) && decide (cs.length ≤ Config.ncarry) && cs.all (fun c => c.wf)

/-- R170, R180: a compiled pattern one program evaluates: its classes are such a pattern. -/
def CompiledPattern.wf (p : CompiledPattern) : Bool := patternWf (p.map Prod.fst)

end Sys2Proof
end

