-- ==== Sys2Proof/Decode.lean ====
section
/-! DEFINITION. The decoder, total on every 32-bit word and rejecting by name (spec/30_encoding.md R81, R82, R85,
R87), and after it the encoder, written from the same tables. -/

namespace Sys2Proof

/-- Why a word is illegal (R87). -/
inductive Illegal where
  /-- `OPC` is `0x00` or in `0x12..0x3F`. -/
  | opcode (opc : Nat)
  /-- `OPC` names a command, and a reserved bit of its format is 1. -/
  | reservedBits (format : Format)
  deriving DecidableEq, Repr

/-- R8: the field `w[hi:lo]`, read as an unsigned integer. -/
def field (w : Cmd) (hi lo : Nat) : Nat := (w.toNat >>> lo) % 2 ^ (hi - lo + 1)

/-- R81: `OPC` is `w[31:26]`. -/
def opcOf (w : Cmd) : Nat := field w 31 26

/-- R81: `RD` is `w[25:21]`. -/
def rdOf (w : Cmd) : Reg := Fin.ofNat 32 (field w 25 21)

/-- R81: `RA` is `w[20:16]`. -/
def raOf (w : Cmd) : Reg := Fin.ofNat 32 (field w 20 16)

/-- R81: `RB` is `w[15:11]`. -/
def rbOf (w : Cmd) : Reg := Fin.ofNat 32 (field w 15 11)

/-- R81: `RC` is `w[10:6]`. -/
def rcOf (w : Cmd) : Reg := Fin.ofNat 32 (field w 10 6)

/-- R81: `CI` is `w[10:5]`. -/
def ciOf (w : Cmd) : Slot := Fin.ofNat 64 (field w 10 5)

/-- R82, R87: the command `i` read from `w`, if every reserved bit of its format is 0. -/
def checked (f : Format) (w : Cmd) (i : Instr) : Except Illegal Instr :=
  if w &&& f.reserved = 0#32 then .ok i else .error (.reservedBits f)

/-- R85, R87, R88: the command a word is, or the reason it is illegal. -/
def decode (w : Cmd) : Except Illegal Instr :=
  match opcOf w with
  | 0x01 => checked .N w .nop
  | 0x02 => checked .N w .halt
  | 0x03 => checked .N w .transpose
  | 0x04 => checked .D w (.setTrue (rdOf w))
  | 0x05 => checked .D w (.setFalse (rdOf w))
  | 0x06 => checked .R2 w (.band (rdOf w) (raOf w) (rbOf w))
  | 0x07 => checked .R2 w (.bor (rdOf w) (raOf w) (rbOf w))
  | 0x08 => checked .R2 w (.bxor (rdOf w) (raOf w) (rbOf w))
  | 0x09 => checked .R1 w (.bnot (rdOf w) (raOf w))
  | 0x0A => checked .R3 w (.sel (rdOf w) (raOf w) (rbOf w) (rcOf w))
  | 0x0B => checked .RC w (.adv (rdOf w) (raOf w) (rbOf w) (ciOf w))
  | 0x0C => checked .RC w (.mstar (rdOf w) (raOf w) (rbOf w) (ciOf w))
  | 0x0D => checked .R2 w (.scanthru (rdOf w) (raOf w) (rbOf w))
  | 0x0E => checked .RC w (.addc (rdOf w) (raOf w) (rbOf w) (ciOf w))
  | 0x0F => checked .R1 w (.popc (rdOf w) (raOf w))
  | 0x10 => checked .A w (.accpop (raOf w))
  | 0x11 => checked .CF w (.clrc (ciOf w))
  | opc => .error (.opcode opc)

/-- The command the decoder reads from a word numbered as spec/opcode_table.json numbers it. A command is one 32-bit
word (R80), so every row has 32 bits and the word goes to the decoder as it stands. -/
def decodeTableWord (nbits w : Nat) : Option Instr :=
  match decode (BitVec.ofNat 32 (w % 2 ^ nbits)) with
  | .ok i => some i
  | .error _ => none

/-! The encoder. -/

/-- R81, R82: the word with the given fields and every other bit 0. `low` is `RB`, `RC` and `CI` in their places. -/
def packWord (opc rd ra low : Nat) : Cmd :=
  BitVec.ofNat 32 (opc * 2 ^ 26 + rd * 2 ^ 21 + ra * 2 ^ 16 + low)

/-- `RB` in its place, `w[15:11]`. -/
def atRb (rb : Reg) : Nat := rb.val * 2 ^ 11

/-- `RC` in its place, `w[10:6]`. -/
def atRc (rc : Reg) : Nat := rc.val * 2 ^ 6

/-- `CI` in its place, `w[10:5]`. -/
def atCi (ck : Slot) : Nat := ck.val * 2 ^ 5

/-- R82, R85, R89: the word of a command: its operands in their fields and every reserved bit 0. -/
def encode : Instr → Cmd
  | .nop => packWord 0x01 0 0 0
  | .halt => packWord 0x02 0 0 0
  | .transpose => packWord 0x03 0 0 0
  | .setTrue rd => packWord 0x04 rd.val 0 0
  | .setFalse rd => packWord 0x05 rd.val 0 0
  | .band rd ra rb => packWord 0x06 rd.val ra.val (atRb rb)
  | .bor rd ra rb => packWord 0x07 rd.val ra.val (atRb rb)
  | .bxor rd ra rb => packWord 0x08 rd.val ra.val (atRb rb)
  | .bnot rd ra => packWord 0x09 rd.val ra.val 0
  | .sel rd rcond rthen relse => packWord 0x0A rd.val rcond.val (atRb rthen + atRc relse)
  | .adv rd rm rcc ck => packWord 0x0B rd.val rm.val (atRb rcc + atCi ck)
  | .mstar rd rm rcc ck => packWord 0x0C rd.val rm.val (atRb rcc + atCi ck)
  | .scanthru rd rm rcc => packWord 0x0D rd.val rm.val (atRb rcc)
  | .addc rd ra rb ck => packWord 0x0E rd.val ra.val (atRb rb + atCi ck)
  | .popc rd ra => packWord 0x0F rd.val ra.val 0
  | .accpop ra => packWord 0x10 0 ra.val 0
  | .clrc ck => packWord 0x11 0 0 (atCi ck)

end Sys2Proof
end

