-- ==== Sys2Proof/Machine/State.lean ====
section
/-! DEFINITION. The state of the block as plain data (spec/10_state.md R20 to R35), its reset value
(spec/70_reset_and_hazards.md R230), and the reasons a step can stop. -/

namespace Sys2Proof.Machine

/-- The faults that stop the MODEL. There is none: the type is empty. The block's own two faults (R210) have an entry
the spec describes (R211), so they lead to a next state (`State.raiseFault`), no command faults once decoded (R210),
and the block has no hang, no wait state and no stuck state (R166). Safe: nothing is stopped that the block runs. -/
inductive Fault where
  deriving DecidableEq, Repr

/-- The refusals of the model. -/
inductive Refusal where
  /-- Raised by an arm of `exec` whose command has no meaning yet. No arm does: every command of the table has its
  meaning. Safe: a refused command proves nothing about the hardware. -/
  | notModelled (mnemonic : String)
  deriving DecidableEq, Repr

/-- A storage of the block held sparsely: pairs of an index and its contents, indices strictly rising, and no pair that
holds 0, which is what an unlisted index reads as (R230: every byte and word of the storages resets to 0). `Memory 8`
is a list of `Host.Cell`. -/
abbrev Memory (w : Nat) := List (Nat × BitVec w)

/-- R210: the fault causes the sequencer raises, and the cause of a run that did not fault. Codes 3..15 are reserved
and never raised (I13), so they have no constructor. -/
inductive Cause where
  /-- Code 0: the last run did not fault. -/
  | none
  /-- Code 1. -/
  | illegalInstruction
  /-- Code 2. -/
  | fetchRange
  deriving DecidableEq, Repr

/-- R31: the fields of `STATUS`. Its reserved bits read 0 and have no storage. -/
structure Status where
  /-- Bit 0: 1 from START until the run ends. -/
  busy : Bool
  /-- Bit 1: 1 when the last run ended by HALT. -/
  done : Bool
  /-- Bit 2: 1 when the last run ended by a fault. -/
  fault : Bool
  /-- Bit 3: sticky; a host write was refused while BUSY. -/
  hostConflict : Bool
  /-- Bits 11:8: the fault cause of the last run. -/
  cause : Cause
  deriving DecidableEq, Repr

/-- R238: what may happen next at the block, as an interleaving of the host's accesses, the reset input and the
sequencer's steps. -/
inductive Move where
  /-- The sequencer takes its next step. -/
  | sequencer
  /-- The host reads the word at a window offset (R51, R52). -/
  | read (offset : BitVec 16)
  /-- The host writes the word at a window offset (R51, R52). -/
  | write (offset : BitVec 16) (data : BitVec 32)
  /-- The reset input is asserted (R230). -/
  | assertReset
  /-- The reset input is released (R230, R231). -/
  | releaseReset
  deriving DecidableEq, Repr

/-- The state of the block. The last three fields are the model's own (log entries 3 and 4). -/
structure State where
  /-- R20: `R0..R31`. Bit 63 of each is 0 at all times (R21). -/
  regs : Vector Word 32
  /-- R25: `C0..C63`; bit `j` is `C[j]`, as `CARRY_LO` and `CARRY_HI` show it (R51). -/
  carry : BitVec 64
  /-- R26: `MCOUNT`. -/
  mcount : BitVec 64
  /-- R27: `IBUF[0..63]`, by byte index. -/
  ibuf : Memory 8
  /-- R28: `IMEM[0..IMEM_WORDS-1]`, by word index. -/
  imem : Memory 32
  /-- R29: `PC`, a word index into IMEM. -/
  pc : BitVec 32
  /-- R32: `START_PC`. -/
  startPc : BitVec 32
  /-- R31: `STATUS`. -/
  status : Status
  /-- R32: `FAULT_PC`. -/
  faultPc : BitVec 32
  /-- R32: `FAULT_INSN`. -/
  faultInsn : BitVec 32
  /-- R28, R33: `IMEM_WORDS`, the block's own size, which `CONFIG` reports and nothing changes. -/
  imemWords : Nat
  /-- R230: whether the reset input is asserted. -/
  resetAsserted : Bool
  /-- Model: the host's accesses and reset edges still to come, next first; when it is empty the sequencer steps. -/
  moves : List Move
  /-- Model: how many unspecified host reads there have been; the index of the next free value. -/
  draws : Nat
  /-- Model: the word the host's latest read returned. -/
  hostData : BitVec 32
  deriving DecidableEq, Repr

/-- R31, R230: `STATUS` after reset. -/
abbrev Status.reset : Status :=
  { busy := false, done := false, fault := false, hostConflict := false, cause := .none }

/-- R230: a block of `imemWords` program words right after reset. -/
def State.resetOf (imemWords : Nat) : State :=
  { regs := Vector.replicate 32 0#64
    carry := 0#64
    mcount := 0#64
    ibuf := []
    imem := []
    pc := 0#32
    startPc := 0#32
    status := Status.reset
    faultPc := 0#32
    faultInsn := 0#32
    imemWords := imemWords
    resetAsserted := false
    moves := []
    draws := 0
    hostData := 0#32 }

/-- R230: the machine right after reset, with `IMEM_WORDS = 1024` (R28). -/
def State.reset : State := State.resetOf Config.imemWords

end Sys2Proof.Machine
end

