-- ==== Sys2Proof/Machine/Ops.lean ====
section
/-! DEFINITION. The named operations over the block's storages, registers and run control: the sparse memories, the
word registers (R10, R21), the carry slots (R25), the program counter (R163), entering a run (R160), leaving it
(R165), taking a fault (R211), and the reset input (R230). -/

namespace Sys2Proof.Machine

/-! Memories. -/

/-- The contents at an index. An unlisted index reads 0 (R230). -/
def Memory.read {w : Nat} : Memory w → Nat → BitVec w
  | [], _ => 0#w
  | (k, v) :: rest, a => if a = k then v else Memory.read rest a

/-- Put `v` at index `a`, keeping the canonical form. -/
def Memory.write {w : Nat} : Memory w → Nat → BitVec w → Memory w
  | [], a, v => if v = 0#w then [] else [(a, v)]
  | (k, x) :: rest, a, v =>
    if a < k then (if v = 0#w then (k, x) :: rest else (a, v) :: (k, x) :: rest)
    else if a = k then (if v = 0#w then rest else (a, v) :: rest)
    else (k, x) :: Memory.write rest a v

/-- The canonical form from index `lo` up and below `bound`: indices strictly rising, no entry 0. -/
def Memory.wfFrom {w : Nat} (bound : Nat) : Nat → Memory w → Bool
  | _, [] => true
  | lo, (k, v) :: rest =>
    decide (lo ≤ k) && decide (k < bound) && decide (v ≠ 0#w) && Memory.wfFrom bound (k + 1) rest

/-- The canonical form of a storage of `bound` units: no unit outside it is listed, indices rise strictly, and no
entry equals what an unlisted index reads as. -/
def Memory.wf {w : Nat} (bound : Nat) (m : Memory w) : Bool := Memory.wfFrom bound 0 m

/-! Word registers. -/

/-- R9, R10: `v & MASK63`, what a write of `v` to a word register stores. -/
def payload (v : Word) : Word := v &&& mask63

/-- R10: `R[i]`. -/
def State.readReg (s : State) (i : Reg) : Word := s.regs[i.val]

/-- R10, R21: `R[i] <- v`: every write, by a command or by the host, stores `v & MASK63`. -/
def State.writeReg (s : State) (i : Reg) (v : Word) : State :=
  { s with regs := s.regs.set i.val (payload v) }

/-! Carry slots. -/

/-- Bit `j` of a set of carry bits replaced by `b`. -/
def setBit (c : BitVec 64) (j : Slot) (b : Bool) : BitVec 64 :=
  if b then c ||| (1#64 <<< j.val) else c &&& ~~~(1#64 <<< j.val)

/-- R10: `C[j]`. -/
def State.readCarry (s : State) (j : Slot) : Bool := s.carry.getLsbD j.val

/-- R10: `C[j] <- b`. -/
def State.writeCarry (s : State) (j : Slot) (b : Bool) : State :=
  { s with carry := setBit s.carry j b }

/-! Run control. -/

/-- R163: `PC <- PC + 1`, how every command but HALT ends. -/
def State.advance (s : State) : State := { s with pc := s.pc + 1#32 }

/-- R160: what START does to the state: a run begins at `START_PC`; nothing else changes. -/
def State.startRun (s : State) : State :=
  { s with
    pc := s.startPc
    status := { s.status with busy := true, done := false, fault := false, cause := .none } }

/-- R165: the run ends normally; `PC` keeps the index of the HALT. -/
def State.endRun (s : State) : State :=
  { s with status := { s.status with busy := false, done := true } }

/-- R211: fault entry: the run ends, the cause, the `PC` of the fetch and the word are recorded, `PC` keeps its value,
and nothing else changes. There is no return from a fault (R213): the next START (`State.startRun`) begins a new run. -/
def State.raiseFault (s : State) (cause : Cause) (pc insn : BitVec 32) : State :=
  { s with
    status := { s.status with busy := false, done := false, fault := true, cause := cause }
    faultPc := pc
    faultInsn := insn }

/-! The reset input. -/

/-- R230: reset asserted: any run ends without a fault and every piece of state takes its reset value. The block's
size is no state that reset could lose (R28); the moves still to come, the count of free values and the host's latest
read belong to the model and to the host, not to the block (log entry 3). -/
def State.applyReset (s : State) : State :=
  { State.resetOf s.imemWords with
    resetAsserted := true, moves := s.moves, draws := s.draws, hostData := s.hostData }

end Sys2Proof.Machine
end

