-- ==== Sys2Proof/Machine/Flags.lean ====
section
/-! DEFINITION. The arithmetic of the carry family (spec/43_carry_ops.md R130 to R133, R135) and the population count
(spec/44_count.md): exact sums in Nat, the carry-out as bit 63 of the value before masking, narrowed at the end. The
carry bits are the block's only flags (R34). -/

namespace Sys2Proof.Machine

/-- R9, R130: `a + b + cin`, exact. -/
def exactSum (a b : Word) (cin : Bool) : Nat := a.toNat + b.toNat + cin.toNat

/-- R130, R132: `t[63]` of an exact sum: the carry-out of the 63-bit payload addition. -/
def sumCarry (t : Nat) : Bool := t.testBit 63

/-- The exact sum as a 64-bit word: it fits (R135: no sum of payloads reaches `2^64`). -/
def sumWord (t : Nat) : Word := BitVec.ofNat 64 t

/-- R131: `((m & cc) << 1) | zext_64(cin)`, before masking. -/
def advWord (m cc : Word) (cin : Bool) : Word := ((m &&& cc) <<< 1) ||| (BitVec.ofBool cin).setWidth 64

/-- R131: `r[63]` of ADV's value before masking. -/
def advCarry (m cc : Word) (cin : Bool) : Bool := (advWord m cc cin).getLsbD 63

/-- R132: MSTAR's `t = (m & cc) + cc + cin`, exact. -/
def mstarSum (m cc : Word) (cin : Bool) : Nat := exactSum (m &&& cc) cc cin

/-- R132: `(t ^ cc) | m`, before masking. -/
def mstarWord (m cc : Word) (cin : Bool) : Word := (sumWord (mstarSum m cc cin) ^^^ cc) ||| m

/-- R133: `t & ~cc` with `t = m + cc`, before masking. -/
def scanWord (m cc : Word) : Word := sumWord (exactSum m cc false) &&& ~~~cc

/-- R116: `(c & t) | (~c & e)`, before masking. -/
def selWord (c t e : Word) : Word := (c &&& t) ||| (~~~c &&& e)

/-- R9: `popcount(v)`: the number of 1 bits of `v`. -/
def popcount (v : Word) : Nat := (List.range 64).countP (fun k => v.getLsbD k)

end Sys2Proof.Machine
end

