-- ==== Sys2Proof/Machine/Operands.lean ====
section
/-! DEFINITION. The operand forms of the commands. R81, R83: a register field names `R[i]` (`State.readReg`,
`State.writeReg`) and the carry field names `C[j]` (`State.readCarry`, `State.writeCarry`) directly: there are no
immediates, no scaling, no addressing modes and no effective address (R50, R81). R10, R162: every source is read from
the state before any destination is written, so a destination may name a source. What is left is the block of IBUF
that TRANSPOSE reads, as bit-planes, and the shapes in which results are written back. -/

namespace Sys2Proof.Machine

/-- R10: `MemRead(IBUF, i, 1)`. -/
def State.ibufByte (s : State) (i : Nat) : Byte := s.ibuf.read i

/-- R10: `MemRead(IMEM, j, 4)`, a word by its word index. -/
def State.imemWord (s : State) (j : Nat) : Cmd := s.imem.read j

/-- R100: basis plane `p` of the block in `IBUF`: bit `i` is bit `p` of byte `i`, for the 63 payload bytes. -/
def State.plane (s : State) (p : Nat) : Word :=
  (List.range Config.payloadBits).foldl
    (fun v i => v ||| ((BitVec.ofBool ((s.ibufByte i).getLsbD p)).setWidth 64 <<< i)) 0#64

/-- R22: the basis registers `R0..R7`, in plane order. -/
def basisRegs : List Reg := [0, 1, 2, 3, 4, 5, 6, 7]

/-- R100: write plane `p` of `src`'s block into `R[p]` for each basis register. -/
def State.writePlanes (s src : State) : State :=
  basisRegs.foldl (fun t p => t.writeReg p (src.plane p.val)) s

/-- The result of a command that writes one register and ends with `pc <- pc + 1`. -/
def State.setReg (s : State) (rd : Reg) (v : Word) : State := (s.writeReg rd v).advance

/-- The result of a command that writes its carry slot and one register and ends with `pc <- pc + 1` (R130, R131,
R132). -/
def State.setRegCarry (s : State) (rd : Reg) (v : Word) (ck : Slot) (cout : Bool) : State :=
  ((s.writeCarry ck cout).writeReg rd v).advance

end Sys2Proof.Machine
end

