-- ==== Sys2Proof/Machine/CarryOps.lean ====
section
/-! DEFINITION. The carry-propagating bit-stream operations (spec/43_carry_ops.md R130 to R134). -/

namespace Sys2Proof.Machine

/-- R131, ADV: the carry-out is bit 63 before masking; the register takes the masked shift. -/
def execAdv (rd rm rcc : Reg) (ck : Slot) (s : State) : Host.Outcome State Fault Refusal :=
  .next (s.setRegCarry rd (advWord (s.readReg rm) (s.readReg rcc) (s.readCarry ck)) ck
    (advCarry (s.readReg rm) (s.readReg rcc) (s.readCarry ck)))

/-- R132, MSTAR: `t = (m & cc) + cc + cin`; `C[CI] <- t[63]`; `R[RD] <- ((t ^ cc) | m) & MASK63`. -/
def execMstar (rd rm rcc : Reg) (ck : Slot) (s : State) : Host.Outcome State Fault Refusal :=
  .next (s.setRegCarry rd (mstarWord (s.readReg rm) (s.readReg rcc) (s.readCarry ck)) ck
    (sumCarry (mstarSum (s.readReg rm) (s.readReg rcc) (s.readCarry ck))))

/-- R133, SCANTHRU: `R[RD] <- ((m + cc) & ~cc) & MASK63`; no carry is read or written. -/
def execScanthru (rd rm rcc : Reg) (s : State) : Host.Outcome State Fault Refusal :=
  .next (s.setReg rd (scanWord (s.readReg rm) (s.readReg rcc)))

/-- R130, ADDC: `t = a + b + cin`; `C[CI] <- t[63]`; `R[RD] <- t & MASK63`. -/
def execAddc (rd ra rb : Reg) (ck : Slot) (s : State) : Host.Outcome State Fault Refusal :=
  .next (s.setRegCarry rd (sumWord (exactSum (s.readReg ra) (s.readReg rb) (s.readCarry ck))) ck
    (sumCarry (exactSum (s.readReg ra) (s.readReg rb) (s.readCarry ck))))

/-- R134, CLRC: `C[CI] <- 0`. -/
def execClrc (ck : Slot) (s : State) : Host.Outcome State Fault Refusal := .next (s.writeCarry ck false).advance

end Sys2Proof.Machine
end

