-- ==== Sys2Proof/Machine/Control.lean ====
section
/-! DEFINITION. The control commands (spec/45_sequencing.md R164, R165). -/

namespace Sys2Proof.Machine

/-- R164, NOP: `pc <- pc + 1`. -/
def execNop (s : State) : Host.Outcome State Fault Refusal := .next s.advance

/-- R165, HALT: `STATUS.BUSY <- 0; STATUS.DONE <- 1`; `PC` is not advanced. -/
def execHalt (s : State) : Host.Outcome State Fault Refusal := .next s.endRun

end Sys2Proof.Machine
end

