-- ==== Sys2Proof/Machine/Count.lean ====
section
/-! DEFINITION. Population count and match counting (spec/44_count.md R150, R151). -/

namespace Sys2Proof.Machine

/-- R150, POPC: `R[RD] <- popcount(R[RA])`. -/
def execPopc (rd ra : Reg) (s : State) : Host.Outcome State Fault Refusal :=
  .next (s.setReg rd (BitVec.ofNat 64 (popcount (s.readReg ra))))

/-- R151, ACCPOP: `MCOUNT <- (MCOUNT + popcount(R[RA])) mod 2^64`. -/
def execAccpop (ra : Reg) (s : State) : Host.Outcome State Fault Refusal :=
  .next { s with mcount := s.mcount + BitVec.ofNat 64 (popcount (s.readReg ra)) }.advance

end Sys2Proof.Machine
end

