-- ==== Sys2Proof/Machine/Logic.lean ====
section
/-! DEFINITION. The character-class evaluator (spec/42_logic.md R110 to R116). -/

namespace Sys2Proof.Machine

/-- R110, TRUE: `R[rd] <- MASK63`. -/
def execTrue (rd : Reg) (s : State) : Host.Outcome State Fault Refusal := .next (s.setReg rd mask63)

/-- R111, FALSE: `R[rd] <- 0`. -/
def execFalse (rd : Reg) (s : State) : Host.Outcome State Fault Refusal := .next (s.setReg rd 0#64)

/-- R112, AND: `R[rd] <- R[ra] & R[rb]`. -/
def execAnd (rd ra rb : Reg) (s : State) : Host.Outcome State Fault Refusal :=
  .next (s.setReg rd (s.readReg ra &&& s.readReg rb))

/-- R113, OR: `R[rd] <- R[ra] | R[rb]`. -/
def execOr (rd ra rb : Reg) (s : State) : Host.Outcome State Fault Refusal :=
  .next (s.setReg rd (s.readReg ra ||| s.readReg rb))

/-- R114, XOR: `R[rd] <- R[ra] ^ R[rb]`. -/
def execXor (rd ra rb : Reg) (s : State) : Host.Outcome State Fault Refusal :=
  .next (s.setReg rd (s.readReg ra ^^^ s.readReg rb))

/-- R115, NOT: `R[rd] <- (~R[ra]) & MASK63`; the mask is the write's (R21). -/
def execNot (rd ra : Reg) (s : State) : Host.Outcome State Fault Refusal := .next (s.setReg rd (~~~(s.readReg ra)))

/-- R116, SEL: `R[rd] <- ((c & t) | (~c & e)) & MASK63`; the mask is the write's (R21). -/
def execSel (rd rcond rthen relse : Reg) (s : State) : Host.Outcome State Fault Refusal :=
  .next (s.setReg rd (selWord (s.readReg rcond) (s.readReg rthen) (s.readReg relse)))

end Sys2Proof.Machine
end

