-- ==== Sys2Proof/Machine/Transpose.lean ====
section
/-! DEFINITION. Bit-plane transposition (spec/41_transpose.md R100). -/

namespace Sys2Proof.Machine

/-- R100, TRANSPOSE: `R[p] <- ` basis plane `p` of `IBUF[0..62]`, for `p` in 0..7. -/
def execTranspose (s : State) : Host.Outcome State Fault Refusal := .next (s.writePlanes s).advance

end Sys2Proof.Machine
end

