-- ==== Sys2Proof/Machine/Dispatch.lean ====
section
/-! DEFINITION. One arm per command of the opcode table (spec/30_encoding.md R85), each calling its meaning. -/

namespace Sys2Proof.Machine

def exec (i : Instr) (s : State) : Host.Outcome State Fault Refusal :=
  match i with
  -- spec/45_sequencing.md
  | .nop => Sys2Proof.Machine.execNop s
  | .halt => Sys2Proof.Machine.execHalt s
  -- spec/41_transpose.md
  | .transpose => Sys2Proof.Machine.execTranspose s
  -- spec/42_logic.md
  | .setTrue rd => Sys2Proof.Machine.execTrue rd s
  | .setFalse rd => Sys2Proof.Machine.execFalse rd s
  | .band rd ra rb => Sys2Proof.Machine.execAnd rd ra rb s
  | .bor rd ra rb => Sys2Proof.Machine.execOr rd ra rb s
  | .bxor rd ra rb => Sys2Proof.Machine.execXor rd ra rb s
  | .bnot rd ra => Sys2Proof.Machine.execNot rd ra s
  | .sel rd rcond rthen relse => Sys2Proof.Machine.execSel rd rcond rthen relse s
  -- spec/43_carry_ops.md
  | .adv rd rm rcc ck => Sys2Proof.Machine.execAdv rd rm rcc ck s
  | .mstar rd rm rcc ck => Sys2Proof.Machine.execMstar rd rm rcc ck s
  | .scanthru rd rm rcc => Sys2Proof.Machine.execScanthru rd rm rcc s
  | .addc rd ra rb ck => Sys2Proof.Machine.execAddc rd ra rb ck s
  -- spec/44_count.md
  | .popc rd ra => Sys2Proof.Machine.execPopc rd ra s
  | .accpop ra => Sys2Proof.Machine.execAccpop ra s
  -- spec/43_carry_ops.md
  | .clrc ck => Sys2Proof.Machine.execClrc ck s

end Sys2Proof.Machine
end

