-- ==== Sys2Proof/Machine/Sequencer.lean ====
section
/-! DEFINITION. One step of the command sequencer (spec/45_sequencing.md R161): fetch, decode, execute, or fault. -/

namespace Sys2Proof.Machine

/-- R161: the fetch: the word at `PC`, if `PC` is below `IMEM_WORDS`. -/
def State.fetch (s : State) : Option Cmd :=
  if s.imemWords ≤ s.pc.toNat then none else some (s.imemWord s.pc.toNat)

/-- R161, R210: decode a fetched word and execute it, or take the fault of an illegal word. -/
def State.executeWord (s : State) (w : Cmd) : Host.Outcome State Fault Refusal :=
  match decode w with
  | .ok i => exec i s
  | .error _ => .next (s.raiseFault .illegalInstruction s.pc w)

/-- R161: the sequencer's step while a run is in progress. -/
def State.runStep (s : State) : Host.Outcome State Fault Refusal :=
  match s.fetch with
  | none => .next (s.raiseFault .fetchRange s.pc 0#32)
  | some w => s.executeWord w

/-- R161, R223, R230: the sequencer steps while `STATUS.BUSY = 1` and reset is not asserted; otherwise the block holds
its state. -/
def State.sequencerStep (s : State) : Host.Outcome State Fault Refusal :=
  if s.status.busy && !s.resetAsserted then s.runStep else .next s

end Sys2Proof.Machine
end

