-- ==== Sys2Proof/Machine/HostWindow.lean ====
section
/-! DEFINITION. The host's register window (spec/20_memory.md R51 to R59, spec/10_state.md R25 to R33): what each
offset names, what a read of it returns and what a write to it does, idle, during a run and under reset. -/

namespace Sys2Proof.Machine

/-- R51: what a window offset names. -/
inductive WindowLoc where
  | ctrl | status | startPc | pc | faultPc | faultInsn | mcountLo | mcountHi | carryLo | carryHi | config
  /-- Word `k` of `IBUF`: bytes `4k..4k+3` (R55). -/
  | ibuf (k : Nat)
  /-- `R[i][31:0]` (R56). -/
  | regLo (i : Reg)
  /-- `R[i][63:32]` (R56). -/
  | regHi (i : Reg)
  /-- `IMEM[j]` (R57). -/
  | imem (j : Nat)
  /-- Every other offset (R58). -/
  | unmapped
  deriving DecidableEq, Repr

/-- R53: the offset with bits 1:0 ignored. -/
def alignOffset (offset : BitVec 16) : Nat := (offset &&& 0xFFFC#16).toNat

/-- R51: the map, for an aligned byte offset `a` of a block of `imemWords` program words. -/
def locOfAligned (imemWords a : Nat) : WindowLoc :=
  if a = 0x000 then .ctrl
  else if a = 0x004 then .status
  else if a = 0x008 then .startPc
  else if a = 0x00C then .pc
  else if a = 0x010 then .faultPc
  else if a = 0x014 then .faultInsn
  else if a = 0x018 then .mcountLo
  else if a = 0x01C then .mcountHi
  else if a = 0x020 then .carryLo
  else if a = 0x024 then .carryHi
  else if a = 0x028 then .config
  else if 0x100 ≤ a ∧ a ≤ 0x13C then .ibuf ((a - 0x100) / 4)
  else if 0x200 ≤ a ∧ a ≤ 0x2FC then
    (if (a - 0x200) % 8 = 0 then .regLo (Fin.ofNat 32 ((a - 0x200) / 8)) else .regHi (Fin.ofNat 32 ((a - 0x200) / 8)))
  else if 0x1000 ≤ a ∧ (a - 0x1000) / 4 < imemWords then .imem ((a - 0x1000) / 4)
  else .unmapped

/-- R51, R53: what an offset of the window names. -/
def State.locOf (s : State) (offset : BitVec 16) : WindowLoc := locOfAligned s.imemWords (alignOffset offset)

/-! What a read returns. -/

/-- R210: the code of a cause. -/
def Cause.code : Cause → BitVec 4
  | .none => 0#4
  | .illegalInstruction => 1#4
  | .fetchRange => 2#4

/-- R31: `STATUS` as the host reads it; the reserved bits are 0. -/
def Status.word (st : Status) : BitVec 32 :=
  (0#20 : BitVec 20) ++ st.cause.code ++ 0#4 ++ BitVec.ofBool st.hostConflict ++ BitVec.ofBool st.fault
    ++ BitVec.ofBool st.done ++ BitVec.ofBool st.busy

/-- R33: `CONFIG`: `NCARRY`, `NREG` and `IMEM_WORDS`. -/
def State.configWord (s : State) : BitVec 32 := 64#8 ++ 32#8 ++ BitVec.ofNat 16 s.imemWords

/-- R55: the host word of `IBUF` bytes `4k..4k+3`, little-endian. -/
def State.ibufWord (s : State) (k : Nat) : BitVec 32 :=
  s.ibufByte (4 * k + 3) ++ s.ibufByte (4 * k + 2) ++ s.ibufByte (4 * k + 1) ++ s.ibufByte (4 * k)

/-- R51, R58: the word at a location: what a host read returns while the block is idle. -/
def State.windowWord (s : State) : WindowLoc → BitVec 32
  | .ctrl => 0#32
  | .status => s.status.word
  | .startPc => s.startPc
  | .pc => s.pc
  | .faultPc => s.faultPc
  | .faultInsn => s.faultInsn
  | .mcountLo => s.mcount.extractLsb' 0 32
  | .mcountHi => s.mcount.extractLsb' 32 32
  | .carryLo => s.carry.extractLsb' 0 32
  | .carryHi => s.carry.extractLsb' 32 32
  | .config => s.configWord
  | .ibuf k => s.ibufWord k
  | .regLo i => (s.readReg i).extractLsb' 0 32
  | .regHi i => (s.readReg i).extractLsb' 32 32
  | .imem j => s.imemWord j
  | .unmapped => 0#32

/-- R59: the locations whose read while BUSY returns an unspecified value. `CTRL` is not one of them: it has no storage
and always reads 0 (R30, R58; log entry 5). -/
def WindowLoc.openWhileBusy : WindowLoc → Bool
  | .pc | .faultPc | .faultInsn | .mcountLo | .mcountHi | .carryLo | .carryHi => true
  | .ibuf _ | .regLo _ | .regHi _ | .imem _ => true
  | .ctrl | .status | .startPc | .config | .unmapped => false

/-- I1, I2: an unspecified read: the host gets the next free value. The block's own state does not change. -/
def State.drawRead (s : State) : State := { s with hostData := Config.freeWord s.draws, draws := s.draws + 1 }

/-- R58, R59, R230: a host read. It changes nothing of the block; the host gets the word, or a free value where the
spec leaves the value open. -/
def State.hostRead (s : State) (offset : BitVec 16) : State :=
  if s.resetAsserted || (s.status.busy && (s.locOf offset).openWhileBusy) then s.drawRead
  else { s with hostData := s.windowWord (s.locOf offset) }

/-! What a write does. -/

/-- R30: a write of `CTRL` while idle: `CLR_CARRY` and `CLR_COUNT` take effect before `START`. -/
def State.writeCtrl (s : State) (w : BitVec 32) : State :=
  let s1 := if w.getLsbD 1 then { s with carry := 0#64 } else s
  let s2 := if w.getLsbD 2 then { s1 with mcount := 0#64 } else s1
  if w.getLsbD 0 then s2.startRun else s2

/-- R31: a write of `STATUS`: a 1 in bit 3 clears `HOST_CONFLICT`; every other bit is ignored. -/
def State.writeStatus (s : State) (w : BitVec 32) : State :=
  if w.getLsbD 3 then { s with status := { s.status with hostConflict := false } } else s

/-- R55: a host write of `IBUF` word `k` sets bytes `4k..4k+3`, little-endian. -/
def State.writeIbufWord (s : State) (k : Nat) (w : BitVec 32) : State :=
  { s with
    ibuf := (((s.ibuf.write (4 * k) (w.extractLsb' 0 8)).write (4 * k + 1) (w.extractLsb' 8 8)).write (4 * k + 2)
      (w.extractLsb' 16 8)).write (4 * k + 3) (w.extractLsb' 24 8) }

/-- R51, R58: a host write of a location while the block is idle. -/
def State.idleWrite (s : State) (w : BitVec 32) : WindowLoc → State
  | .ctrl => s.writeCtrl w
  | .status => s.writeStatus w
  | .startPc => { s with startPc := w }
  | .carryLo => { s with carry := s.carry.extractLsb' 32 32 ++ w }
  | .carryHi => { s with carry := w ++ s.carry.extractLsb' 0 32 }
  | .ibuf k => s.writeIbufWord k w
  | .regLo i => s.writeReg i ((s.readReg i).extractLsb' 32 32 ++ w)
  | .regHi i => s.writeReg i (w ++ (s.readReg i).extractLsb' 0 32)
  | .imem j => { s with imem := s.imem.write j w }
  | .pc | .faultPc | .faultInsn | .mcountLo | .mcountHi | .config | .unmapped => s

/-- R59: a host write while BUSY has no effect but to set the sticky `HOST_CONFLICT`. -/
def State.refuseWrite (s : State) : State := { s with status := { s.status with hostConflict := true } }

/-- R51, R59, R230: a host write. Under reset it is ignored; `STATUS` takes it at any other time; every other offset
takes it only while idle. -/
def State.hostWrite (s : State) (offset : BitVec 16) (w : BitVec 32) : State :=
  if s.resetAsserted then s
  else if s.status.busy && decide (s.locOf offset ≠ .status) then s.refuseWrite
  else s.idleWrite w (s.locOf offset)

/-! The host's own address space. -/

/-- R61, D25: the window offset an address of the host's reaches, when the window's base is the platform's open
parameter `pbxBase`: `none` for an address outside the window. -/
def windowOffset (pbxBase addr : Nat) : Option (BitVec 16) :=
  if pbxBase ≤ addr ∧ addr < pbxBase + 2 ^ 16 then some (BitVec.ofNat 16 (addr - pbxBase)) else none

/-! What may happen next. -/

/-- R63, R238: one move of the interleaving. -/
def State.perform (s : State) : Move → Host.Outcome State Fault Refusal
  | .sequencer => s.sequencerStep
  | .read offset => .next (s.hostRead offset)
  | .write offset w => .next (s.hostWrite offset w)
  | .assertReset => .next s.applyReset
  | .releaseReset => .next { s with resetAsserted := false }

/-- R63, R238: the next move of the interleaving: the host's next access or reset edge if one stands in `moves`, and the
sequencer's step otherwise. -/
def State.nextMove (s : State) : Host.Outcome State Fault Refusal :=
  match s.moves with
  | [] => s.sequencerStep
  | m :: rest => { s with moves := rest }.perform m

/-! Placing one command for the sequencer. -/

/-- `PC` where a fetch finds a word, else index 0. -/
def State.fetchablePc (s : State) : BitVec 32 := if s.pc.toNat < s.imemWords then s.pc else 0#32

/-- `s` in the middle of a run, no host move due, with the command word `w` at the `PC`: what a host that loads `w`
there and writes START (R160) brings about. -/
def State.placeWord (s : State) (w : Cmd) : State :=
  { s with
    imem := s.imem.write s.fetchablePc.toNat w
    pc := s.fetchablePc
    status := { s.status with busy := true, done := false, fault := false, cause := .none }
    imemWords := if s.imemWords = 0 then Config.imemWords else s.imemWords
    resetAsserted := false
    moves := [] }

end Sys2Proof.Machine
end

