-- ==== Sys2Proof/Machine/Step.lean ====
section
/-! DEFINITION. The step of the machine: the next move of the interleaving of host and sequencer (spec/20_memory.md
R63, spec/70_reset_and_hazards.md R238). -/

namespace Sys2Proof.Machine

/-- One step: the host's next access if one is due, else one step of the sequencer. -/
def step (s : State) : Host.Outcome State Fault Refusal := s.nextMove

/-- `s` with the command word numbered as spec/opcode_table.json numbers it placed where `step` fetches next. -/
def State.withFetchWord (s : State) (nbits w : Nat) : State := s.placeWord (BitVec.ofNat 32 (w % 2 ^ nbits))

end Sys2Proof.Machine
end

