-- ==== Sys2Proof/Machine/Assembler.lean ====
section
/-! DEFINITION. The assembler syntax of PBX-CMD (spec/30_encoding.md R89, R91): one line of text to one command, and
the text of a command. Text is a list of characters. A line that is no command (an unknown mnemonic, a register above
`r31`, a slot above `c63`, a wrong kind or number of operands) is refused. Log entry 9. -/

namespace Sys2Proof

/-- R89, R91: what a mnemonic names: a row of the opcode table or a pseudo-instruction. -/
inductive AsmOp where
  | row (op : Op)
  | mov
  | shl
  | clr
  deriving DecidableEq, Repr

/-- R89: an operand: a register or a carry slot. -/
inductive AsmOperand where
  | reg (r : Reg)
  | slot (k : Slot)
  deriving DecidableEq, Repr

/-- R89: the mnemonics, in upper case, with the pseudo-instructions of R91. -/
def asmNames : List (List Char × AsmOp) :=
  [ (['N', 'O', 'P'], .row .nop), (['H', 'A', 'L', 'T'], .row .halt),
    (['T', 'R', 'A', 'N', 'S', 'P', 'O', 'S', 'E'], .row .transpose), (['T', 'R', 'U', 'E'], .row .setTrue),
    (['F', 'A', 'L', 'S', 'E'], .row .setFalse), (['A', 'N', 'D'], .row .band), (['O', 'R'], .row .bor),
    (['X', 'O', 'R'], .row .bxor), (['N', 'O', 'T'], .row .bnot), (['S', 'E', 'L'], .row .sel) ] ++
  [ (['A', 'D', 'V'], .row .adv), (['M', 'S', 'T', 'A', 'R'], .row .mstar),
    (['S', 'C', 'A', 'N', 'T', 'H', 'R', 'U'], .row .scanthru), (['A', 'D', 'D', 'C'], .row .addc),
    (['P', 'O', 'P', 'C'], .row .popc), (['A', 'C', 'C', 'P', 'O', 'P'], .row .accpop),
    (['C', 'L', 'R', 'C'], .row .clrc), (['M', 'O', 'V'], .mov), (['S', 'H', 'L'], .shl), (['C', 'L', 'R'], .clr) ]

/-- A decimal digit. -/
def digitChar (n : Nat) : Char := ['0', '1', '2', '3', '4', '5', '6', '7', '8', '9'].getD n '0'

/-- A number below 100 in decimal, with no leading zero. -/
def decimal (n : Nat) : List Char := if n < 10 then [digitChar n] else [digitChar (n / 10), digitChar (n % 10)]

/-- R89: `r0..r31`. -/
def regName (r : Reg) : List Char := 'r' :: decimal r.val

/-- R89, R91: `p0..p7`, the names of the basis registers. -/
def planeName (k : Fin 8) : List Char := 'p' :: decimal k.val

/-- R89: `c0..c63`. -/
def slotName (k : Slot) : List Char := 'c' :: decimal k.val

/-- R89: the operand a name stands for. -/
def parseOperand (cs : List Char) : Option AsmOperand :=
  match (List.finRange 32).find? (fun r => regName r == cs) with
  | some r => some (.reg r)
  | none =>
    match (List.finRange 8).find? (fun k => planeName k == cs) with
    | some k => some (.reg (Fin.ofNat 32 k.val))
    | none => ((List.finRange 64).find? (fun k => slotName k == cs)).map .slot

/-- R89, R91: the command of a mnemonic and its operands, destination first. -/
def assembleOp : AsmOp → List AsmOperand → Option Instr
  | .row .nop, [] => some .nop
  | .row .halt, [] => some .halt
  | .row .transpose, [] => some .transpose
  | .row .setTrue, [.reg rd] => some (.setTrue rd)
  | .row .setFalse, [.reg rd] => some (.setFalse rd)
  | .row .band, [.reg rd, .reg ra, .reg rb] => some (.band rd ra rb)
  | .row .bor, [.reg rd, .reg ra, .reg rb] => some (.bor rd ra rb)
  | .row .bxor, [.reg rd, .reg ra, .reg rb] => some (.bxor rd ra rb)
  | .row .bnot, [.reg rd, .reg ra] => some (.bnot rd ra)
  | .row .sel, [.reg rd, .reg rcond, .reg rthen, .reg relse] => some (.sel rd rcond rthen relse)
  | .row .adv, [.reg rd, .reg rm, .reg rcc, .slot ck] => some (.adv rd rm rcc ck)
  | .row .mstar, [.reg rd, .reg rm, .reg rcc, .slot ck] => some (.mstar rd rm rcc ck)
  | .row .scanthru, [.reg rd, .reg rm, .reg rcc] => some (.scanthru rd rm rcc)
  | .row .addc, [.reg rd, .reg ra, .reg rb, .slot ck] => some (.addc rd ra rb ck)
  | .row .popc, [.reg rd, .reg ra] => some (.popc rd ra)
  | .row .accpop, [.reg ra] => some (.accpop ra)
  | .row .clrc, [.slot ck] => some (.clrc ck)
  | .mov, [.reg rd, .reg ra] => some (Instr.mov rd ra)
  | .shl, [.reg rd, .reg ra, .slot ck] => some (Instr.shl rd ra ck)
  | .clr, [.reg rd] => some (Instr.clr rd)
  | _, _ => none

/-! Lines of text. -/

/-- White space within a line. -/
def isBlank (c : Char) : Bool := c == ' ' || c == '\t'

/-- A text without the blanks at its ends. -/
def trimBlanks (cs : List Char) : List Char := ((cs.dropWhile isBlank).reverse.dropWhile isBlank).reverse

/-- A text cut at its commas. -/
def splitCommas : List Char → List (List Char)
  | [] => [[]]
  | c :: cs =>
    if c = ',' then [] :: splitCommas cs
    else match splitCommas cs with
      | [] => [[c]]
      | part :: parts => (c :: part) :: parts

/-- The values of a list of options in order, if all are there. -/
def allSome {α : Type} : List (Option α) → Option (List α)
  | [] => some []
  | x :: xs => x.bind fun a => (allSome xs).map fun as => a :: as

/-- R89: the operands of a line, separated by commas. -/
def parseOperands (cs : List Char) : Option (List AsmOperand) :=
  if trimBlanks cs = [] then some []
  else allSome ((splitCommas cs).map fun part => parseOperand (trimBlanks part))

/-- R89: what a mnemonic names, in either case. -/
def parseMnemonic (cs : List Char) : Option AsmOp :=
  (asmNames.find? (fun p => p.1 == cs.map Char.toUpper)).map Prod.snd

/-- R89: one line, `MNEMONIC operands ; comment`, to its command. -/
def assembleLine (line : List Char) : Option Instr :=
  let text := trimBlanks (line.takeWhile (· != ';'))
  (parseMnemonic (text.takeWhile (fun c => !isBlank c))).bind fun op =>
    (parseOperands (text.dropWhile (fun c => !isBlank c))).bind fun operands => assembleOp op operands

/-! Printing: a disassembler prints the expansion, not the pseudo-instruction (R91). -/

/-- The mnemonic of a row. -/
def opName (op : Op) : List Char := ((asmNames.find? (fun p => p.2 == .row op)).map Prod.fst).getD []

/-- The name of an operand. -/
def AsmOperand.name : AsmOperand → List Char
  | .reg r => regName r
  | .slot k => slotName k

/-- The operands of a command, in the order of R89. -/
def Instr.operands : Instr → List AsmOperand
  | .nop => []
  | .halt => []
  | .transpose => []
  | .setTrue rd => [.reg rd]
  | .setFalse rd => [.reg rd]
  | .band rd ra rb => [.reg rd, .reg ra, .reg rb]
  | .bor rd ra rb => [.reg rd, .reg ra, .reg rb]
  | .bxor rd ra rb => [.reg rd, .reg ra, .reg rb]
  | .bnot rd ra => [.reg rd, .reg ra]
  | .sel rd rcond rthen relse => [.reg rd, .reg rcond, .reg rthen, .reg relse]
  | .adv rd rm rcc ck => [.reg rd, .reg rm, .reg rcc, .slot ck]
  | .mstar rd rm rcc ck => [.reg rd, .reg rm, .reg rcc, .slot ck]
  | .scanthru rd rm rcc => [.reg rd, .reg rm, .reg rcc]
  | .addc rd ra rb ck => [.reg rd, .reg ra, .reg rb, .slot ck]
  | .popc rd ra => [.reg rd, .reg ra]
  | .accpop ra => [.reg ra]
  | .clrc ck => [.slot ck]

/-- Texts joined by commas. -/
def joinCommas : List (List Char) → List Char
  | [] => []
  | [part] => part
  | part :: parts => part ++ [',', ' '] ++ joinCommas parts

/-- R89: the text of a command. -/
def Instr.text (i : Instr) : List Char :=
  opName i.op ++ (if i.operands = [] then [] else ' ' :: joinCommas (i.operands.map AsmOperand.name))

end Sys2Proof
end

