-- ==== Sys2Proof/Machine/CharClass.lean ====
section
/-! DEFINITION. The host-side reference (spec/49_host_cc_reference.md R180 to R194): the value of a boolean expression
on a byte and its word over the basis registers (spec/42_logic.md R117), the canonicalising constructors, and the
character-class compiler. These rules bind the host's program, not the block (R5 (d)). -/

namespace Sys2Proof

open Sys2Proof.Machine

/-! Values and words. -/

/-- R181: the value of an expression on a byte. -/
def BoolExpr.eval (b : Byte) : BoolExpr → Bool
  | .bit k => b.getLsbD k.val
  | .tru => true
  | .fls => false
  | .conj l r => BoolExpr.eval b l && BoolExpr.eval b r
  | .disj l r => BoolExpr.eval b l || BoolExpr.eval b r
  | .neg e => !BoolExpr.eval b e
  | .ite c t e => if BoolExpr.eval b c then BoolExpr.eval b t else BoolExpr.eval b e

/-- The basis register that `Bit(k)` reads (R22, R117). -/
def basisReg (k : Fin 8) : Reg := Fin.ofNat 32 k.val

/-- R117: `W(e)`, the word of an expression over the basis registers of a state. -/
def BoolExpr.word (s : State) : BoolExpr → Word
  | .bit k => s.readReg (basisReg k)
  | .tru => mask63
  | .fls => 0#64
  | .conj l r => BoolExpr.word s l &&& BoolExpr.word s r
  | .disj l r => BoolExpr.word s l ||| BoolExpr.word s r
  | .neg e => payload (~~~(BoolExpr.word s e))
  | .ite c t e => payload (selWord (BoolExpr.word s c) (BoolExpr.word s t) (BoolExpr.word s e))

/-! The canonicalising constructors. -/

/-- R182: structural equality, order-insensitive for `And` and `Or`. -/
def BoolExpr.same : BoolExpr → BoolExpr → Bool
  | .bit j, .bit k => j == k
  | .tru, .tru => true
  | .fls, .fls => true
  | .conj l r, .conj l' r' =>
    (BoolExpr.same l l' && BoolExpr.same r r') || (BoolExpr.same l r' && BoolExpr.same r l')
  | .disj l r, .disj l' r' =>
    (BoolExpr.same l l' && BoolExpr.same r r') || (BoolExpr.same l r' && BoolExpr.same r l')
  | .neg e, .neg e' => BoolExpr.same e e'
  | .ite c t e, .ite c' t' e' => BoolExpr.same c c' && BoolExpr.same t t' && BoolExpr.same e e'
  | _, _ => false

/-- R183: the constructor `Not(e)`. -/
def mkNot : BoolExpr → BoolExpr
  | .neg x => x
  | .tru => .fls
  | .fls => .tru
  | e => .neg e

/-- The number of nodes, which bounds how deep the constructors of R184 and R185 call each other. -/
def BoolExpr.size : BoolExpr → Nat
  | .bit _ => 1
  | .tru => 1
  | .fls => 1
  | .conj l r => l.size + r.size + 1
  | .disj l r => l.size + r.size + 1
  | .neg e => BoolExpr.size e + 1
  | .ite c t e => BoolExpr.size c + BoolExpr.size t + BoolExpr.size e + 1

/-- R185: the first pair `(x, u)` of children, in the order `(l1, r1)`, `(l1, r2)`, `(l2, r1)`, `(l2, r2)`, with
`x ≡ u`, as `x`, `y` and `z`: `y` the other child of the left operand and `z` the other child of the right one. -/
def commonFactor : BoolExpr → BoolExpr → Option (BoolExpr × BoolExpr × BoolExpr)
  | .conj l1 l2, .conj r1 r2 =>
    if l1.same r1 then some (l1, l2, r2)
    else if l1.same r2 then some (l1, l2, r1)
    else if l2.same r1 then some (l2, l1, r2)
    else if l2.same r2 then some (l2, l1, r1)
    else none
  | _, _ => none

/-- R184, R185: the pairs `Not(a)`, `Not(b)` that both constructors rewrite. -/
def bothNegated : BoolExpr → BoolExpr → Option (BoolExpr × BoolExpr)
  | .neg a, .neg b => some (a, b)
  | _, _ => none

mutual

/-- R184: the constructor `And(l, r)`, to a depth of calls `n`. -/
def mkAndTo : Nat → BoolExpr → BoolExpr → BoolExpr
  | 0, l, r => .conj l r
  | n + 1, l, r =>
    if l = .fls ∨ r = .fls then .fls
    else if l = .tru then r
    else if r = .tru then l
    else match bothNegated l r with
      | some (a, b) => mkNot (mkOrTo n a b)
      | none => .conj l r

/-- R185: the constructor `Or(l, r)`, to a depth of calls `n`. -/
def mkOrTo : Nat → BoolExpr → BoolExpr → BoolExpr
  | 0, l, r => .disj l r
  | n + 1, l, r =>
    if l = .tru ∨ r = .tru then .tru
    else if l = .fls then r
    else if r = .fls then l
    else match bothNegated l r with
      | some (a, b) => mkNot (mkAndTo n a b)
      | none =>
        match commonFactor l r with
        | some (x, y, z) => mkAndTo n x (mkOrTo n y z)
        | none => .disj l r

end

/-- R184: the constructor `And(l, r)`. Each call inside is on fewer nodes, so this depth is never used up. -/
def mkAnd (l r : BoolExpr) : BoolExpr := mkAndTo (l.size + r.size + 1) l r

/-- R185: the constructor `Or(l, r)`. -/
def mkOr (l r : BoolExpr) : BoolExpr := mkOrTo (l.size + r.size + 1) l r

/-- R188: the constructor `Select(c, t, e)`. -/
def mkSel (c t e : BoolExpr) : BoolExpr :=
  if c = .tru then t
  else if c = .fls then e
  else if t.same e then t
  else if t = .tru then mkOr c e
  else if t = .fls then mkAnd (mkNot c) e
  else if e = .tru then mkOr (mkNot c) t
  else if e = .fls then mkAnd c t
  else .ite c t e

/-! The character-class compiler. -/

/-- `Bit(k)` of a bit position below 8. -/
def bitAt (k : Nat) : BoolExpr := .bit (Fin.ofNat 8 k)

/-- R186: `GE(bits, n)`: the recursion, for `bits <= 8` and `n < 2^bits`. -/
def geTree : Nat → Nat → BoolExpr
  | 0, _ => .tru
  | 1, n => if n.testBit 0 then mkAnd (bitAt 0) (geTree 0 (n - 1)) else mkOr (bitAt 0) (geTree 0 n)
  | k + 2, n =>
    if (k + 2) % 2 = 0 ∧ n / 2 ^ k % 4 = 0 then
      mkOr (mkOr (bitAt (k + 1)) (bitAt k)) (geTree k n)
    else if (k + 2) % 2 = 0 ∧ n / 2 ^ k % 4 = 3 then
      mkAnd (mkAnd (bitAt (k + 1)) (bitAt k)) (geTree k (n - 3 * 2 ^ k))
    else if n.testBit (k + 1) then mkAnd (bitAt (k + 1)) (geTree (k + 1) (n - 2 ^ (k + 1)))
    else mkOr (bitAt (k + 1)) (geTree (k + 1) n)

/-- R186, I8: `GE(bits, n)` for `bits` in 0..8 and `n` in `0 .. 2^bits - 1`; any other call is refused. -/
def geExpr (bits n : Nat) : Option BoolExpr := if bits ≤ 8 ∧ n < 2 ^ bits then some (geTree bits n) else none

/-- R187: `LE(bits, n)`: `True` if `n + 1 = 2^bits`, else `Not(GE(bits, n + 1))`. -/
def leTree (bits n : Nat) : BoolExpr := if n + 1 = 2 ^ bits then .tru else mkNot (geTree bits (n + 1))

/-- R187, I8: `LE(bits, n)`, refused outside its domain. -/
def leExpr (bits n : Nat) : Option BoolExpr := if bits ≤ 8 ∧ n < 2 ^ bits then some (leTree bits n) else none

/-- R189: one round of the balanced reduction: the `And` of adjacent pairs; an odd last one passes up. -/
def pairUp : List BoolExpr → List BoolExpr
  | a :: b :: rest => mkAnd a b :: pairUp rest
  | rest => rest

/-- R189: the balanced reduction, for at most `n` rounds. -/
def reducePairs : Nat → List BoolExpr → BoolExpr
  | _, [] => .tru
  | _, [e] => e
  | 0, e :: _ => e
  | n + 1, es => reducePairs n (pairUp es)

/-- R189: the literals of `bitPattern(v, mask)`, lowest bit first. -/
def patternLiterals (v mask : Byte) : List BoolExpr :=
  ((List.range 8).filter (fun i => mask.getLsbD i)).map (fun i => if v.getLsbD i then bitAt i else mkNot (bitAt i))

/-- R189: `bitPattern(v, mask)`. Three rounds reduce eight literals to one. -/
def bitPattern (v mask : Byte) : BoolExpr := reducePairs 3 (patternLiterals v mask)

/-- The bit length of a number below 256: 1 + the index of its top 1 bit, and 0 for 0 (R190). -/
def bitLength (n : Nat) : Nat := if n = 0 then 0 else Nat.log2 n + 1

/-- R190: the expression of one range. The true branch is `LE` (spec/90_conflicts.md C2). -/
def rangeExpr (r : ByteRange) : BoolExpr :=
  if r.low = r.high then bitPattern r.low 0xFF#8
  else
    let count := bitLength (r.low ^^^ r.high).toNat
    let mask : Byte := BitVec.ofNat 8 (2 ^ count - 1)
    let low := r.low.toNat % 2 ^ (count - 1)
    let high := r.high.toNat % 2 ^ (count - 1)
    mkAnd (bitPattern (r.low &&& ~~~mask) (0xFF#8 ^^^ mask))
      (mkSel (bitAt (count - 1)) (leTree (count - 1) high) (geTree (count - 1) low))

/-- R191, R192, R193: `compile(class)`: the ranges' expressions joined left to right by `Or`; a class with no range is a
precondition violation (`EmptyCharacterClass`) and gives no expression, and a range with `low > high` is none (R190). -/
def CharClass.compile (c : CharClass) : Option BoolExpr :=
  if c.wf then
    match c.ranges with
    | [] => none
    | r :: rs => some (rs.foldl (fun e q => mkOr e (rangeExpr q)) (rangeExpr r))
  else none

/-- R180, R193: the compiled pattern of a list of classes, each paired with its expression in the list's order; none if
a class has none. -/
def compilePattern : List CharClass → Option CompiledPattern
  | [] => some []
  | c :: cs => c.compile.bind fun e => (compilePattern cs).map fun p => (c, e) :: p

end Sys2Proof
end

