-- ==== Sys2Proof/Machine/HostProgram.lean ====
section
/-! DEFINITION. What the host does with the block: expressions to commands (spec/49_host_cc_reference.md R195), the
per-block program of a pattern (spec/45_sequencing.md R170, R171), and the boot order and block loop of one stream
(spec/70_reset_and_hazards.md R232, spec/45_sequencing.md R172), each access of it one step of the machine. These bind the
host's program, not the block. -/

namespace Sys2Proof

open Sys2Proof.Machine

/-- R23, R195: the temporaries `r8..r19`. A node that needs more has no register (I18). -/
def tempReg (n : Nat) : Option Reg := if 8 ≤ n ∧ n < 20 then some (Fin.ofNat 32 n) else none

/-- The temporary of a node whose first free temporary was `n` before its children and `n'` after them: a fresh one,
or, when registers are to be reused, the first that the node itself may use. -/
def nodeTemp (reuse : Bool) (n n' : Nat) : Nat := if reuse then n else n'

/-- R195: the commands of an expression in post-order, one per node that is not a `Bit`, with the register that holds
its result and the next free temporary. -/
def BoolExpr.lower (reuse : Bool) : BoolExpr → Nat → Option (List Instr × Reg × Nat)
  | .bit k, n => some ([], basisReg k, n)
  | .tru, n => (tempReg n).map fun t => ([.setTrue t], t, n + 1)
  | .fls, n => (tempReg n).map fun t => ([.setFalse t], t, n + 1)
  | .neg e, n =>
    (e.lower reuse n).bind fun (c, a, n1) =>
      (tempReg (nodeTemp reuse n n1)).map fun t => (c ++ [.bnot t a], t, nodeTemp reuse n n1 + 1)
  | .conj l r, n =>
    (l.lower reuse n).bind fun (c, a, n1) => (r.lower reuse n1).bind fun (d, b, n2) =>
      (tempReg (nodeTemp reuse n n2)).map fun t => (c ++ d ++ [.band t a b], t, nodeTemp reuse n n2 + 1)
  | .disj l r, n =>
    (l.lower reuse n).bind fun (c, a, n1) => (r.lower reuse n1).bind fun (d, b, n2) =>
      (tempReg (nodeTemp reuse n n2)).map fun t => (c ++ d ++ [.bor t a b], t, nodeTemp reuse n n2 + 1)
  | .ite x y z, n =>
    (x.lower reuse n).bind fun (c, a, n1) => (y.lower reuse n1).bind fun (d, b, n2) =>
      (z.lower reuse n2).bind fun (f, g, n3) =>
        (tempReg (nodeTemp reuse n n3)).map fun t =>
          (c ++ d ++ f ++ [.sel t a b g], t, nodeTemp reuse n n3 + 1)

/-- R195: the commands that leave an expression's word in the class-word register `x`: the root's result goes there,
and a root that is a `Bit(k)` is one `MOV`. -/
def BoolExpr.lowerInto (reuse : Bool) (x : Reg) : BoolExpr → Option (List Instr)
  | .bit k => some [Instr.mov x (basisReg k)]
  | .tru => some [.setTrue x]
  | .fls => some [.setFalse x]
  | .neg e => (e.lower reuse 8).map fun (c, a, _) => c ++ [.bnot x a]
  | .conj l r =>
    (l.lower reuse 8).bind fun (c, a, n1) => (r.lower reuse n1).map fun (d, b, _) => c ++ d ++ [.band x a b]
  | .disj l r =>
    (l.lower reuse 8).bind fun (c, a, n1) => (r.lower reuse n1).map fun (d, b, _) => c ++ d ++ [.bor x a b]
  | .ite p y z =>
    (p.lower reuse 8).bind fun (c, a, n1) => (y.lower reuse n1).bind fun (d, b, n2) =>
      (z.lower reuse n2).map fun (f, g, _) => c ++ d ++ f ++ [.sel x a b g]

/-- R117, R195: the commands of a class word, with fresh temporaries where they suffice and reused ones otherwise. -/
def classCode (x : Reg) (e : BoolExpr) : Option (List Instr) := (e.lowerInto false x) <|> (e.lowerInto true x)

/-- R170: the marker register of the worked programs (R23). -/
def markerReg : Reg := 31

/-- R170, R171: stage `i`: MSTAR for a repeating class and ADV otherwise, on carry slot `i`. -/
def stageInstr (i : Nat) (c : CharClass) (x : Reg) : Instr :=
  if c.repeating then .mstar markerReg markerReg x (Fin.ofNat 64 i) else .adv markerReg markerReg x (Fin.ofNat 64 i)

/-- R170: where class `i`'s word goes: `R20` upward while the registers below the marker suffice (R23), and otherwise
`R20` for every class, computed just before the stage that uses it. -/
def classReg (n i : Nat) : Reg := if n ≤ 11 then Fin.ofNat 32 (20 + i) else 20

/-- R170: the class words' commands, class by class. -/
def CompiledPattern.classCodes (p : CompiledPattern) : Option (List (List Instr)) :=
  allSome (p.mapIdx fun i q => classCode (classReg p.length i) q.2)

/-- R170: the stages of a pattern, class by class. -/
def CompiledPattern.stageCodes (p : CompiledPattern) : List (List Instr) :=
  p.mapIdx fun i q =>
    (if i = 0 then [Instr.mov markerReg (classReg p.length 0)] else []) ++ [stageInstr i q.1 (classReg p.length i)]

/-- R170: the per-block program of a compiled pattern: the class words first where each has a register of its own, else
each just before its stage. A pattern that one program cannot evaluate has none (I18). -/
def CompiledPattern.program (p : CompiledPattern) : Option (List Instr) :=
  if p.wf then
    p.classCodes.map fun codes =>
      let body := if p.length ≤ 11 then codes.flatten ++ p.stageCodes.flatten
        else (List.zipWith (· ++ ·) codes p.stageCodes).flatten
      [.transpose] ++ body ++ [.accpop markerReg, .halt]
  else none

/-- R170, R193: the program of a pattern given by its classes: compile each, then write the program. -/
def patternProgram (cs : List CharClass) : Option (List Instr) := (compilePattern cs).bind CompiledPattern.program

/-! The host's accesses. -/

/-- R57, R232 (1), (2): write a program at IMEM index `entry` and set `START_PC` to it. -/
def loadMoves (entry : Nat) (ws : List Cmd) : List Move :=
  (ws.mapIdx fun j w => Move.write (BitVec.ofNat 16 (0x1000 + 4 * (entry + j))) w) ++
    [.write 0x008#16 (BitVec.ofNat 32 entry)]

/-- R55: byte `i` of a block's 64-byte buffer; bytes past the block's end take the host's padding value (R173). -/
def blockByte (pad : Byte) (block : List Byte) (i : Nat) : Byte := block.getD i pad

/-- R55, R172: write a block into `IBUF`, word by word. -/
def ibufMoves (pad : Byte) (block : List Byte) : List Move :=
  (List.range 16).map fun k =>
    .write (BitVec.ofNat 16 (0x100 + 4 * k))
      (blockByte pad block (4 * k + 3) ++ blockByte pad block (4 * k + 2) ++ blockByte pad block (4 * k + 1)
        ++ blockByte pad block (4 * k))

/-- R172: the blocks of an input stream: 63 bytes each, the last perhaps shorter. The fuel is the number of blocks. -/
def blocksOf : Nat → List Byte → List (List Byte)
  | 0, _ => []
  | n + 1, s => s.take 63 :: blocksOf n (s.drop 63)

/-! The host at the block: what it does next depends on what it reads. -/

/-- The machine after the given moves, each one step of it: `none` if a step stopped (none does, R166). -/
def playMoves : List Move → State → Option State
  | [], s => some s
  | m :: ms, s =>
    match step { s with moves := [m] } with
    | .next t => playMoves ms t
    | .fault _ => none
    | .refused _ => none

/-- R51: read the word at an offset: the machine after the read, and the word. -/
def readWord (offset : BitVec 16) (s : State) : Option (State × BitVec 32) :=
  (playMoves [.read offset] s).map fun t => (t, t.hostData)

/-- R172, R217: wait until `STATUS.BUSY = 0`: poll `STATUS`, at most `fuel` times, with `pace + 1` steps of the sequencer
between two polls (R238 leaves the pace open; log entry 16). The answer is the `STATUS` that shows the run ended. -/
def awaitEnd (pace : Nat) : Nat → State → Option (State × BitVec 32)
  | 0, _ => none
  | fuel + 1, s =>
    (readWord 0x004#16 s).bind fun (s1, status) =>
      if status.getLsbD 0 then
        (playMoves (List.replicate (pace + 1) .sequencer) s1).bind fun s2 => awaitEnd pace fuel s2
      else some (s1, status)

/-- R172: `DONE = 1, FAULT = 0`, as the host checks it in the `STATUS` it read. -/
def endedByHalt (status : BitVec 32) : Bool := status.getLsbD 1 && !status.getLsbD 2

/-- R172: run one block: write it into `IBUF`, START, wait for the end. By R166 a run takes at most `IMEM_WORDS + 1`
steps, so that many polls after the first see it end. -/
def runBlock (pace : Nat) (pad : Byte) (block : List Byte) (s : State) : Option (State × BitVec 32) :=
  (playMoves (ibufMoves pad block ++ [.write 0x000#16 0x1#32]) s).bind fun s1 => awaitEnd pace (s1.imemWords + 2) s1

/-- R172: `count <- MCOUNT`, by its two halves (R54). -/
def readCount (s : State) : Option (State × Nat) :=
  (readWord 0x018#16 s).bind fun (s1, lo) => (readWord 0x01C#16 s1).map fun (s2, hi) => (s2, (hi ++ lo).toNat)

/-- R172: how the host's loop over a stream ends, with the machine as it leaves it. -/
inductive StreamEnd where
  /-- Every run ended by HALT: the match count. -/
  | counted (s : State) (count : Nat)
  /-- A run did not end with `DONE = 1, FAULT = 0`: the loop stops there, with the `STATUS` it read. -/
  | failed (s : State) (status : BitVec 32)
  deriving DecidableEq, Repr

/-- R172: the loop over the blocks of a stream, in input order, each run's end checked, then the count. -/
def blockLoop (pace : Nat) (pad : Byte) : List (List Byte) → State → Option StreamEnd
  | [], s => (readCount s).map fun (t, n) => .counted t n
  | b :: bs, s =>
    (runBlock pace pad b s).bind fun (s1, status) =>
      if endedByHalt status then blockLoop pace pad bs s1 else some (.failed s1 status)

/-- R172, R233: one input stream through the program that stands in `IMEM`: clear the carries and the counter, once per
stream, then the blocks. -/
def runStream (pace : Nat) (pad : Byte) (input : List Byte) (s : State) : Option StreamEnd :=
  (playMoves [.write 0x000#16 0x6#32] s).bind (blockLoop pace pad (blocksOf ((input.length + 62) / 63) input))

/-- R172, R232: load a pattern's program, once per pattern, then run one stream. -/
def loadAndRun (pace : Nat) (pad : Byte) (entry : Nat) (ws : List Cmd) (input : List Byte) (s : State) :
    Option StreamEnd :=
  (playMoves (loadMoves entry ws) s).bind (runStream pace pad input)

/-- R173 (b): the count of a host that adds the matches ending at the last byte of the last block, which stand in the
last stage's carry slot. -/
def endCount (s : State) (n : Nat) : Nat := s.mcount.toNat + (s.readCarry (Fin.ofNat 64 (n - 1))).toNat

end Sys2Proof
end

