-- ==== Sys2Proof/Safety.lean ====
section
/-! DEFINITION. The terms the statements use: frames, when a command runs, the invariant of the block, what a run
depends on, and a stretch of steps. -/

namespace Sys2Proof.Machine

/-! Frames. -/

/-- What no command writes (R66, R218): the storages, read unit by unit, the host's registers, the fault registers, the
block's size, the reset input, and the model's own fields. -/
def KeepsRest (s t : State) : Prop :=
  (∀ a, t.ibufByte a = s.ibufByte a) ∧ (∀ j, t.imemWord j = s.imemWord j) ∧ t.startPc = s.startPc ∧
    t.faultPc = s.faultPc ∧ t.faultInsn = s.faultInsn ∧ t.imemWords = s.imemWords ∧
    t.resetAsserted = s.resetAsserted ∧ t.moves = s.moves ∧ t.draws = s.draws ∧ t.hostData = s.hostData

/-- From `s` to `t`, no word register changes but those listed, no carry slot but those listed, and neither `MCOUNT`,
`STATUS` nor anything of `KeepsRest`. `PC` may change. -/
def ChangesOnly (regs : List Reg) (slots : List Slot) (s t : State) : Prop :=
  (∀ r, r ∉ regs → t.readReg r = s.readReg r) ∧ (∀ j, j ∉ slots → t.readCarry j = s.readCarry j) ∧
    t.mcount = s.mcount ∧ t.status = s.status ∧ KeepsRest s t

/-! Which command runs. -/

/-- The next move is the sequencer's: no host access and no reset edge is due. -/
def State.sequencerDue (s : State) : Prop := s.moves = [] ∨ ∃ rest, s.moves = .sequencer :: rest

/-- The next move is the host's write of `w` at `offset`. -/
def State.writeDue (s : State) (offset : BitVec 16) (w : BitVec 32) : Prop := ∃ rest, s.moves = .write offset w :: rest

/-- The next move asserts the reset input. -/
def State.resetDue (s : State) : Prop := ∃ rest, s.moves = .assertReset :: rest

/-- R59: the block is idle and not under reset, so that it takes every host access. -/
def State.idle (s : State) : Prop := s.status.busy = false ∧ s.resetAsserted = false

/-- R51: the offsets under 'every other offset' of the map, as byte offsets of a block of `imemWords` program words. -/
def unmappedOffset (imemWords a : Nat) : Prop :=
  (0x02C ≤ a ∧ a ≤ 0x0FF) ∨ (0x140 ≤ a ∧ a ≤ 0x1FF) ∨ (0x300 ≤ a ∧ a ≤ 0xFFF) ∨ 0x1000 + 4 * imemWords ≤ a

/-- R161: a run is in progress and the word at the `PC`, inside IMEM, is the command `i`. -/
def State.runs (s : State) (i : Instr) : Prop :=
  s.status.busy = true ∧ s.resetAsserted = false ∧ s.pc.toNat < s.imemWords ∧ decode (s.imemWord s.pc.toNat) = .ok i

/-- R25: the carry slot a command may write: the one its carry field names. -/
def carrySlot : Instr → Option Slot
  | .adv _ _ _ ck => some ck
  | .mstar _ _ _ ck => some ck
  | .addc _ _ _ ck => some ck
  | .clrc ck => some ck
  | .nop => none
  | .halt => none
  | .transpose => none
  | .setTrue _ => none
  | .setFalse _ => none
  | .band _ _ _ => none
  | .bor _ _ _ => none
  | .bxor _ _ _ => none
  | .bnot _ _ => none
  | .sel _ _ _ _ => none
  | .scanthru _ _ _ => none
  | .popc _ _ => none
  | .accpop _ => none

/-- R34: the carry slot a command reads: ADV, MSTAR and ADDC read the one they name. -/
def readsSlot : Instr → Option Slot
  | .adv _ _ _ ck => some ck
  | .mstar _ _ _ ck => some ck
  | .addc _ _ _ ck => some ck
  | .clrc _ => none
  | .nop => none
  | .halt => none
  | .transpose => none
  | .setTrue _ => none
  | .setFalse _ => none
  | .band _ _ _ => none
  | .bor _ _ _ => none
  | .bxor _ _ _ => none
  | .bnot _ _ => none
  | .sel _ _ _ _ => none
  | .scanthru _ _ _ => none
  | .popc _ _ => none
  | .accpop _ => none

/-! The invariant of the block. -/

/-- R31, R210: at most one of BUSY, DONE and FAULT is 1, and `CAUSE` is 0 exactly when FAULT is 0. -/
def Status.legal (st : Status) : Prop :=
  ¬(st.busy = true ∧ st.done = true) ∧ ¬(st.busy = true ∧ st.fault = true) ∧ ¬(st.done = true ∧ st.fault = true) ∧
    (st.cause = .none ↔ st.fault = false)

/-- What every step keeps. -/
structure State.Inv (s : State) : Prop where
  /-- R21: bit 63 of every word register reads as 0. -/
  headroom : ∀ r, (s.readReg r).getLsbD 63 = false
  /-- R27, R50: IBUF lists bytes 0..63 only, in the canonical form. -/
  ibufWf : Memory.wf Config.ibufBytes s.ibuf = true
  /-- R28, R50: IMEM lists words 0..IMEM_WORDS-1 only, in the canonical form. -/
  imemWf : Memory.wf s.imemWords s.imem = true
  /-- R31. -/
  status : s.status.legal
  /-- R28: `IMEM_WORDS` is in 1..1024. -/
  size : 1 ≤ s.imemWords ∧ s.imemWords ≤ Config.imemWordsMax
  /-- R230: while reset is asserted every piece of state holds its reset value. -/
  held : s.resetAsserted = true → s = s.applyReset

/-! What a run depends on. -/

/-- A state without what belongs to the host and the model: `HOST_CONFLICT`, the moves to come, the count of free values
and the host's latest read. -/
def State.runView (s : State) : State :=
  { s with status := { s.status with hostConflict := false }, moves := [], draws := 0, hostData := 0#32 }

/-- A host access (R51), as against a reset edge or a sequencer step. -/
def Move.isAccess : Move → Bool
  | .read _ => true
  | .write _ _ => true
  | .sequencer => false
  | .assertReset => false
  | .releaseReset => false

/-! Stretches of steps. -/

/-- `k` steps of the machine. -/
abbrev runFor (k : Nat) (s : State) : Host.Outcome State Fault Refusal := Host.Core.run core k s

/-! The run semantics of MSTAR (R132). -/

/-- Every position from `lo` up to but not including `hi` is in the class. -/
def classRun (cc : Word) (lo hi : Nat) : Prop := ∀ k, lo ≤ k → k < hi → cc.getLsbD k = true

/-- R132: position `p` is reached from a marker in a run of the class that ends just before `p`, or from the carry-in
through a run that starts at position 0. -/
def mstarReaches (m cc : Word) (cin : Bool) (p : Nat) : Prop :=
  (cin = true ∧ classRun cc 0 p) ∨ ∃ i, i < p ∧ m.getLsbD i = true ∧ classRun cc i p

end Sys2Proof.Machine
end

