-- ==== Sys2Proof/Certificates/Slice0/Obligations.lean ====
section
/-! DEFINITION. The statements about the block, from the spec's numbered rules. A statement about a command says where
it completes (`exec i s` answers a next state), what it computes, and its frame. -/

open Sys2Proof Sys2Proof.Machine

/-! Encoding. -/

/-- R90: the spec's worked encodings, both ways. A sanity statement. -/
def Obligations.WorkedEncodingsDecode : Prop :=
  (encode (.band 9 0 8) = 0x19204000#32 ∧ decode 0x19204000#32 = .ok (.band 9 0 8)) ∧
  (encode (.mstar 31 31 21 1) = 0x33FFA820#32 ∧ decode 0x33FFA820#32 = .ok (.mstar 31 31 21 1)) ∧
  (encode (.accpop 31) = 0x401F0000#32 ∧ decode 0x401F0000#32 = .ok (.accpop 31)) ∧
  (encode (.clrc 5) = 0x440000A0#32 ∧ decode 0x440000A0#32 = .ok (.clrc 5)) ∧
  (encode .halt = 0x08000000#32 ∧ decode 0x08000000#32 = .ok .halt)

/-- R81, R82, R85: decoding the encoding of any command gives it back, with every operand at every value. -/
def Obligations.DecodeInvertsEncode : Prop := ∀ i : Instr, decode (encode i) = .ok i

/-- R85, R88: a legal word is the encoding of the one command it decodes to: no bit of a legal word is ignored. -/
def Obligations.DecodedWordIsItsEncoding : Prop := ∀ (w : Cmd) (i : Instr), decode w = .ok i → encode i = w

/-- R85, R88: the decoder agrees with the opcode map: a word is the command of a row exactly when
`(w & mask) == match`, with the row's `match` and `mask` as R85 computes them; at most one row matches; and a word that
no row matches is rejected. -/
def Obligations.DecodeFollowsOpcodeMap : Prop :=
  (∀ r ∈ opcodeTable, r.pattern = r.opc.setWidth 32 <<< 26 ∧ r.mask = 0xFC000000#32 ||| r.format.reserved) ∧
  (∀ (w : Cmd), ∀ r ∈ opcodeTable, w &&& r.mask = r.pattern ↔ ∃ i, decode w = .ok i ∧ i.op = r.op) ∧
  (∀ (w : Cmd), ∀ r ∈ opcodeTable, ∀ r' ∈ opcodeTable, w &&& r.mask = r.pattern → w &&& r'.mask = r'.pattern → r = r') ∧
  (∀ (w : Cmd), (∀ r ∈ opcodeTable, w &&& r.mask ≠ r.pattern) → ∃ why, decode w = .error why)

/-- R87: a word is illegal exactly when its `OPC` is `0x00` or in `0x12..0x3F`, or a reserved bit of its format is 1;
the all-zero word is illegal; and fetching an illegal word raises `Fault(ILLEGAL_INSTRUCTION, PC, w)` and executes
nothing. -/
def Obligations.IllegalWordFaults : Prop :=
  (∀ (w : Cmd), (∃ why, decode w = .error why) ↔
    (opcOf w = 0x00 ∨ 0x12 ≤ opcOf w ∨ ∃ r ∈ opcodeTable, r.opc.toNat = opcOf w ∧ w &&& r.format.reserved ≠ 0#32)) ∧
  (∃ why, decode 0x00000000#32 = .error why) ∧
  (∀ (s : State) (why : Illegal), s.moves = [] → s.status.busy = true → s.resetAsserted = false →
    s.pc.toNat < s.imemWords → decode (s.imemWord s.pc.toNat) = .error why →
    ∃ t, step s = .next t ∧
      t.status = { busy := false, done := false, fault := true, hostConflict := s.status.hostConflict,
                   cause := .illegalInstruction } ∧
      t.faultPc = s.pc ∧ t.faultInsn = s.imemWord s.pc.toNat ∧ t.pc = s.pc ∧
      t = { s with status := t.status, faultPc := t.faultPc, faultInsn := t.faultInsn })

/-- R89: assembling the text a command is printed as gives the command back. -/
def Obligations.AssembleInvertsPrint : Prop := ∀ i : Instr, assembleLine i.text = some i

/-! The commands. -/

/-- R164, NOP: `pc <- pc + 1` and nothing else, for the word `0x0400_0000`. -/
def Obligations.NopOnlyAdvances : Prop :=
  encode .nop = 0x04000000#32 ∧
  ∀ s : State, ∃ t, exec .nop s = .next t ∧ t.pc = s.pc + 1#32 ∧ ChangesOnly [] [] s t

/-- R165, HALT: BUSY to 0, DONE to 1; the `PC` keeps the index of the HALT, and no register, carry, counter or anything
else changes. -/
def Obligations.HaltEndsRun : Prop :=
  encode .halt = 0x08000000#32 ∧
  ∀ s : State, ∃ t, exec .halt s = .next t ∧ t.status.busy = false ∧ t.status.done = true ∧
    t.status.fault = s.status.fault ∧ t.status.hostConflict = s.status.hostConflict ∧ t.status.cause = s.status.cause ∧
    t.pc = s.pc ∧ (∀ r, t.readReg r = s.readReg r) ∧ (∀ j, t.readCarry j = s.readCarry j) ∧ t.mcount = s.mcount ∧
    KeepsRest s t

/-- R100, TRANSPOSE: after it `R[p][i] = IBUF[i][p]` for `p` in 0..7 and `i` in 0..62, and `R[p][63] = 0`; no other
register, no carry and no counter changes; it reads nothing but IBUF bytes 0..62. -/
def Obligations.TransposePlanes : Prop :=
  encode .transpose = 0x0C000000#32 ∧
  (∀ s : State, ∃ t, exec .transpose s = .next t ∧
    (∀ (p : Fin 8) (i : Nat), i < 63 → (t.readReg (basisReg p)).getLsbD i = (s.ibufByte i).getLsbD p.val) ∧
    (∀ p : Fin 8, (t.readReg (basisReg p)).getLsbD 63 = false) ∧
    t.pc = s.pc + 1#32 ∧ ChangesOnly [0, 1, 2, 3, 4, 5, 6, 7] [] s t) ∧
  (∀ s s' t t' : State, (∀ i, i < 63 → s'.ibufByte i = s.ibufByte i) → exec .transpose s = .next t →
    exec .transpose s' = .next t' → ∀ p : Fin 8, t'.readReg (basisReg p) = t.readReg (basisReg p))

/-- R101: transposition loses no bit of the 63 payload bytes: each byte is the sum of its planes' bits. -/
def Obligations.TransposeLosesNoBit : Prop :=
  ∀ (s : State) (i : Nat), i < 63 → ∃ t, exec .transpose s = .next t ∧
    (s.ibufByte i).toNat =
      ((List.finRange 8).map (fun p => ((t.readReg (basisReg p)).getLsbD i).toNat * 2 ^ p.val)).sum

/-- R110, R111, TRUE and FALSE: the all-ones payload with bit 63 clear, and 0. -/
def Obligations.TrueAndFalseConstants : Prop :=
  ∀ (rd : Reg) (s : State),
    (encode (.setTrue rd) = 0x04#6 ++ BitVec.ofNat 5 rd.val ++ 0#21 ∧
      ∃ t, exec (.setTrue rd) s = .next t ∧ t.readReg rd = 0x7FFFFFFFFFFFFFFF#64 ∧ t.pc = s.pc + 1#32 ∧
        ChangesOnly [rd] [] s t) ∧
    (encode (.setFalse rd) = 0x05#6 ++ BitVec.ofNat 5 rd.val ++ 0#21 ∧
      ∃ t, exec (.setFalse rd) s = .next t ∧ t.readReg rd = 0x0000000000000000#64 ∧ t.pc = s.pc + 1#32 ∧
        ChangesOnly [rd] [] s t)

/-- R112, R113, R114, AND, OR and XOR: bit by bit of the payload, bit 63 clear. -/
def Obligations.AndOrXorBitwise : Prop :=
  ∀ (rd ra rb : Reg) (s : State),
    (encode (.band rd ra rb) = 0x06#6 ++ BitVec.ofNat 5 rd.val ++ BitVec.ofNat 5 ra.val ++ BitVec.ofNat 5 rb.val ++ 0#11 ∧
      ∃ t, exec (.band rd ra rb) s = .next t ∧
        (∀ k, (t.readReg rd).getLsbD k =
          (decide (k < 63) && ((s.readReg ra).getLsbD k && (s.readReg rb).getLsbD k))) ∧
        t.pc = s.pc + 1#32 ∧ ChangesOnly [rd] [] s t) ∧
    (encode (.bor rd ra rb) = 0x07#6 ++ BitVec.ofNat 5 rd.val ++ BitVec.ofNat 5 ra.val ++ BitVec.ofNat 5 rb.val ++ 0#11 ∧
      ∃ t, exec (.bor rd ra rb) s = .next t ∧
        (∀ k, (t.readReg rd).getLsbD k =
          (decide (k < 63) && ((s.readReg ra).getLsbD k || (s.readReg rb).getLsbD k))) ∧
        t.pc = s.pc + 1#32 ∧ ChangesOnly [rd] [] s t) ∧
    (encode (.bxor rd ra rb) = 0x08#6 ++ BitVec.ofNat 5 rd.val ++ BitVec.ofNat 5 ra.val ++ BitVec.ofNat 5 rb.val ++ 0#11 ∧
      ∃ t, exec (.bxor rd ra rb) s = .next t ∧
        (∀ k, (t.readReg rd).getLsbD k =
          (decide (k < 63) && ((s.readReg ra).getLsbD k ^^ (s.readReg rb).getLsbD k))) ∧
        t.pc = s.pc + 1#32 ∧ ChangesOnly [rd] [] s t)

/-- R115, NOT: the complement of the payload, bit 63 clear. -/
def Obligations.NotComplementsPayload : Prop :=
  ∀ (rd ra : Reg) (s : State),
    encode (.bnot rd ra) = 0x09#6 ++ BitVec.ofNat 5 rd.val ++ BitVec.ofNat 5 ra.val ++ 0#16 ∧
    ∃ t, exec (.bnot rd ra) s = .next t ∧
      (∀ k, (t.readReg rd).getLsbD k = (decide (k < 63) && !(s.readReg ra).getLsbD k)) ∧
      t.pc = s.pc + 1#32 ∧ ChangesOnly [rd] [] s t

/-- R116, SEL: per bit position the `then` bit where the condition is 1 and the `else` bit where it is 0. -/
def Obligations.SelChoosesBitwise : Prop :=
  ∀ (rd rcond rthen relse : Reg) (s : State),
    encode (.sel rd rcond rthen relse) = 0x0A#6 ++ BitVec.ofNat 5 rd.val ++ BitVec.ofNat 5 rcond.val ++
      BitVec.ofNat 5 rthen.val ++ BitVec.ofNat 5 relse.val ++ 0#6 ∧
    ∃ t, exec (.sel rd rcond rthen relse) s = .next t ∧
      (∀ k, (t.readReg rd).getLsbD k = (decide (k < 63) &&
        (if (s.readReg rcond).getLsbD k then (s.readReg rthen).getLsbD k else (s.readReg relse).getLsbD k))) ∧
      t.pc = s.pc + 1#32 ∧ ChangesOnly [rd] [] s t

/-- R131, ADV: the masked marker moved one position later with the carry-in at position 0; the carry-out is bit 62 of
`m & cc`. -/
def Obligations.AdvShiftsWithCarry : Prop :=
  ∀ (rd rm rcc : Reg) (ck : Slot) (s : State),
    encode (.adv rd rm rcc ck) = 0x0B#6 ++ BitVec.ofNat 5 rd.val ++ BitVec.ofNat 5 rm.val ++ BitVec.ofNat 5 rcc.val ++
      BitVec.ofNat 6 ck.val ++ 0#5 ∧
    ∃ t, exec (.adv rd rm rcc ck) s = .next t ∧
      (t.readReg rd).getLsbD 0 = s.readCarry ck ∧
      (∀ k, k < 62 → (t.readReg rd).getLsbD (k + 1) = ((s.readReg rm).getLsbD k && (s.readReg rcc).getLsbD k)) ∧
      (t.readReg rd).getLsbD 63 = false ∧
      t.readCarry ck = ((s.readReg rm).getLsbD 62 && (s.readReg rcc).getLsbD 62) ∧
      t.pc = s.pc + 1#32 ∧ ChangesOnly [rd] [ck] s t

/-- R132, MSTAR: with `t = (m & cc) + cc + cin` exact, the register takes the payload of `(t ^ cc) | m` and the slot
takes `t[63]`. -/
def Obligations.MstarSumAndCarry : Prop :=
  ∀ (rd rm rcc : Reg) (ck : Slot) (s : State),
    encode (.mstar rd rm rcc ck) = 0x0C#6 ++ BitVec.ofNat 5 rd.val ++ BitVec.ofNat 5 rm.val ++ BitVec.ofNat 5 rcc.val ++
      BitVec.ofNat 6 ck.val ++ 0#5 ∧
    ∃ t sum, exec (.mstar rd rm rcc ck) s = .next t ∧
      sum = (s.readReg rm &&& s.readReg rcc).toNat + (s.readReg rcc).toNat + (s.readCarry ck).toNat ∧
      (∀ k, (t.readReg rd).getLsbD k = (decide (k < 63) &&
        ((sum.testBit k ^^ (s.readReg rcc).getLsbD k) || (s.readReg rm).getLsbD k))) ∧
      t.readCarry ck = sum.testBit 63 ∧
      t.pc = s.pc + 1#32 ∧ ChangesOnly [rd] [ck] s t

/-- R132: MSTAR is the Kleene closure of one class: a payload position is marked after it exactly when it was marked
before, or is reached from a marker (or the carry-in) through a run of the class that ends just before it; the carry-out
says the same of position 63, the first of the next block. It rests on bit 63 of the class word being 0 (R21). -/
def Obligations.MstarIsKleeneClosure : Prop :=
  ∀ (rd rm rcc : Reg) (ck : Slot) (s : State), (s.readReg rcc).getLsbD 63 = false →
    ∃ t, exec (.mstar rd rm rcc ck) s = .next t ∧
      (∀ p, p < 63 → ((t.readReg rd).getLsbD p = true ↔
        (s.readReg rm).getLsbD p = true ∨ mstarReaches (s.readReg rm) (s.readReg rcc) (s.readCarry ck) p)) ∧
      (t.readCarry ck = true ↔ mstarReaches (s.readReg rm) (s.readReg rcc) (s.readCarry ck) 63)

/-- R133, SCANTHRU: with `t = m + cc` exact, the register takes the payload of `t & ~cc`; no carry is read or written. -/
def Obligations.ScanthruSum : Prop :=
  ∀ (rd rm rcc : Reg) (s : State),
    encode (.scanthru rd rm rcc) = 0x0D#6 ++ BitVec.ofNat 5 rd.val ++ BitVec.ofNat 5 rm.val ++ BitVec.ofNat 5 rcc.val ++
      0#11 ∧
    (∃ t sum, exec (.scanthru rd rm rcc) s = .next t ∧ sum = (s.readReg rm).toNat + (s.readReg rcc).toNat ∧
      (∀ k, (t.readReg rd).getLsbD k = (decide (k < 63) && (sum.testBit k && !(s.readReg rcc).getLsbD k))) ∧
      t.pc = s.pc + 1#32 ∧ ChangesOnly [rd] [] s t) ∧
    (∀ s' t t' : State, s'.readReg rm = s.readReg rm → s'.readReg rcc = s.readReg rcc →
      exec (.scanthru rd rm rcc) s = .next t → exec (.scanthru rd rm rcc) s' = .next t' →
      t'.readReg rd = t.readReg rd)

/-- R130, ADDC: with `t = a + b + cin` exact, the slot takes `t[63]` and the register takes `t & MASK63`. -/
def Obligations.AddcSumAndCarry : Prop :=
  ∀ (rd ra rb : Reg) (ck : Slot) (s : State),
    encode (.addc rd ra rb ck) = 0x0E#6 ++ BitVec.ofNat 5 rd.val ++ BitVec.ofNat 5 ra.val ++ BitVec.ofNat 5 rb.val ++
      BitVec.ofNat 6 ck.val ++ 0#5 ∧
    ∃ t sum, exec (.addc rd ra rb ck) s = .next t ∧
      sum = (s.readReg ra).toNat + (s.readReg rb).toNat + (s.readCarry ck).toNat ∧
      (t.readReg rd).toNat = sum % 2 ^ 63 ∧ t.readCarry ck = sum.testBit 63 ∧
      t.pc = s.pc + 1#32 ∧ ChangesOnly [rd] [ck] s t

/-- R135, R130: in a state of the invariant ADDC loses nothing: the register and the carry-out together are the exact
sum, which is below `2^64`. -/
def Obligations.AddcIsExact : Prop :=
  ∀ (rd ra rb : Reg) (ck : Slot) (s : State), s.Inv →
    ∃ t, exec (.addc rd ra rb ck) s = .next t ∧
      (t.readReg rd).toNat + 2 ^ 63 * (t.readCarry ck).toNat =
        (s.readReg ra).toNat + (s.readReg rb).toNat + (s.readCarry ck).toNat ∧
      (s.readReg ra).toNat + (s.readReg rb).toNat + (s.readCarry ck).toNat < 2 ^ 64

/-- R135, R132, R133: in a state of the invariant the sums of MSTAR and SCANTHRU are exact too and below `2^64`: MSTAR's
carry-out is 1 exactly when its sum reaches `2^63`, its register holds what is left of the sum below `2^63`, combined as
R132 says, and SCANTHRU discards what its sum has from `2^63` up. -/
def Obligations.MstarScanthruSumsAreExact : Prop :=
  ∀ (rd rm rcc : Reg) (ck : Slot) (s : State), s.Inv →
    (∃ t sum, exec (.mstar rd rm rcc ck) s = .next t ∧
      sum = (s.readReg rm &&& s.readReg rcc).toNat + (s.readReg rcc).toNat + (s.readCarry ck).toNat ∧ sum < 2 ^ 64 ∧
      t.readCarry ck = decide (2 ^ 63 ≤ sum) ∧
      t.readReg rd = (BitVec.ofNat 64 (sum % 2 ^ 63) ^^^ s.readReg rcc) ||| s.readReg rm) ∧
    (∃ t sum, exec (.scanthru rd rm rcc) s = .next t ∧ sum = (s.readReg rm).toNat + (s.readReg rcc).toNat ∧
      sum < 2 ^ 64 ∧ t.readReg rd = BitVec.ofNat 64 (sum % 2 ^ 63) &&& ~~~(s.readReg rcc) ∧ t.carry = s.carry)

/-- R134, CLRC: `C[CI] <- 0`; no register and no other slot changes. -/
def Obligations.ClrcClearsOneSlot : Prop :=
  ∀ (ck : Slot) (s : State),
    encode (.clrc ck) = 0x11#6 ++ 0#15 ++ BitVec.ofNat 6 ck.val ++ 0#5 ∧
    ∃ t, exec (.clrc ck) s = .next t ∧ t.readCarry ck = false ∧ t.pc = s.pc + 1#32 ∧ ChangesOnly [] [ck] s t

/-- R150, POPC: the register takes the number of 1 bits of the source, which is at most 63 when bit 63 is 0. -/
def Obligations.PopcCountsOnes : Prop :=
  ∀ (rd ra : Reg) (s : State),
    encode (.popc rd ra) = 0x0F#6 ++ BitVec.ofNat 5 rd.val ++ BitVec.ofNat 5 ra.val ++ 0#16 ∧
    ∃ t, exec (.popc rd ra) s = .next t ∧
      (t.readReg rd).toNat = ((List.range 64).filter (fun k => (s.readReg ra).getLsbD k)).length ∧
      ((s.readReg ra).getLsbD 63 = false → (t.readReg rd).toNat ≤ 63) ∧
      t.pc = s.pc + 1#32 ∧ ChangesOnly [rd] [] s t

/-- R151, ACCPOP: `MCOUNT` grows by the number of 1 bits of the source modulo `2^64`; no register and no carry changes;
and no step but an ACCPOP, a `CTRL.CLR_COUNT` and reset changes `MCOUNT`: it keeps its value across runs. -/
def Obligations.AccpopAddsToMcount : Prop :=
  (∀ (ra : Reg) (s : State),
    encode (.accpop ra) = 0x10#6 ++ 0#5 ++ BitVec.ofNat 5 ra.val ++ 0#16 ∧
    ∃ t, exec (.accpop ra) s = .next t ∧
      t.mcount.toNat =
        (s.mcount.toNat + ((List.range 64).filter (fun k => (s.readReg ra).getLsbD k)).length) % 2 ^ 64 ∧
      t.pc = s.pc + 1#32 ∧ (∀ r, t.readReg r = s.readReg r) ∧ (∀ j, t.readCarry j = s.readCarry j) ∧
      t.status = s.status ∧ KeepsRest s t) ∧
  (∀ (s t : State), step s = .next t → t.mcount ≠ s.mcount →
    (s.sequencerDue ∧ ∃ ra, s.runs (.accpop ra)) ∨ s.resetDue ∨
    (∃ offset w, s.writeDue offset w ∧ s.idle ∧ s.locOf offset = .ctrl ∧ w.getLsbD 2 = true))

/-! Rules over all commands. -/

/-- R163: every command except HALT ends with `PC <- PC + 1`. -/
def Obligations.EveryCommandAdvancesPc : Prop :=
  ∀ (i : Instr) (s : State), i ≠ .halt → ∃ t, exec i s = .next t ∧ t.pc = s.pc + 1#32

/-- R218, R66: whatever the command, it completes, and what it can reach is the word registers, the carry bits, `MCOUNT`,
the `PC` and (HALT) `STATUS.BUSY` and `STATUS.DONE`: it writes neither IBUF nor IMEM nor any register of the host's. -/
def Obligations.CommandsReachOnlyData : Prop :=
  ∀ (i : Instr) (s : State), ∃ t, exec i s = .next t ∧ KeepsRest s t ∧ t.status.fault = s.status.fault ∧
    t.status.hostConflict = s.status.hostConflict ∧ t.status.cause = s.status.cause ∧
    (i ≠ .halt → t.status = s.status)

/-- R34: whatever the command, no carry bit changes but the one its carry field names; and no command reads a carry bit
but ADV, MSTAR and ADDC, which read the one they name: from two states that differ only in carry bits the command does
not read, it leads to two states that differ only in carry bits, and the slot it writes holds the same value in both. -/
def Obligations.CommandsUseOnlyNamedCarry : Prop :=
  (∀ (i : Instr) (s : State), ∃ t, exec i s = .next t ∧
    ∀ j : Slot, carrySlot i ≠ some j → t.readCarry j = s.readCarry j) ∧
  (∀ (i : Instr) (s : State) (c : BitVec 64), (∀ j : Slot, readsSlot i = some j → c.getLsbD j.val = s.readCarry j) →
    ∃ t u, exec i s = .next t ∧ exec i { s with carry := c } = .next u ∧ u = { t with carry := u.carry } ∧
      ∀ j : Slot, carrySlot i = some j → u.readCarry j = t.readCarry j)

/-- R25: no command other than ADV, MSTAR, ADDC and CLRC, and no event other than reset, host writes to
`CARRY_LO`/`CARRY_HI` and `CTRL.CLR_CARRY`, changes a carry bit. -/
def Obligations.CarryChangesOnlyByRule : Prop :=
  ∀ (s t : State) (j : Slot), step s = .next t → t.readCarry j ≠ s.readCarry j →
    (s.sequencerDue ∧ ∃ i, s.runs i ∧ carrySlot i = some j) ∨ s.resetDue ∨
    (∃ offset w, s.writeDue offset w ∧ s.idle ∧
      (s.locOf offset = .carryLo ∧ j.val < 32 ∨ s.locOf offset = .carryHi ∧ 32 ≤ j.val ∨
        s.locOf offset = .ctrl ∧ w.getLsbD 1 = true))

/-- R28, R66: a word of IMEM changes only by a host write to it while the block is idle, and by reset. From a state of the
invariant, whose IMEM is in the canonical form. -/
def Obligations.ImemChangesOnlyByRule : Prop :=
  ∀ (s t : State) (j : Nat), s.Inv → step s = .next t → t.imemWord j ≠ s.imemWord j →
    s.resetDue ∨ (∃ offset w, s.writeDue offset w ∧ s.idle ∧ s.locOf offset = .imem j ∧ t.imemWord j = w)

/-! The sequencer. -/

/-- R161: when the word at the `PC` decodes to a command, a step is that command's meaning at that state. -/
def Obligations.StepRunsDecodedCommand : Prop :=
  ∀ (s : State) (i : Instr), s.moves = [] → s.status.busy = true → s.resetAsserted = false →
    s.pc.toNat < s.imemWords → decode (s.imemWord s.pc.toNat) = .ok i → step s = exec i s

/-- R210, R211: the two faults and fault entry. A fetch at `PC >= IMEM_WORDS` raises cause 2 with `FAULT_INSN` 0, and an
illegal word raises cause 1 with the word: BUSY to 0, FAULT to 1, DONE to 0, the cause and `FAULT_PC` recorded, the `PC`
unchanged, and nothing else changes. No other step sets FAULT. -/
def Obligations.FaultCausesAndEntry : Prop :=
  (∀ s : State, s.moves = [] → s.status.busy = true → s.resetAsserted = false → s.imemWords ≤ s.pc.toNat →
    ∃ t, step s = .next t ∧
      t.status = { busy := false, done := false, fault := true, hostConflict := s.status.hostConflict,
                   cause := .fetchRange } ∧
      t.status.cause.code = 2#4 ∧ t.faultPc = s.pc ∧ t.faultInsn = 0#32 ∧ t.pc = s.pc ∧
      t = { s with status := t.status, faultPc := t.faultPc, faultInsn := t.faultInsn }) ∧
  (∀ (s : State) (why : Illegal), s.moves = [] → s.status.busy = true → s.resetAsserted = false →
    s.pc.toNat < s.imemWords → decode (s.imemWord s.pc.toNat) = .error why →
    ∃ t, step s = .next t ∧
      t.status = { busy := false, done := false, fault := true, hostConflict := s.status.hostConflict,
                   cause := .illegalInstruction } ∧
      t.status.cause.code = 1#4 ∧ t.faultPc = s.pc ∧ t.faultInsn = s.imemWord s.pc.toNat ∧ t.pc = s.pc ∧
      t = { s with status := t.status, faultPc := t.faultPc, faultInsn := t.faultInsn }) ∧
  (∀ s t : State, step s = .next t → s.status.fault = false → t.status.fault = true →
    s.sequencerDue ∧ s.status.busy = true ∧ s.resetAsserted = false ∧
      (s.imemWords ≤ s.pc.toNat ∨ ∃ why, decode (s.imemWord s.pc.toNat) = .error why))

/-- R223, R231: while the block is idle the sequencer holds the state, and only a START begins a run: a step that sets
BUSY is a host write of `CTRL` with bit 0 set. -/
def Obligations.OnlyStartBeginsRun : Prop :=
  (∀ s : State, s.status.busy = false → s.moves = [] → step s = .next s) ∧
  (∀ s t : State, step s = .next t → s.status.busy = false → t.status.busy = true →
    ∃ offset w, s.writeDue offset w ∧ s.locOf offset = .ctrl ∧ w.getLsbD 0 = true)

/-- R166: every run ends: a run begun by START from a state of the invariant ends, by HALT or by a fault, after at most
`max(0, IMEM_WORDS - START_PC) + 1` steps of the sequencer, whatever IMEM holds. -/
def Obligations.EveryRunEnds : Prop :=
  ∀ (s : State) (w : BitVec 32), s.Inv → s.idle → s.moves = [.write 0x000#16 w] → w.getLsbD 0 = true →
    ∃ k t, 1 ≤ k ∧ k ≤ s.imemWords - s.startPc.toNat + 1 ∧ runFor (1 + k) s = .next t ∧
      t.status.busy = false ∧ (t.status.done = true ∨ t.status.fault = true)

/-- R166, R210: the block has no hang, no wait state and no stuck state: from every state a step answers a next state,
and a step of the sequencer while a run is in progress either adds 1 to the `PC` and the run goes on, or ends the run, by
HALT or by a fault, with the `PC` kept. That a fault of the block is a next state of the model, and that an idle block's
step is one, are log entries 11 and 1. -/
def Obligations.BlockNeverHangs : Prop :=
  (∀ s : State, ∃ t, step s = .next t) ∧
  (∀ s : State, s.sequencerDue → s.status.busy = true → s.resetAsserted = false →
    ∃ t, step s = .next t ∧
      ((t.status.busy = true ∧ t.pc = s.pc + 1#32) ∨
        (t.status.busy = false ∧ (t.status.done = true ∨ t.status.fault = true) ∧ t.pc = s.pc)))

/-! The invariant. -/

/-- R230, R21, R31: the invariant holds right after reset, for every size of program memory from 1 to 1024. -/
def Obligations.ResetMeetsInvariant : Prop :=
  State.reset.Inv ∧ ∀ n, 1 ≤ n → n ≤ 1024 → (State.resetOf n).Inv

/-- R21, R31, R210, R28: every step keeps the invariant: bit 63 of every register is 0, both memories keep the
canonical form inside their bounds, at most one of BUSY, DONE and FAULT is 1 and `CAUSE` goes with FAULT, `IMEM_WORDS` is
in 1..1024, and under reset every piece of state holds its reset value. -/
def Obligations.StepKeepsInvariant : Prop := ∀ s t : State, s.Inv → step s = .next t → t.Inv

/-! The host. -/

/-- R160: START: a host write of `CTRL` with bit 0 set while idle begins a run at `START_PC` after any clearing of the
same write, and nothing else changes; while BUSY it has no effect but `HOST_CONFLICT`. -/
def Obligations.StartBeginsRunAtStartPc : Prop :=
  (∀ (s : State) (w : BitVec 32) (rest : List Move), s.idle → w.getLsbD 0 = true →
    ∃ t, step { s with moves := .write 0x000#16 w :: rest } = .next t ∧
      t.status = { busy := true, done := false, fault := false, hostConflict := s.status.hostConflict, cause := .none } ∧
      t.pc = s.startPc ∧
      t.carry = (if w.getLsbD 1 then 0#64 else s.carry) ∧ t.mcount = (if w.getLsbD 2 then 0#64 else s.mcount) ∧
      t = { s with status := t.status, pc := t.pc, carry := t.carry, mcount := t.mcount, moves := rest }) ∧
  (∀ (s : State) (w : BitVec 32) (rest : List Move), s.status.busy = true → s.resetAsserted = false →
    step { s with moves := .write 0x000#16 w :: rest } =
      .next { s with status := { s.status with hostConflict := true }, moves := rest })

/-- R30: `CTRL`: a write while idle clears every carry when bit 1 is set and `MCOUNT` when bit 2 is set, then begins a
run at `START_PC` when bit 0 is set; every other bit is ignored and a write of 0 does nothing; a write while BUSY has no
effect but `HOST_CONFLICT`; and a read while idle returns 0 (a read during a run: `CtrlReadsZeroDuringRun`). -/
def Obligations.CtrlStrobes : Prop :=
  (∀ (s : State) (w : BitVec 32) (rest : List Move), s.idle →
    ∃ t, step { s with moves := .write 0x000#16 w :: rest } = .next t ∧
      (∀ j, t.readCarry j = (s.readCarry j && !w.getLsbD 1)) ∧ t.mcount = (if w.getLsbD 2 then 0#64 else s.mcount) ∧
      (w.getLsbD 0 = true → t.status.busy = true ∧ t.pc = s.startPc ∧
        t = { s with carry := t.carry, mcount := t.mcount, status := t.status, pc := t.pc, moves := rest }) ∧
      (w.getLsbD 0 = false → t = { s with carry := t.carry, mcount := t.mcount, moves := rest })) ∧
  (∀ (s : State) (w : BitVec 32) (rest : List Move), s.status.busy = true → s.resetAsserted = false →
    step { s with moves := .write 0x000#16 w :: rest } =
      .next { s with status := { s.status with hostConflict := true }, moves := rest }) ∧
  (∀ (s : State) (rest : List Move), s.idle →
    ∃ t, step { s with moves := .read 0x000#16 :: rest } = .next t ∧ t.hostData = 0#32)

/-- A read of `CTRL` during a run returns 0 and changes nothing. THE MODEL'S CHOICE, log entry 5 (DEDUCED): R30 and R58
say without a condition that a read of `CTRL` returns 0, and R59's two lists of reads while BUSY leave `CTRL` out. -/
def Obligations.CtrlReadsZeroDuringRun : Prop :=
  ∀ (s : State) (rest : List Move), s.status.busy = true → s.resetAsserted = false →
    step { s with moves := .read 0x000#16 :: rest } = .next { s with hostData := 0#32, moves := rest }

/-- R31: `STATUS` as the host reads it, field by field, the reserved bits 0, at any time but under reset; and a write of
it, accepted while BUSY too, clears `HOST_CONFLICT` when bit 3 is 1 and does nothing else. -/
def Obligations.StatusReadAndWrite : Prop :=
  (∀ (s : State) (rest : List Move), s.resetAsserted = false →
    ∃ t, step { s with moves := .read 0x004#16 :: rest } = .next t ∧
      t.hostData.getLsbD 0 = s.status.busy ∧ t.hostData.getLsbD 1 = s.status.done ∧
      t.hostData.getLsbD 2 = s.status.fault ∧ t.hostData.getLsbD 3 = s.status.hostConflict ∧
      t.hostData.extractLsb' 4 4 = 0#4 ∧ t.hostData.extractLsb' 8 4 = s.status.cause.code ∧
      t.hostData.extractLsb' 12 20 = 0#20) ∧
  (∀ (s : State) (w : BitVec 32) (rest : List Move), s.resetAsserted = false →
    ∃ t, step { s with moves := .write 0x004#16 w :: rest } = .next t ∧
      t.status.hostConflict = (s.status.hostConflict && !w.getLsbD 3) ∧
      t = { s with status := { s.status with hostConflict := t.status.hostConflict }, moves := rest })

/-- R32, R29, R26, R25, R51: what a read of the other control registers returns while idle: `START_PC`, `PC`, `FAULT_PC`,
`FAULT_INSN`, the halves of `MCOUNT` and the carry bits, each at its offset. -/
def Obligations.ControlRegisterReads : Prop :=
  ∀ (s : State) (rest : List Move), s.idle →
    (∃ t, step { s with moves := .read 0x008#16 :: rest } = .next t ∧ t.hostData = s.startPc) ∧
    (∃ t, step { s with moves := .read 0x00C#16 :: rest } = .next t ∧ t.hostData = s.pc) ∧
    (∃ t, step { s with moves := .read 0x010#16 :: rest } = .next t ∧ t.hostData = s.faultPc) ∧
    (∃ t, step { s with moves := .read 0x014#16 :: rest } = .next t ∧ t.hostData = s.faultInsn) ∧
    (∃ t u, step { s with moves := .read 0x018#16 :: rest } = .next t ∧
      step { s with moves := .read 0x01C#16 :: rest } = .next u ∧
      s.mcount.toNat = u.hostData.toNat * 2 ^ 32 + t.hostData.toNat) ∧
    (∃ t, step { s with moves := .read 0x020#16 :: rest } = .next t ∧
      ∀ j : Slot, j.val < 32 → t.hostData.getLsbD j.val = s.readCarry j) ∧
    (∃ t, step { s with moves := .read 0x024#16 :: rest } = .next t ∧
      ∀ j : Slot, 32 ≤ j.val → t.hostData.getLsbD (j.val - 32) = s.readCarry j)

/-- R32, R51: what a write of the writable control registers does while idle: all 32 bits of `START_PC`, and the carry
bits of one half. -/
def Obligations.ControlRegisterWrites : Prop :=
  ∀ (s : State) (w : BitVec 32) (rest : List Move), s.idle →
    (step { s with moves := .write 0x008#16 w :: rest } = .next { s with startPc := w, moves := rest }) ∧
    (∃ t, step { s with moves := .write 0x020#16 w :: rest } = .next t ∧
      (∀ j : Slot, t.readCarry j = if j.val < 32 then w.getLsbD j.val else s.readCarry j) ∧
      t = { s with carry := t.carry, moves := rest }) ∧
    (∃ t, step { s with moves := .write 0x024#16 w :: rest } = .next t ∧
      (∀ j : Slot, t.readCarry j = if j.val < 32 then s.readCarry j else w.getLsbD (j.val - 32)) ∧
      t = { s with carry := t.carry, moves := rest })

/-- R33: `CONFIG` reads the block's sizes at any time but under reset, a write of it is ignored while idle, and no step
changes what it reports. -/
def Obligations.ConfigIsConstant : Prop :=
  (∀ (s : State) (rest : List Move), s.Inv → s.resetAsserted = false →
    ∃ t, step { s with moves := .read 0x028#16 :: rest } = .next t ∧
      (t.hostData.extractLsb' 0 16).toNat = s.imemWords ∧ t.hostData.extractLsb' 16 8 = 32#8 ∧
      t.hostData.extractLsb' 24 8 = 64#8 ∧ (s.imemWords = 1024 → t.hostData = 0x40200400#32)) ∧
  (∀ (s : State) (w : BitVec 32) (rest : List Move), s.idle →
    step { s with moves := .write 0x028#16 w :: rest } = .next { s with moves := rest }) ∧
  (∀ s t : State, step s = .next t → t.imemWords = s.imemWords)

/-- R53: bits 1:0 of the host's byte address are ignored: an access at `offset` is the access at `offset & 0xFFFC`. -/
def Obligations.HostAddressLowBitsIgnored : Prop :=
  ∀ (s : State) (offset : BitVec 16) (w : BitVec 32) (rest : List Move),
    step { s with moves := .read offset :: rest } = step { s with moves := .read (offset &&& 0xFFFC#16) :: rest } ∧
    step { s with moves := .write offset w :: rest } = step { s with moves := .write (offset &&& 0xFFFC#16) w :: rest }

/-- R55: the host word at offset `0x100 + 4k` is IBUF bytes `4k..4k+3`, little-endian, read and written while idle; a
write sets those four bytes and nothing else. In a state of the invariant: the write's bytes read back by the canonical
form. -/
def Obligations.IbufWordsLittleEndian : Prop :=
  ∀ (s : State) (k : Nat) (w : BitVec 32) (rest : List Move), s.Inv → s.idle → k < 16 →
    (∃ t, step { s with moves := .read (BitVec.ofNat 16 (0x100 + 4 * k)) :: rest } = .next t ∧
      ∀ b, b < 4 → t.hostData.extractLsb' (8 * b) 8 = s.ibufByte (4 * k + b)) ∧
    (∃ t, step { s with moves := .write (BitVec.ofNat 16 (0x100 + 4 * k)) w :: rest } = .next t ∧
      (∀ b, b < 4 → t.ibufByte (4 * k + b) = w.extractLsb' (8 * b) 8) ∧
      (∀ a, a < 4 * k ∨ 4 * k + 4 ≤ a → t.ibufByte a = s.ibufByte a) ∧
      t = { s with ibuf := t.ibuf, moves := rest })

/-- R56, R21: the host words at `0x200 + 8i` and `0x204 + 8i` are the halves of `R[i]`, read and written while idle: a
write of one half keeps the other, bit 63 stays 0, and no other register changes. -/
def Obligations.RegisterHalvesInWindow : Prop :=
  ∀ (s : State) (i : Reg) (w : BitVec 32) (rest : List Move), s.idle →
    (∃ t u, step { s with moves := .read (BitVec.ofNat 16 (0x200 + 8 * i.val)) :: rest } = .next t ∧
      step { s with moves := .read (BitVec.ofNat 16 (0x204 + 8 * i.val)) :: rest } = .next u ∧
      s.readReg i = u.hostData ++ t.hostData ∧
      ((s.readReg i).getLsbD 63 = false → u.hostData.getLsbD 31 = false)) ∧
    (∃ t, step { s with moves := .write (BitVec.ofNat 16 (0x200 + 8 * i.val)) w :: rest } = .next t ∧
      (∀ k, (t.readReg i).getLsbD k =
        (decide (k < 63) && if k < 32 then w.getLsbD k else (s.readReg i).getLsbD k)) ∧
      (∀ r, r ≠ i → t.readReg r = s.readReg r) ∧ t = { s with regs := t.regs, moves := rest }) ∧
    (∃ t, step { s with moves := .write (BitVec.ofNat 16 (0x204 + 8 * i.val)) w :: rest } = .next t ∧
      (∀ k, (t.readReg i).getLsbD k =
        (decide (k < 63) && if k < 32 then (s.readReg i).getLsbD k else w.getLsbD (k - 32))) ∧
      (∀ r, r ≠ i → t.readReg r = s.readReg r) ∧ t = { s with regs := t.regs, moves := rest })

/-- R57: the host word at offset `0x1000 + 4j` is `IMEM[j]`, all 32 bits, read and written while idle, for `j` below
`IMEM_WORDS`; above it the offset is unmapped: it reads 0 and a write is ignored. In a state of the invariant. -/
def Obligations.ImemWordsInWindow : Prop :=
  ∀ (s : State) (j : Nat) (w : BitVec 32) (rest : List Move), s.Inv → s.idle → j < 1024 →
    (j < s.imemWords →
      (∃ t, step { s with moves := .read (BitVec.ofNat 16 (0x1000 + 4 * j)) :: rest } = .next t ∧
        t.hostData = s.imemWord j) ∧
      (∃ t, step { s with moves := .write (BitVec.ofNat 16 (0x1000 + 4 * j)) w :: rest } = .next t ∧
        t.imemWord j = w ∧ (∀ a, a ≠ j → t.imemWord a = s.imemWord a) ∧
        t = { s with imem := t.imem, moves := rest })) ∧
    (s.imemWords ≤ j →
      (∃ t, step { s with moves := .read (BitVec.ofNat 16 (0x1000 + 4 * j)) :: rest } = .next t ∧ t.hostData = 0#32) ∧
      step { s with moves := .write (BitVec.ofNat 16 (0x1000 + 4 * j)) w :: rest } = .next { s with moves := rest })

/-- R58, R51: the unmapped offsets are, as byte offsets, `0x02C..0x0FF`, `0x140..0x1FF`, `0x300..0xFFF` and
`0x1000 + 4 * IMEM_WORDS` up. While the block is not under reset, a read of one returns 0, and so do the reserved bits of
`STATUS`; a read of `CTRL` while idle returns 0; while idle, a write to an unmapped offset or to a read-only register is
ignored and sets nothing; and no host read, at any time, changes any state of the block. -/
def Obligations.UnmappedAndReadOnlyIgnored : Prop :=
  (∀ (s : State) (offset : BitVec 16), s.locOf offset = .unmapped ↔ unmappedOffset s.imemWords offset.toNat) ∧
  (∀ (s : State) (offset : BitVec 16) (rest : List Move), unmappedOffset s.imemWords offset.toNat →
    s.resetAsserted = false →
    ∃ t, step { s with moves := .read offset :: rest } = .next t ∧ t.hostData = 0#32) ∧
  (∀ (s : State) (rest : List Move), s.idle →
    ∃ t, step { s with moves := .read 0x000#16 :: rest } = .next t ∧ t.hostData = 0#32) ∧
  (∀ (s : State) (rest : List Move), s.resetAsserted = false →
    ∃ t, step { s with moves := .read 0x004#16 :: rest } = .next t ∧ t.hostData &&& 0xFFFFF0F0#32 = 0#32) ∧
  (∀ (s : State) (offset : BitVec 16) (w : BitVec 32) (rest : List Move), s.idle →
    unmappedOffset s.imemWords offset.toNat ∨
      offset &&& 0xFFFC#16 ∈ [0x00C#16, 0x010#16, 0x014#16, 0x018#16, 0x01C#16, 0x028#16] →
    step { s with moves := .write offset w :: rest } = .next { s with moves := rest }) ∧
  (∀ (s : State) (offset : BitVec 16) (rest : List Move),
    ∃ t, step { s with moves := .read offset :: rest } = .next t ∧
      t = { s with moves := rest, hostData := t.hostData, draws := t.draws })

/-- R59, R215: while BUSY, a host write to any offset but `STATUS` sets `HOST_CONFLICT` and does nothing else; a write to
`STATUS` acts as when idle; a read of `STATUS`, `CONFIG`, `START_PC` or an unmapped offset returns its value as when
idle; and a read of the run's data returns the next free value and changes nothing of the block. That the free value is
`Config.freeWord` of the count of such reads is the model's choice, log entry 4. -/
def Obligations.HostAccessWhileBusy : Prop :=
  ∀ (s : State) (offset : BitVec 16) (w : BitVec 32) (rest : List Move), s.status.busy = true → s.resetAsserted = false →
    (s.locOf offset ≠ .status → step { s with moves := .write offset w :: rest } =
      .next { s with status := { s.status with hostConflict := true }, moves := rest }) ∧
    (s.locOf offset = .status → step { s with moves := .write offset w :: rest } =
      .next { s with status := { s.status with hostConflict := s.status.hostConflict && !w.getLsbD 3 }, moves := rest }) ∧
    (s.locOf offset ∈ [WindowLoc.status, .config, .startPc, .unmapped] →
      step { s with moves := .read offset :: rest } =
        .next { s with hostData := s.windowWord (s.locOf offset), moves := rest }) ∧
    (s.locOf offset ∉ [WindowLoc.status, .config, .startPc, .unmapped, .ctrl] →
      step { s with moves := .read offset :: rest } =
        .next { s with hostData := Config.freeWord s.draws, draws := s.draws + 1, moves := rest })

/-- R230: asserting reset, whatever the block is doing, ends any run without a fault and sets every piece of state to its
reset value; while it is asserted the block ignores host writes, host reads return free values, and the block takes no
step; releasing it changes nothing but the level of the input. That reset is a level with two edges is the model's
reading, log entry 8; that the free value is `Config.freeWord` of the count of such reads is its choice, log entry 4. -/
def Obligations.ResetSetsAndHoldsEveryState : Prop :=
  (∀ (s : State) (rest : List Move), ∃ t, step { s with moves := .assertReset :: rest } = .next t ∧
    (∀ r, t.readReg r = 0#64) ∧ (∀ j, t.readCarry j = false) ∧ t.mcount = 0#64 ∧ (∀ a, t.ibufByte a = 0#8) ∧
    (∀ j, t.imemWord j = 0x00000000#32) ∧ t.pc = 0#32 ∧ t.startPc = 0#32 ∧
    t.status = { busy := false, done := false, fault := false, hostConflict := false, cause := .none } ∧
    t.faultPc = 0#32 ∧ t.faultInsn = 0#32 ∧ t.imemWords = s.imemWords ∧ t.resetAsserted = true) ∧
  (∀ (s : State) (offset : BitVec 16) (w : BitVec 32) (rest : List Move), s.resetAsserted = true →
    step { s with moves := .write offset w :: rest } = .next { s with moves := rest } ∧
    step { s with moves := .read offset :: rest } =
      .next { s with hostData := Config.freeWord s.draws, draws := s.draws + 1, moves := rest } ∧
    step { s with moves := .sequencer :: rest } = .next { s with moves := rest } ∧
    step { s with moves := [] } = .next { s with moves := [] }) ∧
  (∀ (s : State) (rest : List Move),
    step { s with moves := .releaseReset :: rest } = .next { s with resetAsserted := false, moves := rest })

/-! What a run depends on. -/

/-- R174: a run's end state is a function of the state at START alone: from two states that differ only in
`HOST_CONFLICT` and in the host's and the model's own fields, any number of the sequencer's steps leads to two such
states, and no step of the sequencer draws a free value. -/
def Obligations.RunIsDeterministic : Prop :=
  ∀ (k : Nat) (s s' : State), s.moves = [] → s'.moves = [] → s.runView = s'.runView →
    ∃ t t', runFor k s = .next t ∧ runFor k s' = .next t' ∧ t.runView = t'.runView ∧ t.draws = s.draws ∧
      t'.draws = s'.draws

/-- R63, R59: no host access made while a run is in progress can influence the run. Take any interleaving of sequencer
steps and host accesses; if the sequencer's steps alone leave the run still in progress, the interleaving leaves the
block in the same state as they do, but for `HOST_CONFLICT` and the host's and the model's own fields. -/
def Obligations.HostCannotInfluenceRun : Prop :=
  ∀ (ms : List Move) (s u : State), s.moves = ms → s.resetAsserted = false →
    (∀ m ∈ ms, m = .sequencer ∨ m.isAccess = true) →
    runFor (ms.countP (fun m => m = .sequencer)) { s with moves := [] } = .next u → u.status.busy = true →
    ∃ t, runFor ms.length s = .next t ∧ t.runView = u.runView

/-! The character-class evaluator over all expressions. -/

/-- R117: after TRANSPOSE, bit `i` of the word of an expression is the expression's value for byte `i` of the block, for
every expression and every payload position, and bit 63 is 0. -/
def Obligations.ExpressionWordIsPointwise : Prop :=
  ∀ (s : State) (e : BoolExpr), ∃ t, exec .transpose s = .next t ∧
    (∀ i, i < 63 → (e.word t).getLsbD i = e.eval (s.ibufByte i)) ∧ (e.word t).getLsbD 63 = false

/-- R117: one command per node computes the word of an expression from the words of its children, wherever the children
stand: `W(e)` is over the basis registers of a state `s` of the invariant, and the command runs in any state `t`. -/
def Obligations.NodeCommandsComputeWord : Prop :=
  ∀ (s t : State) (rd ra rb rc : Reg) (x y z : BoolExpr), s.Inv → t.readReg ra = x.word s → t.readReg rb = y.word s →
    t.readReg rc = z.word s →
    (∃ u, exec (.setTrue rd) t = .next u ∧ u.readReg rd = BoolExpr.tru.word s) ∧
    (∃ u, exec (.setFalse rd) t = .next u ∧ u.readReg rd = BoolExpr.fls.word s) ∧
    (∃ u, exec (.band rd ra rb) t = .next u ∧ u.readReg rd = (BoolExpr.conj x y).word s) ∧
    (∃ u, exec (.bor rd ra rb) t = .next u ∧ u.readReg rd = (BoolExpr.disj x y).word s) ∧
    (∃ u, exec (.bnot rd ra) t = .next u ∧ u.readReg rd = (BoolExpr.neg x).word s) ∧
    (∃ u, exec (.sel rd ra rb rc) t = .next u ∧ u.readReg rd = (BoolExpr.ite x y z).word s)

/-- R194 (b): `GE(bits, n)` on every `bits`-bit value equals `v >= n`, and `LE(bits, n)` equals `v <= n`, for `bits` in
0..8 and `n` in `0 .. 2^bits - 1`; outside that domain both are refused. I8 asks for the refusal at `n = 2^bits`; beyond
it the refusal is the model's choice, log entry 15. -/
def Obligations.GeLeCorrect : Prop :=
  ∀ (bits n : Nat),
    (bits ≤ 8 → n < 2 ^ bits → ∃ g l, geExpr bits n = some g ∧ leExpr bits n = some l ∧
      ∀ b : Byte, b.toNat < 2 ^ bits → g.eval b = decide (n ≤ b.toNat) ∧ l.eval b = decide (b.toNat ≤ n)) ∧
    (8 < bits ∨ 2 ^ bits ≤ n → geExpr bits n = none ∧ leExpr bits n = none)

/-- R194 (a): the value of the expression of a range on a byte is 1 exactly when the byte lies in the range. -/
def Obligations.RangeExpressionCorrect : Prop :=
  ∀ (r : ByteRange) (b : Byte), r.low.toNat ≤ r.high.toNat →
    ((rangeExpr r).eval b = true ↔ r.low.toNat ≤ b.toNat ∧ b.toNat ≤ r.high.toNat)

/-- R118, R192: class-word correctness: a well-formed class compiles; a class with no range has no expression, and a
pattern that holds one has no compiled pattern and no program; and after
TRANSPOSE bit `i` of the compiled expression's word is 1 exactly when byte `i` of the block lies in one of the class's
ranges, for `i` in 0..62, and bit 63 is 0. -/
def Obligations.ClassWordCorrect : Prop :=
  (∀ c : CharClass, c.ranges = [] → c.compile = none ∧
    ∀ cs : List CharClass, c ∈ cs → compilePattern cs = none ∧ patternProgram cs = none) ∧
  ∀ c : CharClass, c.wf = true → ∃ e, c.compile = some e ∧
    ∀ s : State, ∃ t, exec .transpose s = .next t ∧
      (∀ i, i < 63 → ((e.word t).getLsbD i = true ↔
        ∃ r ∈ c.ranges, r.low.toNat ≤ (s.ibufByte i).toNat ∧ (s.ibufByte i).toNat ≤ r.high.toNat)) ∧
      (e.word t).getLsbD 63 = false

/-- R180, R193: a pattern compiles exactly when every class of it does, and its compiled pattern is the ordered list of
its classes, each paired with its own expression. -/
def Obligations.CompiledPatternPairsClasses : Prop :=
  ∀ cs : List CharClass,
    ((∃ p, compilePattern cs = some p) ↔ ∀ c ∈ cs, ∃ e, c.compile = some e) ∧
    ∀ p : CompiledPattern, compilePattern cs = some p →
      p.map Prod.fst = cs ∧ ∀ q ∈ p, q.1.compile = some q.2

/-! The host's loop. -/

/-- R172, R166: from an idle state of the invariant, whatever IMEM holds and at whatever pace the host polls, the loop over
any blocks ends: with the count that stands in `MCOUNT`, the last run ended by HALT, or at a run that ended by a fault,
with the `STATUS` that says so; either way the block is idle. R172 says that the host waits, checks and counts. That the loop
stops at the first run whose check fails and answers with the `STATUS` it read, that it gives up after `IMEM_WORDS + 2`
polls, and the pace of the polls as an argument, are the model's choice, log entry 16. -/
def Obligations.HostLoopEnds : Prop :=
  ∀ (pace : Nat) (pad : Byte) (blocks : List (List Byte)) (s : State), s.Inv → s.idle →
    ∃ r, blockLoop pace pad blocks s = some r ∧
      (∀ t n, r = .counted t n → t.idle ∧ n = t.mcount.toNat ∧
        (blocks ≠ [] → t.status.done = true ∧ t.status.fault = false)) ∧
      (∀ t w, r = .failed t w → t.idle ∧ t.status.done = false ∧ t.status.fault = true ∧ w = t.status.word)
end

