-- ==== Sys2Proof/Laws/Encoding.lean ====
section
/-! SUPPORT. The fields of a packed word, and the reserved-bit checks as arithmetic on the word (spec/30_encoding.md R81,
R82). -/

namespace Sys2Proof

/-- A concatenation as a number. -/
theorem toNat_append_mul {n m : Nat} (x : BitVec n) (y : BitVec m) : (x ++ y).toNat = x.toNat * 2 ^ m + y.toNat := by
  rw [BitVec.toNat_append, ← Nat.shiftLeft_add_eq_or_of_lt y.isLt, Nat.shiftLeft_eq]

theorem reg_lt (r : Reg) : r.val < 32 := r.isLt

theorem slot_lt (k : Slot) : k.val < 64 := k.isLt

theorem toNat_packWord {opc rd ra low : Nat} (ho : opc < 64) (hd : rd < 32) (ha : ra < 32) (hl : low < 2 ^ 16) :
    (packWord opc rd ra low).toNat = opc * 2 ^ 26 + rd * 2 ^ 21 + ra * 2 ^ 16 + low := by
  rw [packWord, BitVec.toNat_ofNat]
  omega

/-- R81: every field of a packed word is the number put there. -/
theorem packWord_fields {opc rd ra low : Nat} (ho : opc < 64) (hd : rd < 32) (ha : ra < 32) (hl : low < 2 ^ 16) :
    opcOf (packWord opc rd ra low) = opc ∧ rdOf (packWord opc rd ra low) = Fin.ofNat 32 rd ∧
      raOf (packWord opc rd ra low) = Fin.ofNat 32 ra ∧ rbOf (packWord opc rd ra low) = Fin.ofNat 32 (low / 2 ^ 11) ∧
      rcOf (packWord opc rd ra low) = Fin.ofNat 32 (low / 2 ^ 6) ∧
      ciOf (packWord opc rd ra low) = Fin.ofNat 64 (low / 2 ^ 5) := by
  simp only [opcOf, rdOf, raOf, rbOf, rcOf, ciOf, field, toNat_packWord ho hd ha hl, Nat.shiftRight_eq_div_pow,
    Fin.ext_iff, Fin.ofNat]
  refine ⟨?_, ?_, ?_, ?_, ?_, ?_⟩ <;> omega

theorem opcOf_eq_div (w : Cmd) : opcOf w = w.toNat / 2 ^ 26 := by
  simp only [opcOf, field, Nat.shiftRight_eq_div_pow]
  have := w.isLt
  omega

/-- R81: a word is its fields in their places. -/
theorem packWord_of_fields (w : Cmd) :
    packWord (opcOf w) (w.toNat / 2 ^ 21 % 32) (w.toNat / 2 ^ 16 % 32) (w.toNat % 2 ^ 16) = w := by
  apply BitVec.eq_of_toNat_eq
  rw [opcOf_eq_div, packWord, BitVec.toNat_ofNat]
  have := w.isLt
  omega

/-- A word avoids the bits of two masks exactly when it avoids each. -/
theorem and_or_eq_zero (w a b : Cmd) : w &&& (a ||| b) = 0#32 ↔ w &&& a = 0#32 ∧ w &&& b = 0#32 := by
  constructor
  · intro h
    constructor
    · apply BitVec.eq_of_getLsbD_eq
      intro k hk
      have := congrArg (fun v => BitVec.getLsbD v k) h
      simp only [BitVec.getLsbD_and, BitVec.getLsbD_or, BitVec.getLsbD_zero] at this ⊢
      cases hw : w.getLsbD k <;> cases ha : a.getLsbD k <;> simp_all
    · apply BitVec.eq_of_getLsbD_eq
      intro k hk
      have := congrArg (fun v => BitVec.getLsbD v k) h
      simp only [BitVec.getLsbD_and, BitVec.getLsbD_or, BitVec.getLsbD_zero] at this ⊢
      cases hw : w.getLsbD k <;> cases ha : b.getLsbD k <;> simp_all
  · rintro ⟨h1, h2⟩
    apply BitVec.eq_of_getLsbD_eq
    intro k hk
    have h1 := congrArg (fun v => BitVec.getLsbD v k) h1
    have h2 := congrArg (fun v => BitVec.getLsbD v k) h2
    simp only [BitVec.getLsbD_and, BitVec.getLsbD_or, BitVec.getLsbD_zero] at h1 h2 ⊢
    cases hw : w.getLsbD k <;> simp_all

/-- Masking `n` bits from bit `lo` up. -/
theorem and_midMask (w : Cmd) (n lo : Nat) (hn : lo + n ≤ 32) :
    w &&& (BitVec.ofNat 32 (2 ^ n - 1) <<< lo) = 0#32 ↔ w.toNat / 2 ^ lo % 2 ^ n = 0 := by
  have hp : 2 ^ n ≤ 2 ^ 32 := Nat.pow_le_pow_right (by omega) (by omega)
  have h0 : 0 < 2 ^ n := Nat.pos_of_ne_zero (by simp)
  have hmask : ∀ k, (BitVec.ofNat 32 (2 ^ n - 1)).getLsbD k = decide (k < n) := by
    intro k
    rw [BitVec.getLsbD, BitVec.toNat_ofNat, Nat.mod_eq_of_lt (by omega), Nat.testBit_two_pow_sub_one]
  constructor
  · intro h
    apply Nat.eq_of_testBit_eq
    intro k
    rw [Nat.testBit_mod_two_pow, Nat.testBit_div_two_pow, Nat.zero_testBit]
    by_cases hk : k < n
    · have hb := congrArg (fun v => BitVec.getLsbD v (lo + k)) h
      simp only [BitVec.getLsbD_and, BitVec.getLsbD_shiftLeft, BitVec.getLsbD_zero, hmask] at hb
      have e : w.toNat.testBit (k + lo) = w.getLsbD (lo + k) := by rw [Nat.add_comm]; rfl
      rw [e]
      simpa [hk, (by omega : lo + k < 32)] using hb
    · simp [hk]
  · intro h
    apply BitVec.eq_of_getLsbD_eq
    intro k hk
    rw [BitVec.getLsbD_and, BitVec.getLsbD_shiftLeft, hmask, BitVec.getLsbD_zero]
    by_cases hlo : lo ≤ k ∧ k - lo < n
    · have hb := congrArg (fun v => v.testBit (k - lo)) h
      simp only [Nat.testBit_mod_two_pow, Nat.testBit_div_two_pow, Nat.zero_testBit, hlo.2, decide_true, Bool.true_and,
        Nat.sub_add_cancel hlo.1] at hb
      have e : w.getLsbD k = w.toNat.testBit k := rfl
      rw [e, hb]
      simp
    · by_cases h1 : lo ≤ k
      · have : ¬k - lo < n := fun h2 => hlo ⟨h1, h2⟩
        simp [this]
      · simp [(by omega : k < lo)]

/-- R82: the reserved bits of each format as arithmetic on the word. -/
theorem reserved_eq_zero (f : Format) (w : Cmd) : w &&& f.reserved = 0#32 ↔
    match f with
    | .N => w.toNat % 2 ^ 26 = 0
    | .D => w.toNat % 2 ^ 21 = 0
    | .R1 => w.toNat % 2 ^ 16 = 0
    | .R2 => w.toNat % 2 ^ 11 = 0
    | .R3 => w.toNat % 2 ^ 6 = 0
    | .RC => w.toNat % 2 ^ 5 = 0
    | .A => w.toNat / 2 ^ 21 % 2 ^ 5 = 0 ∧ w.toNat % 2 ^ 16 = 0
    | .CF => w.toNat / 2 ^ 11 % 2 ^ 15 = 0 ∧ w.toNat % 2 ^ 5 = 0 := by
  have low : ∀ n, n ≤ 32 → (w &&& BitVec.ofNat 32 (2 ^ n - 1) = 0#32 ↔ w.toNat % 2 ^ n = 0) := by
    intro n hn
    have := and_midMask w n 0 (by omega)
    simpa using this
  cases f
  · exact low 26 (by omega)
  · exact low 21 (by omega)
  · exact low 16 (by omega)
  · exact low 11 (by omega)
  · exact low 6 (by omega)
  · exact low 5 (by omega)
  · rw [show Format.A.reserved = (BitVec.ofNat 32 (2 ^ 5 - 1) <<< 21) ||| BitVec.ofNat 32 (2 ^ 16 - 1) from rfl,
      and_or_eq_zero, and_midMask w 5 21 (by omega), low 16 (by omega)]
  · rw [show Format.CF.reserved = (BitVec.ofNat 32 (2 ^ 15 - 1) <<< 11) ||| BitVec.ofNat 32 (2 ^ 5 - 1) from rfl,
      and_or_eq_zero, and_midMask w 15 11 (by omega), low 5 (by omega)]

end Sys2Proof
end

