-- ==== Sys2Proof/Laws/Memory.lean ====
section
/-! SUPPORT. The laws of the sparse memories: read after write, and that a write keeps the canonical form. -/

namespace Sys2Proof.Machine

@[simp] theorem memory_read_nil {w : Nat} (a : Nat) : Memory.read ([] : Memory w) a = 0#w := rfl

/-- Below its first index a canonical memory reads 0. -/
theorem memory_read_below {w : Nat} {bound lo : Nat} {m : Memory w} (h : Memory.wfFrom bound lo m = true) {a : Nat}
    (ha : a < lo) : Memory.read m a = 0#w := by
  induction m generalizing lo with
  | nil => rfl
  | cons p rest ih =>
    obtain ⟨k, v⟩ := p
    simp only [Memory.wfFrom, Bool.and_eq_true, decide_eq_true_eq] at h
    simp only [Memory.read]
    rw [if_neg (by omega)]
    exact ih h.2 (by omega)

/-- A read of the index just written. It rests on the canonical form: writing 0 removes the entry, and no other entry
for that index is left. -/
theorem memory_read_write_same {w : Nat} {bound lo : Nat} {m : Memory w} (h : Memory.wfFrom bound lo m = true) (a : Nat)
    (v : BitVec w) : Memory.read (Memory.write m a v) a = v := by
  induction m generalizing lo with
  | nil => simp only [Memory.write]; split <;> simp_all [Memory.read]
  | cons p rest ih =>
    obtain ⟨k, x⟩ := p
    simp only [Memory.wfFrom, Bool.and_eq_true, decide_eq_true_eq] at h
    simp only [Memory.write]
    split
    · split
      · next h0 => simp only [Memory.read, if_neg (by omega : ¬a = k), h0]; exact memory_read_below h.2 (by omega)
      · simp [Memory.read]
    · split
      · next hk =>
        subst hk
        split
        · next h0 => rw [h0]; exact memory_read_below h.2 (by omega)
        · simp [Memory.read]
      · next hk => simp only [Memory.read, if_neg hk]; exact ih h.2

/-- A write leaves every other index alone. -/
theorem memory_read_write_other {w : Nat} (m : Memory w) {a b : Nat} (v : BitVec w) (hab : b ≠ a) :
    Memory.read (Memory.write m a v) b = Memory.read m b := by
  induction m with
  | nil => simp only [Memory.write]; split <;> simp [Memory.read, hab]
  | cons p rest ih =>
    obtain ⟨k, x⟩ := p
    simp only [Memory.write]
    split
    · split
      · rfl
      · simp [Memory.read, hab]
    · split
      · next hk =>
        subst hk
        split <;> simp [Memory.read, hab]
      · simp only [Memory.read, ih]

/-- The canonical form from a higher index on is the canonical form from a lower one on. -/
theorem memory_wfFrom_mono {w bound lo lo' : Nat} {m : Memory w} (h : Memory.wfFrom bound lo' m = true)
    (hl : lo ≤ lo') : Memory.wfFrom bound lo m = true := by
  cases m with
  | nil => rfl
  | cons p rest => simp_all [Memory.wfFrom]; omega

/-- A write inside the bound keeps the canonical form. -/
theorem memory_write_wfFrom {w : Nat} {bound lo : Nat} {m : Memory w} (h : Memory.wfFrom bound lo m = true) {a : Nat}
    (hlo : lo ≤ a) (ha : a < bound) (v : BitVec w) : Memory.wfFrom bound lo (Memory.write m a v) = true := by
  induction m generalizing lo with
  | nil => simp only [Memory.write]; split <;> simp_all [Memory.wfFrom]
  | cons p rest ih =>
    obtain ⟨k, x⟩ := p
    simp only [Memory.wfFrom, Bool.and_eq_true, decide_eq_true_eq] at h
    obtain ⟨⟨⟨h1, h2⟩, h3⟩, h4⟩ := h
    simp only [Memory.write]
    split
    · split
      · simp_all [Memory.wfFrom]
      · simp_all [Memory.wfFrom]
    · split
      · next hk =>
        subst hk
        split
        · exact memory_wfFrom_mono h4 (by omega)
        · simp_all [Memory.wfFrom]
      · simp only [Memory.wfFrom, Bool.and_eq_true, decide_eq_true_eq]
        exact ⟨⟨⟨h1, h2⟩, h3⟩, ih h4 (by omega)⟩

/-- The canonical form of a storage is kept by every write inside it. -/
theorem memory_write_wf {w bound : Nat} {m : Memory w} (h : Memory.wf bound m = true) {a : Nat} (ha : a < bound)
    (v : BitVec w) : Memory.wf bound (Memory.write m a v) = true :=
  memory_write_wfFrom h (Nat.zero_le a) ha v

@[simp] theorem memory_wf_nil {w bound : Nat} : Memory.wf bound ([] : Memory w) = true := rfl

/-- Reading what was just written to a canonical storage. -/
theorem memory_wf_read_write {w bound : Nat} {m : Memory w} (h : Memory.wf bound m = true) (a : Nat) (v : BitVec w) :
    Memory.read (Memory.write m a v) a = v :=
  memory_read_write_same h a v

end Sys2Proof.Machine
end

