-- ==== Sys2Proof/Laws/State.lean ====
section
/-! SUPPORT. For each shared update of `State`, one lemma per field, and one per accessor whose value it leaves alone, so
that no later proof unfolds a record update. Each is true by rfl. It is written `(rfl)` so that simp rewrites with it as an
equation: a step by definitional unfolding would make the kernel compare whole states. -/

namespace Sys2Proof.Machine

/-! `State.writeReg` -/

@[simp] theorem writeReg_regs (s : State) (i : Reg) (v : Word) : (s.writeReg i v).regs = s.regs.set i.val (payload v) := (rfl)
@[simp] theorem writeReg_carry (s : State) (i : Reg) (v : Word) : (s.writeReg i v).carry = s.carry := (rfl)
@[simp] theorem writeReg_mcount (s : State) (i : Reg) (v : Word) : (s.writeReg i v).mcount = s.mcount := (rfl)
@[simp] theorem writeReg_ibuf (s : State) (i : Reg) (v : Word) : (s.writeReg i v).ibuf = s.ibuf := (rfl)
@[simp] theorem writeReg_imem (s : State) (i : Reg) (v : Word) : (s.writeReg i v).imem = s.imem := (rfl)
@[simp] theorem writeReg_pc (s : State) (i : Reg) (v : Word) : (s.writeReg i v).pc = s.pc := (rfl)
@[simp] theorem writeReg_startPc (s : State) (i : Reg) (v : Word) : (s.writeReg i v).startPc = s.startPc := (rfl)
@[simp] theorem writeReg_status (s : State) (i : Reg) (v : Word) : (s.writeReg i v).status = s.status := (rfl)
@[simp] theorem writeReg_faultPc (s : State) (i : Reg) (v : Word) : (s.writeReg i v).faultPc = s.faultPc := (rfl)
@[simp] theorem writeReg_faultInsn (s : State) (i : Reg) (v : Word) : (s.writeReg i v).faultInsn = s.faultInsn := (rfl)
@[simp] theorem writeReg_imemWords (s : State) (i : Reg) (v : Word) : (s.writeReg i v).imemWords = s.imemWords := (rfl)
@[simp] theorem writeReg_resetAsserted (s : State) (i : Reg) (v : Word) : (s.writeReg i v).resetAsserted = s.resetAsserted := (rfl)
@[simp] theorem writeReg_moves (s : State) (i : Reg) (v : Word) : (s.writeReg i v).moves = s.moves := (rfl)
@[simp] theorem writeReg_draws (s : State) (i : Reg) (v : Word) : (s.writeReg i v).draws = s.draws := (rfl)
@[simp] theorem writeReg_hostData (s : State) (i : Reg) (v : Word) : (s.writeReg i v).hostData = s.hostData := (rfl)
@[simp] theorem writeReg_readCarry (s : State) (i : Reg) (v : Word) (k : Slot) : (s.writeReg i v).readCarry k = s.readCarry k := (rfl)
@[simp] theorem writeReg_ibufByte (s : State) (i : Reg) (v : Word) (a : Nat) : (s.writeReg i v).ibufByte a = s.ibufByte a := (rfl)
@[simp] theorem writeReg_imemWord (s : State) (i : Reg) (v : Word) (a : Nat) : (s.writeReg i v).imemWord a = s.imemWord a := (rfl)

/-! `State.writeCarry` -/

@[simp] theorem writeCarry_regs (s : State) (j : Slot) (b : Bool) : (s.writeCarry j b).regs = s.regs := (rfl)
@[simp] theorem writeCarry_carry (s : State) (j : Slot) (b : Bool) : (s.writeCarry j b).carry = setBit s.carry j b := (rfl)
@[simp] theorem writeCarry_mcount (s : State) (j : Slot) (b : Bool) : (s.writeCarry j b).mcount = s.mcount := (rfl)
@[simp] theorem writeCarry_ibuf (s : State) (j : Slot) (b : Bool) : (s.writeCarry j b).ibuf = s.ibuf := (rfl)
@[simp] theorem writeCarry_imem (s : State) (j : Slot) (b : Bool) : (s.writeCarry j b).imem = s.imem := (rfl)
@[simp] theorem writeCarry_pc (s : State) (j : Slot) (b : Bool) : (s.writeCarry j b).pc = s.pc := (rfl)
@[simp] theorem writeCarry_startPc (s : State) (j : Slot) (b : Bool) : (s.writeCarry j b).startPc = s.startPc := (rfl)
@[simp] theorem writeCarry_status (s : State) (j : Slot) (b : Bool) : (s.writeCarry j b).status = s.status := (rfl)
@[simp] theorem writeCarry_faultPc (s : State) (j : Slot) (b : Bool) : (s.writeCarry j b).faultPc = s.faultPc := (rfl)
@[simp] theorem writeCarry_faultInsn (s : State) (j : Slot) (b : Bool) : (s.writeCarry j b).faultInsn = s.faultInsn := (rfl)
@[simp] theorem writeCarry_imemWords (s : State) (j : Slot) (b : Bool) : (s.writeCarry j b).imemWords = s.imemWords := (rfl)
@[simp] theorem writeCarry_resetAsserted (s : State) (j : Slot) (b : Bool) : (s.writeCarry j b).resetAsserted = s.resetAsserted := (rfl)
@[simp] theorem writeCarry_moves (s : State) (j : Slot) (b : Bool) : (s.writeCarry j b).moves = s.moves := (rfl)
@[simp] theorem writeCarry_draws (s : State) (j : Slot) (b : Bool) : (s.writeCarry j b).draws = s.draws := (rfl)
@[simp] theorem writeCarry_hostData (s : State) (j : Slot) (b : Bool) : (s.writeCarry j b).hostData = s.hostData := (rfl)
@[simp] theorem writeCarry_readReg (s : State) (j : Slot) (b : Bool) (r : Reg) : (s.writeCarry j b).readReg r = s.readReg r := (rfl)
@[simp] theorem writeCarry_ibufByte (s : State) (j : Slot) (b : Bool) (a : Nat) : (s.writeCarry j b).ibufByte a = s.ibufByte a := (rfl)
@[simp] theorem writeCarry_imemWord (s : State) (j : Slot) (b : Bool) (a : Nat) : (s.writeCarry j b).imemWord a = s.imemWord a := (rfl)

/-! `State.advance` -/

@[simp] theorem advance_regs (s : State) : s.advance.regs = s.regs := (rfl)
@[simp] theorem advance_carry (s : State) : s.advance.carry = s.carry := (rfl)
@[simp] theorem advance_mcount (s : State) : s.advance.mcount = s.mcount := (rfl)
@[simp] theorem advance_ibuf (s : State) : s.advance.ibuf = s.ibuf := (rfl)
@[simp] theorem advance_imem (s : State) : s.advance.imem = s.imem := (rfl)
@[simp] theorem advance_pc (s : State) : s.advance.pc = s.pc + 1#32 := (rfl)
@[simp] theorem advance_startPc (s : State) : s.advance.startPc = s.startPc := (rfl)
@[simp] theorem advance_status (s : State) : s.advance.status = s.status := (rfl)
@[simp] theorem advance_faultPc (s : State) : s.advance.faultPc = s.faultPc := (rfl)
@[simp] theorem advance_faultInsn (s : State) : s.advance.faultInsn = s.faultInsn := (rfl)
@[simp] theorem advance_imemWords (s : State) : s.advance.imemWords = s.imemWords := (rfl)
@[simp] theorem advance_resetAsserted (s : State) : s.advance.resetAsserted = s.resetAsserted := (rfl)
@[simp] theorem advance_moves (s : State) : s.advance.moves = s.moves := (rfl)
@[simp] theorem advance_draws (s : State) : s.advance.draws = s.draws := (rfl)
@[simp] theorem advance_hostData (s : State) : s.advance.hostData = s.hostData := (rfl)
@[simp] theorem advance_readReg (s : State) (r : Reg) : s.advance.readReg r = s.readReg r := (rfl)
@[simp] theorem advance_readCarry (s : State) (k : Slot) : s.advance.readCarry k = s.readCarry k := (rfl)
@[simp] theorem advance_ibufByte (s : State) (a : Nat) : s.advance.ibufByte a = s.ibufByte a := (rfl)
@[simp] theorem advance_imemWord (s : State) (a : Nat) : s.advance.imemWord a = s.imemWord a := (rfl)

/-! `State.startRun` -/

@[simp] theorem startRun_regs (s : State) : s.startRun.regs = s.regs := (rfl)
@[simp] theorem startRun_carry (s : State) : s.startRun.carry = s.carry := (rfl)
@[simp] theorem startRun_mcount (s : State) : s.startRun.mcount = s.mcount := (rfl)
@[simp] theorem startRun_ibuf (s : State) : s.startRun.ibuf = s.ibuf := (rfl)
@[simp] theorem startRun_imem (s : State) : s.startRun.imem = s.imem := (rfl)
@[simp] theorem startRun_pc (s : State) : s.startRun.pc = s.startPc := (rfl)
@[simp] theorem startRun_startPc (s : State) : s.startRun.startPc = s.startPc := (rfl)
@[simp] theorem startRun_status (s : State) : s.startRun.status = { s.status with busy := true, done := false, fault := false, cause := .none } := (rfl)
@[simp] theorem startRun_faultPc (s : State) : s.startRun.faultPc = s.faultPc := (rfl)
@[simp] theorem startRun_faultInsn (s : State) : s.startRun.faultInsn = s.faultInsn := (rfl)
@[simp] theorem startRun_imemWords (s : State) : s.startRun.imemWords = s.imemWords := (rfl)
@[simp] theorem startRun_resetAsserted (s : State) : s.startRun.resetAsserted = s.resetAsserted := (rfl)
@[simp] theorem startRun_moves (s : State) : s.startRun.moves = s.moves := (rfl)
@[simp] theorem startRun_draws (s : State) : s.startRun.draws = s.draws := (rfl)
@[simp] theorem startRun_hostData (s : State) : s.startRun.hostData = s.hostData := (rfl)
@[simp] theorem startRun_readReg (s : State) (r : Reg) : s.startRun.readReg r = s.readReg r := (rfl)
@[simp] theorem startRun_readCarry (s : State) (k : Slot) : s.startRun.readCarry k = s.readCarry k := (rfl)
@[simp] theorem startRun_ibufByte (s : State) (a : Nat) : s.startRun.ibufByte a = s.ibufByte a := (rfl)
@[simp] theorem startRun_imemWord (s : State) (a : Nat) : s.startRun.imemWord a = s.imemWord a := (rfl)

/-! `State.endRun` -/

@[simp] theorem endRun_regs (s : State) : s.endRun.regs = s.regs := (rfl)
@[simp] theorem endRun_carry (s : State) : s.endRun.carry = s.carry := (rfl)
@[simp] theorem endRun_mcount (s : State) : s.endRun.mcount = s.mcount := (rfl)
@[simp] theorem endRun_ibuf (s : State) : s.endRun.ibuf = s.ibuf := (rfl)
@[simp] theorem endRun_imem (s : State) : s.endRun.imem = s.imem := (rfl)
@[simp] theorem endRun_pc (s : State) : s.endRun.pc = s.pc := (rfl)
@[simp] theorem endRun_startPc (s : State) : s.endRun.startPc = s.startPc := (rfl)
@[simp] theorem endRun_status (s : State) : s.endRun.status = { s.status with busy := false, done := true } := (rfl)
@[simp] theorem endRun_faultPc (s : State) : s.endRun.faultPc = s.faultPc := (rfl)
@[simp] theorem endRun_faultInsn (s : State) : s.endRun.faultInsn = s.faultInsn := (rfl)
@[simp] theorem endRun_imemWords (s : State) : s.endRun.imemWords = s.imemWords := (rfl)
@[simp] theorem endRun_resetAsserted (s : State) : s.endRun.resetAsserted = s.resetAsserted := (rfl)
@[simp] theorem endRun_moves (s : State) : s.endRun.moves = s.moves := (rfl)
@[simp] theorem endRun_draws (s : State) : s.endRun.draws = s.draws := (rfl)
@[simp] theorem endRun_hostData (s : State) : s.endRun.hostData = s.hostData := (rfl)
@[simp] theorem endRun_readReg (s : State) (r : Reg) : s.endRun.readReg r = s.readReg r := (rfl)
@[simp] theorem endRun_readCarry (s : State) (k : Slot) : s.endRun.readCarry k = s.readCarry k := (rfl)
@[simp] theorem endRun_ibufByte (s : State) (a : Nat) : s.endRun.ibufByte a = s.ibufByte a := (rfl)
@[simp] theorem endRun_imemWord (s : State) (a : Nat) : s.endRun.imemWord a = s.imemWord a := (rfl)

/-! `State.raiseFault` -/

@[simp] theorem raiseFault_regs (s : State) (c : Cause) (p w : BitVec 32) : (s.raiseFault c p w).regs = s.regs := (rfl)
@[simp] theorem raiseFault_carry (s : State) (c : Cause) (p w : BitVec 32) : (s.raiseFault c p w).carry = s.carry := (rfl)
@[simp] theorem raiseFault_mcount (s : State) (c : Cause) (p w : BitVec 32) : (s.raiseFault c p w).mcount = s.mcount := (rfl)
@[simp] theorem raiseFault_ibuf (s : State) (c : Cause) (p w : BitVec 32) : (s.raiseFault c p w).ibuf = s.ibuf := (rfl)
@[simp] theorem raiseFault_imem (s : State) (c : Cause) (p w : BitVec 32) : (s.raiseFault c p w).imem = s.imem := (rfl)
@[simp] theorem raiseFault_pc (s : State) (c : Cause) (p w : BitVec 32) : (s.raiseFault c p w).pc = s.pc := (rfl)
@[simp] theorem raiseFault_startPc (s : State) (c : Cause) (p w : BitVec 32) : (s.raiseFault c p w).startPc = s.startPc := (rfl)
@[simp] theorem raiseFault_status (s : State) (c : Cause) (p w : BitVec 32) : (s.raiseFault c p w).status = { s.status with busy := false, done := false, fault := true, cause := c } := (rfl)
@[simp] theorem raiseFault_faultPc (s : State) (c : Cause) (p w : BitVec 32) : (s.raiseFault c p w).faultPc = p := (rfl)
@[simp] theorem raiseFault_faultInsn (s : State) (c : Cause) (p w : BitVec 32) : (s.raiseFault c p w).faultInsn = w := (rfl)
@[simp] theorem raiseFault_imemWords (s : State) (c : Cause) (p w : BitVec 32) : (s.raiseFault c p w).imemWords = s.imemWords := (rfl)
@[simp] theorem raiseFault_resetAsserted (s : State) (c : Cause) (p w : BitVec 32) : (s.raiseFault c p w).resetAsserted = s.resetAsserted := (rfl)
@[simp] theorem raiseFault_moves (s : State) (c : Cause) (p w : BitVec 32) : (s.raiseFault c p w).moves = s.moves := (rfl)
@[simp] theorem raiseFault_draws (s : State) (c : Cause) (p w : BitVec 32) : (s.raiseFault c p w).draws = s.draws := (rfl)
@[simp] theorem raiseFault_hostData (s : State) (c : Cause) (p w : BitVec 32) : (s.raiseFault c p w).hostData = s.hostData := (rfl)
@[simp] theorem raiseFault_readReg (s : State) (c : Cause) (p w : BitVec 32) (r : Reg) : (s.raiseFault c p w).readReg r = s.readReg r := (rfl)
@[simp] theorem raiseFault_readCarry (s : State) (c : Cause) (p w : BitVec 32) (k : Slot) : (s.raiseFault c p w).readCarry k = s.readCarry k := (rfl)
@[simp] theorem raiseFault_ibufByte (s : State) (c : Cause) (p w : BitVec 32) (a : Nat) : (s.raiseFault c p w).ibufByte a = s.ibufByte a := (rfl)
@[simp] theorem raiseFault_imemWord (s : State) (c : Cause) (p w : BitVec 32) (a : Nat) : (s.raiseFault c p w).imemWord a = s.imemWord a := (rfl)

/-! `State.drawRead` -/

@[simp] theorem drawRead_regs (s : State) : s.drawRead.regs = s.regs := (rfl)
@[simp] theorem drawRead_carry (s : State) : s.drawRead.carry = s.carry := (rfl)
@[simp] theorem drawRead_mcount (s : State) : s.drawRead.mcount = s.mcount := (rfl)
@[simp] theorem drawRead_ibuf (s : State) : s.drawRead.ibuf = s.ibuf := (rfl)
@[simp] theorem drawRead_imem (s : State) : s.drawRead.imem = s.imem := (rfl)
@[simp] theorem drawRead_pc (s : State) : s.drawRead.pc = s.pc := (rfl)
@[simp] theorem drawRead_startPc (s : State) : s.drawRead.startPc = s.startPc := (rfl)
@[simp] theorem drawRead_status (s : State) : s.drawRead.status = s.status := (rfl)
@[simp] theorem drawRead_faultPc (s : State) : s.drawRead.faultPc = s.faultPc := (rfl)
@[simp] theorem drawRead_faultInsn (s : State) : s.drawRead.faultInsn = s.faultInsn := (rfl)
@[simp] theorem drawRead_imemWords (s : State) : s.drawRead.imemWords = s.imemWords := (rfl)
@[simp] theorem drawRead_resetAsserted (s : State) : s.drawRead.resetAsserted = s.resetAsserted := (rfl)
@[simp] theorem drawRead_moves (s : State) : s.drawRead.moves = s.moves := (rfl)
@[simp] theorem drawRead_draws (s : State) : s.drawRead.draws = s.draws + 1 := (rfl)
@[simp] theorem drawRead_hostData (s : State) : s.drawRead.hostData = Config.freeWord s.draws := (rfl)
@[simp] theorem drawRead_readReg (s : State) (r : Reg) : s.drawRead.readReg r = s.readReg r := (rfl)
@[simp] theorem drawRead_readCarry (s : State) (k : Slot) : s.drawRead.readCarry k = s.readCarry k := (rfl)
@[simp] theorem drawRead_ibufByte (s : State) (a : Nat) : s.drawRead.ibufByte a = s.ibufByte a := (rfl)
@[simp] theorem drawRead_imemWord (s : State) (a : Nat) : s.drawRead.imemWord a = s.imemWord a := (rfl)

/-! `State.refuseWrite` -/

@[simp] theorem refuseWrite_regs (s : State) : s.refuseWrite.regs = s.regs := (rfl)
@[simp] theorem refuseWrite_carry (s : State) : s.refuseWrite.carry = s.carry := (rfl)
@[simp] theorem refuseWrite_mcount (s : State) : s.refuseWrite.mcount = s.mcount := (rfl)
@[simp] theorem refuseWrite_ibuf (s : State) : s.refuseWrite.ibuf = s.ibuf := (rfl)
@[simp] theorem refuseWrite_imem (s : State) : s.refuseWrite.imem = s.imem := (rfl)
@[simp] theorem refuseWrite_pc (s : State) : s.refuseWrite.pc = s.pc := (rfl)
@[simp] theorem refuseWrite_startPc (s : State) : s.refuseWrite.startPc = s.startPc := (rfl)
@[simp] theorem refuseWrite_status (s : State) : s.refuseWrite.status = { s.status with hostConflict := true } := (rfl)
@[simp] theorem refuseWrite_faultPc (s : State) : s.refuseWrite.faultPc = s.faultPc := (rfl)
@[simp] theorem refuseWrite_faultInsn (s : State) : s.refuseWrite.faultInsn = s.faultInsn := (rfl)
@[simp] theorem refuseWrite_imemWords (s : State) : s.refuseWrite.imemWords = s.imemWords := (rfl)
@[simp] theorem refuseWrite_resetAsserted (s : State) : s.refuseWrite.resetAsserted = s.resetAsserted := (rfl)
@[simp] theorem refuseWrite_moves (s : State) : s.refuseWrite.moves = s.moves := (rfl)
@[simp] theorem refuseWrite_draws (s : State) : s.refuseWrite.draws = s.draws := (rfl)
@[simp] theorem refuseWrite_hostData (s : State) : s.refuseWrite.hostData = s.hostData := (rfl)
@[simp] theorem refuseWrite_readReg (s : State) (r : Reg) : s.refuseWrite.readReg r = s.readReg r := (rfl)
@[simp] theorem refuseWrite_readCarry (s : State) (k : Slot) : s.refuseWrite.readCarry k = s.readCarry k := (rfl)
@[simp] theorem refuseWrite_ibufByte (s : State) (a : Nat) : s.refuseWrite.ibufByte a = s.ibufByte a := (rfl)
@[simp] theorem refuseWrite_imemWord (s : State) (a : Nat) : s.refuseWrite.imemWord a = s.imemWord a := (rfl)

/-! The combined results are their parts (`Machine/Operands.lean`). -/

theorem setReg_eq (s : State) (rd : Reg) (v : Word) : s.setReg rd v = (s.writeReg rd v).advance := (rfl)
theorem setRegCarry_eq (s : State) (rd : Reg) (v : Word) (ck : Slot) (c : Bool) :
    s.setRegCarry rd v ck c = ((s.writeCarry ck c).writeReg rd v).advance := (rfl)

end Sys2Proof.Machine
end

