-- ==== Sys2Proof/Laws/Ops.lean ====
section
/-! SUPPORT. What each shared operation over registers, carry slots, the planes and the results can do, said once. -/

namespace Sys2Proof.Machine

/-! Payload. -/

@[simp] theorem getLsbD_mask63 (k : Nat) : mask63.getLsbD k = decide (k < 63) := by
  have h : mask63.toNat = 2 ^ 63 - 1 := rfl
  rw [BitVec.getLsbD, h, Nat.testBit_two_pow_sub_one]

@[simp] theorem getLsbD_payload (v : Word) (k : Nat) : (payload v).getLsbD k = (v.getLsbD k && decide (k < 63)) := by
  simp only [payload, BitVec.getLsbD_and, getLsbD_mask63]

/-- The same in simp's normal form for a literal index. -/
@[simp] theorem payload_getElem_63 (v : Word) : (payload v)[63] = false := by
  rw [← BitVec.getLsbD_eq_getElem, getLsbD_payload]
  simp

theorem payload_toNat (v : Word) : (payload v).toNat = v.toNat % 2 ^ 63 := by
  have h : mask63.toNat = 2 ^ 63 - 1 := rfl
  rw [payload, BitVec.toNat_and, h, Nat.and_two_pow_sub_one_eq_mod]

/-- A word with bit 63 clear is its own payload. -/
theorem payload_of_clear {v : Word} (h : v.getLsbD 63 = false) : payload v = v := by
  apply BitVec.eq_of_getLsbD_eq
  intro k hk
  rw [getLsbD_payload]
  by_cases h63 : k < 63
  · simp [h63]
  · have : k = 63 := by omega
    subst this
    simpa using h

/-- A word with bit 63 clear is below `2^63` (R135). -/
theorem toNat_lt_of_clear {v : Word} (h : v.getLsbD 63 = false) : v.toNat < 2 ^ 63 := by
  have := payload_toNat v
  rw [payload_of_clear h] at this
  omega

/-! Registers. -/

theorem readReg_writeReg (s : State) (i r : Reg) (v : Word) :
    (s.writeReg i v).readReg r = if i = r then payload v else s.readReg r := by
  simp only [State.readReg, State.writeReg, Vector.getElem_set, Fin.ext_iff]

@[simp] theorem readReg_writeReg_same (s : State) (i : Reg) (v : Word) : (s.writeReg i v).readReg i = payload v := by
  rw [readReg_writeReg, if_pos rfl]

theorem readReg_writeReg_other (s : State) {i r : Reg} (v : Word) (h : r ≠ i) :
    (s.writeReg i v).readReg r = s.readReg r := by
  rw [readReg_writeReg, if_neg (Ne.symm h)]

/-! Carry slots. -/

theorem getLsbD_setBit (c : BitVec 64) (j : Slot) (b : Bool) (k : Nat) (hk : k < 64) :
    (setBit c j b).getLsbD k = if j.val = k then b else c.getLsbD k := by
  have hj := j.isLt
  unfold setBit
  by_cases hjk : j.val = k
  · subst hjk
    cases b <;> simp
  · have : (1#64 <<< j.val).getLsbD k = false := by
      rw [BitVec.getLsbD_shiftLeft, BitVec.getLsbD_one]
      by_cases hlt : k < j.val
      · simp [hlt]
      · have : k - j.val ≠ 0 := by omega
        simp [this]
    cases b <;> simp only [if_true, if_neg hjk, BitVec.getLsbD_or, BitVec.getLsbD_and, BitVec.getLsbD_not, this,
      Bool.or_false, hk, decide_true, Bool.not_false, Bool.and_true, Bool.false_eq_true, if_false]

theorem readCarry_writeCarry (s : State) (j k : Slot) (b : Bool) :
    (s.writeCarry j b).readCarry k = if j = k then b else s.readCarry k := by
  simp only [State.readCarry, State.writeCarry, getLsbD_setBit _ _ _ _ k.isLt, Fin.ext_iff]

@[simp] theorem readCarry_writeCarry_same (s : State) (j : Slot) (b : Bool) : (s.writeCarry j b).readCarry j = b := by
  rw [readCarry_writeCarry, if_pos rfl]

theorem readCarry_writeCarry_other (s : State) {j k : Slot} (b : Bool) (h : k ≠ j) :
    (s.writeCarry j b).readCarry k = s.readCarry k := by
  rw [readCarry_writeCarry, if_neg (Ne.symm h)]

/-! Results of commands. -/

theorem keepsRest_refl (s : State) : KeepsRest s s := by simp [KeepsRest]

/-- What `State.setReg` does, whole: the register, the `PC`, and nothing else. -/
theorem setReg_spec (s : State) (rd : Reg) (v : Word) :
    (s.setReg rd v).readReg rd = payload v ∧ (s.setReg rd v).pc = s.pc + 1#32 ∧
      ChangesOnly [rd] [] s (s.setReg rd v) := by
  refine ⟨by simp [setReg_eq], rfl, ?_⟩
  refine ⟨fun r hr => ?_, fun j _ => rfl, rfl, rfl, keepsRest_refl s⟩
  rw [setReg_eq, advance_readReg]
  exact readReg_writeReg_other s v (by simpa using hr)

/-- What `State.setRegCarry` does, whole: the register, the carry slot, the `PC`, and nothing else. -/
theorem setRegCarry_spec (s : State) (rd : Reg) (v : Word) (ck : Slot) (c : Bool) :
    (s.setRegCarry rd v ck c).readReg rd = payload v ∧ (s.setRegCarry rd v ck c).readCarry ck = c ∧
      (s.setRegCarry rd v ck c).pc = s.pc + 1#32 ∧ ChangesOnly [rd] [ck] s (s.setRegCarry rd v ck c) := by
  refine ⟨by simp [setRegCarry_eq], by simp [setRegCarry_eq], rfl, ?_⟩
  refine ⟨fun r hr => ?_, fun j hj => ?_, rfl, rfl, keepsRest_refl s⟩
  · rw [setRegCarry_eq, advance_readReg, readReg_writeReg_other _ v (by simpa using hr), writeCarry_readReg]
  · rw [setRegCarry_eq, advance_readCarry, writeReg_readCarry, readCarry_writeCarry_other s c (by simpa using hj)]

/-! Sums, shifts and counts. -/

/-- R131: bit 0 of ADV's value is the carry-in, and each later bit is the bit before of `m & cc`. -/
theorem advWord_getLsbD (m cc : Word) (c : Bool) (k : Nat) (hk : k < 64) :
    (advWord m cc c).getLsbD k = if k = 0 then c else (m.getLsbD (k - 1) && cc.getLsbD (k - 1)) := by
  rw [advWord, BitVec.getLsbD_or, BitVec.getLsbD_shiftLeft, BitVec.getLsbD_setWidth, BitVec.getLsbD_ofBool,
    BitVec.getLsbD_and]
  by_cases h : k = 0
  · simp [h]
  · simp [h, hk]

/-- A bit of an exact sum is the operands' bits and the carry into that position. -/
theorem exactSum_testBit (a b : Word) (c : Bool) (k : Nat) (hk : k < 64) :
    (exactSum a b c).testBit k = (a.getLsbD k ^^ (b.getLsbD k ^^ BitVec.carry k a b c)) := by
  have hm : (exactSum a b c).testBit k = (exactSum a b c % 2 ^ 64).testBit k := by
    rw [Nat.testBit_mod_two_pow, decide_eq_true hk, Bool.true_and]
  rw [hm, ← BitVec.getLsbD_add_add_bool hk, BitVec.getLsbD, BitVec.toNat_add, BitVec.toNat_add]
  congr 1
  unfold exactSum
  simp

theorem sumWord_getLsbD (t k : Nat) (hk : k < 64) : (sumWord t).getLsbD k = t.testBit k := by
  rw [sumWord, BitVec.getLsbD_ofNat, decide_eq_true hk, Bool.true_and]

theorem payload_sumWord_toNat (t : Nat) : (payload (sumWord t)).toNat = t % 2 ^ 63 := by
  rw [payload_toNat, sumWord, BitVec.toNat_ofNat]
  exact Nat.mod_mod_of_dvd t ⟨2, rfl⟩

/-- R135: with both operands payloads, an exact sum is below `2^64`. -/
theorem exactSum_lt {a b : Word} (ha : a.getLsbD 63 = false) (hb : b.getLsbD 63 = false) (c : Bool) :
    exactSum a b c < 2 ^ 64 := by
  have := toNat_lt_of_clear ha
  have := toNat_lt_of_clear hb
  have : c.toNat ≤ 1 := Bool.toNat_le c
  unfold exactSum
  omega

theorem popcount_eq_filter_length (v : Word) :
    popcount v = ((List.range 64).filter (fun k => v.getLsbD k)).length := List.countP_eq_length_filter

theorem popcount_le (v : Word) : popcount v ≤ 64 := by
  have := List.countP_le_length (p := fun k => v.getLsbD k) (l := List.range 64)
  simpa [popcount] using this

/-! Planes. -/

/-- The fold behind a plane, for the first `n` bytes of a block of at most 64. -/
theorem planeFold_getLsbD (f : Nat → Bool) (n k : Nat) (hn : n ≤ 64) :
    ((List.range n).foldl (fun (v : Word) i => v ||| ((BitVec.ofBool (f i)).setWidth 64 <<< i)) 0#64).getLsbD k =
      (decide (k < n) && f k) := by
  induction n with
  | zero => simp
  | succ n ih =>
    rw [List.range_succ, List.foldl_append, List.foldl_cons, List.foldl_nil, BitVec.getLsbD_or, ih (by omega),
      BitVec.getLsbD_shiftLeft, BitVec.getLsbD_setWidth]
    by_cases hk : k < n
    · have h1 : k < n + 1 := by omega
      simp [hk, h1]
    · by_cases hkn : k = n
      · subst hkn
        have h64 : k < 64 := by omega
        simp [h64]
      · have h1 : ¬ k < n + 1 := by omega
        have h2 : k - n ≠ 0 := by omega
        simp [hk, h1, BitVec.getLsbD_ofBool, h2]

/-- R100: bit `i` of plane `p` is bit `p` of byte `i`, for the 63 payload bytes. -/
theorem plane_getLsbD (s : State) (p k : Nat) :
    (s.plane p).getLsbD k = (decide (k < 63) && (s.ibufByte k).getLsbD p) :=
  planeFold_getLsbD (fun i => (s.ibufByte i).getLsbD p) 63 k (by omega)

/-- The fold behind `State.writePlanes`, over any list of registers. -/
theorem readReg_foldPlanes (src : State) (l : List Reg) (s : State) (r : Reg) :
    (l.foldl (fun t p => t.writeReg p (src.plane p.val)) s).readReg r =
      if r ∈ l then payload (src.plane r.val) else s.readReg r := by
  induction l generalizing s with
  | nil => simp
  | cons p l ih =>
    rw [List.foldl_cons, ih, readReg_writeReg]
    by_cases hl : r ∈ l
    · simp [hl]
    · by_cases hp : p = r
      · simp [hp]
      · simp [hl, hp, Ne.symm hp]

theorem mem_basisRegs : ∀ r : Reg, r ∈ basisRegs ↔ r.val < 8 := by decide

/-- R100: what `State.writePlanes` leaves in a register. -/
theorem readReg_writePlanes (s src : State) (r : Reg) :
    (s.writePlanes src).readReg r = if r.val < 8 then payload (src.plane r.val) else s.readReg r := by
  rw [State.writePlanes, readReg_foldPlanes]
  simp only [mem_basisRegs]

/-- Writing registers one after another changes nothing but the register file. -/
theorem foldRegs_rest (f : Reg → Word) (l : List Reg) (s : State) :
    ∃ regs, l.foldl (fun t p => t.writeReg p (f p)) s = { s with regs := regs } := by
  induction l generalizing s with
  | nil => exact ⟨s.regs, rfl⟩
  | cons p l ih =>
    obtain ⟨regs, h⟩ := ih (s.writeReg p (f p))
    exact ⟨regs, by rw [List.foldl_cons, h]; rfl⟩

/-- What `State.writePlanes` leaves alone. -/
theorem writePlanes_rest (s src : State) : ∃ regs, s.writePlanes src = { s with regs := regs } :=
  foldRegs_rest (fun p => src.plane p.val) basisRegs s

@[simp] theorem writePlanes_carry (s src : State) : (s.writePlanes src).carry = s.carry := by
  obtain ⟨_, h⟩ := writePlanes_rest s src; rw [h]
@[simp] theorem writePlanes_mcount (s src : State) : (s.writePlanes src).mcount = s.mcount := by
  obtain ⟨_, h⟩ := writePlanes_rest s src; rw [h]
@[simp] theorem writePlanes_ibuf (s src : State) : (s.writePlanes src).ibuf = s.ibuf := by
  obtain ⟨_, h⟩ := writePlanes_rest s src; rw [h]
@[simp] theorem writePlanes_imem (s src : State) : (s.writePlanes src).imem = s.imem := by
  obtain ⟨_, h⟩ := writePlanes_rest s src; rw [h]
@[simp] theorem writePlanes_pc (s src : State) : (s.writePlanes src).pc = s.pc := by
  obtain ⟨_, h⟩ := writePlanes_rest s src; rw [h]
@[simp] theorem writePlanes_startPc (s src : State) : (s.writePlanes src).startPc = s.startPc := by
  obtain ⟨_, h⟩ := writePlanes_rest s src; rw [h]
@[simp] theorem writePlanes_status (s src : State) : (s.writePlanes src).status = s.status := by
  obtain ⟨_, h⟩ := writePlanes_rest s src; rw [h]
@[simp] theorem writePlanes_faultPc (s src : State) : (s.writePlanes src).faultPc = s.faultPc := by
  obtain ⟨_, h⟩ := writePlanes_rest s src; rw [h]
@[simp] theorem writePlanes_faultInsn (s src : State) : (s.writePlanes src).faultInsn = s.faultInsn := by
  obtain ⟨_, h⟩ := writePlanes_rest s src; rw [h]
@[simp] theorem writePlanes_imemWords (s src : State) : (s.writePlanes src).imemWords = s.imemWords := by
  obtain ⟨_, h⟩ := writePlanes_rest s src; rw [h]
@[simp] theorem writePlanes_resetAsserted (s src : State) : (s.writePlanes src).resetAsserted = s.resetAsserted := by
  obtain ⟨_, h⟩ := writePlanes_rest s src; rw [h]
@[simp] theorem writePlanes_moves (s src : State) : (s.writePlanes src).moves = s.moves := by
  obtain ⟨_, h⟩ := writePlanes_rest s src; rw [h]
@[simp] theorem writePlanes_draws (s src : State) : (s.writePlanes src).draws = s.draws := by
  obtain ⟨_, h⟩ := writePlanes_rest s src; rw [h]
@[simp] theorem writePlanes_hostData (s src : State) : (s.writePlanes src).hostData = s.hostData := by
  obtain ⟨_, h⟩ := writePlanes_rest s src; rw [h]
@[simp] theorem writePlanes_readCarry (s src : State) (j : Slot) : (s.writePlanes src).readCarry j = s.readCarry j := by
  obtain ⟨_, h⟩ := writePlanes_rest s src; rw [h]; rfl
@[simp] theorem writePlanes_ibufByte (s src : State) (a : Nat) : (s.writePlanes src).ibufByte a = s.ibufByte a := by
  obtain ⟨_, h⟩ := writePlanes_rest s src; rw [h]; rfl
@[simp] theorem writePlanes_imemWord (s src : State) (a : Nat) : (s.writePlanes src).imemWord a = s.imemWord a := by
  obtain ⟨_, h⟩ := writePlanes_rest s src; rw [h]; rfl

/-- TRANSPOSE (R100): its registers, and nothing else. -/
theorem transpose_changesOnly (s : State) : ChangesOnly [0, 1, 2, 3, 4, 5, 6, 7] [] s (s.writePlanes s).advance := by
  have hmem : ∀ r : Reg, r ∉ ([0, 1, 2, 3, 4, 5, 6, 7] : List Reg) → ¬r.val < 8 := by decide
  refine ⟨fun r hr => ?_, fun j _ => by simp, by simp, by simp, by simp [KeepsRest]⟩
  rw [advance_readReg, readReg_writePlanes, if_neg (hmem r hr)]

end Sys2Proof.Machine
end

