-- ==== Sys2Proof/Laws/Expr.lean ====
section
/-! SUPPORT. The canonicalising constructors keep the value of an expression (spec/49_host_cc_reference.md R182 to
R188). -/

namespace Sys2Proof

open Sys2Proof.Machine

@[simp] theorem eval_mkNot (b : Byte) (e : BoolExpr) : (mkNot e).eval b = !e.eval b := by
  cases e <;> simp [mkNot, BoolExpr.eval]

/-- Structurally equal expressions have equal values. -/
theorem eval_of_same (b : Byte) {x y : BoolExpr} (h : x.same y = true) : x.eval b = y.eval b := by
  induction x generalizing y with
  | bit j => cases y <;> simp_all [BoolExpr.same, BoolExpr.eval]
  | tru => cases y <;> simp_all [BoolExpr.same, BoolExpr.eval]
  | fls => cases y <;> simp_all [BoolExpr.same, BoolExpr.eval]
  | neg e ih => cases y <;> simp_all [BoolExpr.same, BoolExpr.eval]; rw [ih h]
  | conj l r ihl ihr =>
    cases y <;> simp only [BoolExpr.same, Bool.or_eq_true, Bool.and_eq_true, Bool.false_eq_true] at h
    rcases h with ⟨h1, h2⟩ | ⟨h1, h2⟩
    · simp only [BoolExpr.eval, ihl h1, ihr h2]
    · simp only [BoolExpr.eval, ihl h1, ihr h2, Bool.and_comm]
  | disj l r ihl ihr =>
    cases y <;> simp only [BoolExpr.same, Bool.or_eq_true, Bool.and_eq_true, Bool.false_eq_true] at h
    rcases h with ⟨h1, h2⟩ | ⟨h1, h2⟩
    · simp only [BoolExpr.eval, ihl h1, ihr h2]
    · simp only [BoolExpr.eval, ihl h1, ihr h2, Bool.or_comm]
  | ite c t e ihc iht ihe =>
    cases y <;> simp only [BoolExpr.same, Bool.and_eq_true, Bool.false_eq_true] at h
    simp only [BoolExpr.eval, ihc h.1.1, iht h.1.2, ihe h.2]

/-- R185: a common factor may be taken out. -/
theorem eval_commonFactor (b : Byte) {l r x y z : BoolExpr} (h : commonFactor l r = some (x, y, z)) :
    (l.eval b || r.eval b) = (x.eval b && (y.eval b || z.eval b)) := by
  unfold commonFactor at h
  split at h
  · simp only [BoolExpr.eval]
    split at h
    · next hs => cases h; rw [eval_of_same b hs, Bool.and_or_distrib_left]
    · split at h
      · next hs => cases h; rw [eval_of_same b hs, Bool.and_or_distrib_left, Bool.and_comm (z.eval b)]
      · split at h
        · next hs => cases h; rw [eval_of_same b hs, Bool.and_or_distrib_left, Bool.and_comm (y.eval b)]
        · split at h
          · next hs =>
            cases h
            rw [eval_of_same b hs, Bool.and_or_distrib_left, Bool.and_comm (y.eval b), Bool.and_comm (z.eval b)]
          · cases h
  · cases h

theorem bothNegated_eq {l r a c : BoolExpr} (h : bothNegated l r = some (a, c)) : l = .neg a ∧ r = .neg c := by
  unfold bothNegated at h
  split at h
  · cases h; exact ⟨rfl, rfl⟩
  · cases h

/-- R184, R185: both constructors compute their operation, to any depth of calls. -/
theorem eval_mkAndTo_mkOrTo (b : Byte) (n : Nat) : ∀ l r : BoolExpr,
    (mkAndTo n l r).eval b = (l.eval b && r.eval b) ∧ (mkOrTo n l r).eval b = (l.eval b || r.eval b) := by
  induction n with
  | zero => intro l r; exact ⟨rfl, rfl⟩
  | succ n ih =>
    intro l r
    constructor
    · rw [mkAndTo]
      split
      · next h => rcases h with h | h <;> simp [h, BoolExpr.eval]
      · split
        · next h => simp [h, BoolExpr.eval]
        · split
          · next h => simp [h, BoolExpr.eval]
          · split
            · next a c h =>
              obtain ⟨rfl, rfl⟩ := bothNegated_eq h
              simp [(ih a c).2, BoolExpr.eval]
            · rfl
    · rw [mkOrTo]
      split
      · next h => rcases h with h | h <;> simp [h, BoolExpr.eval]
      · split
        · next h => simp [h, BoolExpr.eval]
        · split
          · next h => simp [h, BoolExpr.eval]
          · split
            · next a c h =>
              obtain ⟨rfl, rfl⟩ := bothNegated_eq h
              simp [(ih a c).1, BoolExpr.eval]
            · split
              · next x y z h => rw [(ih _ _).1, (ih _ _).2, eval_commonFactor b h]
              · rfl

@[simp] theorem eval_mkAnd (b : Byte) (l r : BoolExpr) : (mkAnd l r).eval b = (l.eval b && r.eval b) :=
  (eval_mkAndTo_mkOrTo b _ l r).1

@[simp] theorem eval_mkOr (b : Byte) (l r : BoolExpr) : (mkOr l r).eval b = (l.eval b || r.eval b) :=
  (eval_mkAndTo_mkOrTo b _ l r).2

@[simp] theorem eval_mkSel (b : Byte) (c t e : BoolExpr) :
    (mkSel c t e).eval b = if c.eval b then t.eval b else e.eval b := by
  unfold mkSel
  split
  · next h => simp [h, BoolExpr.eval]
  · split
    · next h => simp [h, BoolExpr.eval]
    · split
      · next h => rw [eval_of_same b h]; simp
      · split
        · next h => cases hc : c.eval b <;> simp [h, hc, BoolExpr.eval]
        · split
          · next h => cases hc : c.eval b <;> simp [h, hc, BoolExpr.eval]
          · split
            · next h => cases hc : c.eval b <;> simp [h, hc, BoolExpr.eval]
            · split
              · next h => cases hc : c.eval b <;> simp [h, hc, BoolExpr.eval]
              · rfl

theorem eval_bitAt (b : Byte) (k : Nat) (hk : k < 8) : (bitAt k).eval b = b.getLsbD k := by
  simp [bitAt, BoolExpr.eval, Fin.ofNat, Nat.mod_eq_of_lt hk]

/-- R189: a round of the balanced reduction keeps the conjunction of the list. -/
theorem all_pairUp (b : Byte) (es : List BoolExpr) :
    (pairUp es).all (fun e => e.eval b) = es.all (fun e => e.eval b) := by
  induction es using pairUp.induct with
  | case1 x y rest ih => simp [pairUp, ih, Bool.and_assoc]
  | case2 rest h => rw [pairUp]; exact h

/-- R188 to R191: the value of a left-to-right `Or` of ranges. -/
theorem eval_foldl_mkOr (b : Byte) (rs : List ByteRange) (e : BoolExpr) :
    (rs.foldl (fun e q => mkOr e (rangeExpr q)) e).eval b = (e.eval b || rs.any (fun q => (rangeExpr q).eval b)) := by
  induction rs generalizing e with
  | nil => simp
  | cons q rs ih => simp [ih, Bool.or_assoc]

end Sys2Proof
end

