-- ==== Sys2Proof/Laws/Step.lean ====
section
/-! SUPPORT. What a command, a sequencer step and a step of the machine can do, each said once. -/

namespace Sys2Proof.Machine

/-- What any command does: HALT ends the run; every other one writes at most registers, carry slots and `MCOUNT`, and
advances the `PC`. -/
theorem exec_shape (i : Instr) (s : State) :
    (i = .halt ∧ exec i s = .next s.endRun) ∨
      (i ≠ .halt ∧ ∃ regs carry mcount,
        exec i s = .next { s with regs := regs, carry := carry, mcount := mcount, pc := s.pc + 1#32 }) := by
  cases i with
  | halt => exact .inl ⟨rfl, rfl⟩
  | transpose =>
    obtain ⟨regs, h⟩ := writePlanes_rest s s
    refine .inr ⟨by simp, regs, s.carry, s.mcount, ?_⟩
    change Host.Outcome.next (s.writePlanes s).advance = _
    rw [h]
    rfl
  | nop => exact .inr ⟨by simp, _, _, _, rfl⟩
  | setTrue rd => exact .inr ⟨by simp, _, _, _, rfl⟩
  | setFalse rd => exact .inr ⟨by simp, _, _, _, rfl⟩
  | band rd ra rb => exact .inr ⟨by simp, _, _, _, rfl⟩
  | bor rd ra rb => exact .inr ⟨by simp, _, _, _, rfl⟩
  | bxor rd ra rb => exact .inr ⟨by simp, _, _, _, rfl⟩
  | bnot rd ra => exact .inr ⟨by simp, _, _, _, rfl⟩
  | sel rd a b c => exact .inr ⟨by simp, _, _, _, rfl⟩
  | adv rd a b c => exact .inr ⟨by simp, _, _, _, rfl⟩
  | mstar rd a b c => exact .inr ⟨by simp, _, _, _, rfl⟩
  | scanthru rd a b => exact .inr ⟨by simp, _, _, _, rfl⟩
  | addc rd a b c => exact .inr ⟨by simp, _, _, _, rfl⟩
  | popc rd ra => exact .inr ⟨by simp, _, _, _, rfl⟩
  | accpop ra => exact .inr ⟨by simp, _, _, _, rfl⟩
  | clrc ck => exact .inr ⟨by simp, _, _, _, rfl⟩

/-- What a sequencer step does: nothing while idle or under reset, the fetch fault beyond IMEM, the decode fault of an
illegal word, or the command at the `PC`. -/
theorem sequencerStep_cases (s : State) :
    ((s.status.busy = false ∨ s.resetAsserted = true) ∧ s.sequencerStep = .next s) ∨
      (s.status.busy = true ∧ s.resetAsserted = false ∧ s.imemWords ≤ s.pc.toNat ∧
        s.sequencerStep = .next (s.raiseFault .fetchRange s.pc 0#32)) ∨
      (s.status.busy = true ∧ s.resetAsserted = false ∧ s.pc.toNat < s.imemWords ∧
        (∃ why, decode (s.imemWord s.pc.toNat) = .error why) ∧
        s.sequencerStep = .next (s.raiseFault .illegalInstruction s.pc (s.imemWord s.pc.toNat))) ∨
      (∃ i, s.runs i ∧ s.sequencerStep = exec i s) := by
  by_cases hb : s.status.busy = true
  · by_cases hr : s.resetAsserted = true
    · left; simp [State.sequencerStep, hr]
    · rw [Bool.not_eq_true] at hr
      right
      have hseq : s.sequencerStep = s.runStep := by simp [State.sequencerStep, hb, hr]
      by_cases hf : s.imemWords ≤ s.pc.toNat
      · left
        refine ⟨hb, hr, hf, ?_⟩
        rw [hseq, State.runStep, State.fetch, if_pos hf]
      · right
        have hrun : s.runStep = s.executeWord (s.imemWord s.pc.toNat) := by
          rw [State.runStep, State.fetch, if_neg hf]
        cases hd : decode (s.imemWord s.pc.toNat) with
        | error why =>
          left
          refine ⟨hb, hr, by omega, ⟨why, rfl⟩, ?_⟩
          rw [hseq, hrun, State.executeWord, hd]
        | ok i =>
          right
          refine ⟨i, ⟨hb, hr, by omega, hd⟩, ?_⟩
          rw [hseq, hrun, State.executeWord, hd]
  · left
    rw [Bool.not_eq_true] at hb
    simp [State.sequencerStep, hb]

@[simp] theorem step_sequencer_nil (s : State) : step { s with moves := [] } = State.sequencerStep { s with moves := [] } :=
  (rfl)

@[simp] theorem step_cons (s : State) (m : Move) (rest : List Move) :
    step { s with moves := m :: rest } = State.perform { s with moves := rest } m := (rfl)

theorem step_of_moves_nil {s : State} (h : s.moves = []) : step s = s.sequencerStep := by
  rw [step, State.nextMove, h]

theorem step_of_moves_cons {s : State} {m : Move} {rest : List Move} (h : s.moves = m :: rest) :
    step s = State.perform { s with moves := rest } m := by
  rw [step, State.nextMove, h]

/-- A host read changes nothing of the block. -/
theorem hostRead_rest (s : State) (offset : BitVec 16) :
    s.hostRead offset = { s with hostData := (s.hostRead offset).hostData, draws := (s.hostRead offset).draws } := by
  unfold State.hostRead
  split <;> rfl

/-- What a host write may do, by the location it names. -/
theorem hostWrite_cases (s : State) (offset : BitVec 16) (w : BitVec 32) :
    (s.resetAsserted = true ∧ s.hostWrite offset w = s) ∨
      (s.resetAsserted = false ∧ s.status.busy = true ∧ s.locOf offset ≠ .status ∧
        s.hostWrite offset w = s.refuseWrite) ∨
      (s.resetAsserted = false ∧ s.locOf offset = .status ∧ s.hostWrite offset w = s.writeStatus w) ∨
      (s.idle ∧ s.locOf offset ≠ .status ∧ s.hostWrite offset w = s.idleWrite w (s.locOf offset)) := by
  by_cases hr : s.resetAsserted = true
  · exact .inl ⟨hr, by simp [State.hostWrite, hr]⟩
  · rw [Bool.not_eq_true] at hr
    right
    by_cases hl : s.locOf offset = .status
    · right; left
      exact ⟨hr, hl, by simp [State.hostWrite, hr, hl, State.idleWrite]⟩
    · by_cases hb : s.status.busy = true
      · exact .inl ⟨hr, hb, hl, by simp [State.hostWrite, hr, hl, hb]⟩
      · rw [Bool.not_eq_true] at hb
        right; right
        exact ⟨⟨hb, hr⟩, hl, by simp [State.hostWrite, hr, hb]⟩

end Sys2Proof.Machine
end

