-- ==== Sys2Proof/Laws/HostLoop.lean ====
section
/-! SUPPORT. What the host's loop does to the machine, said once for each of its operations: the steps it plays, a word it
reads, a poll, and the count. -/

namespace Sys2Proof

open Sys2Proof.Machine

@[simp] theorem playMoves_nil (s : State) : playMoves [] s = some s := (rfl)

/-- One access or step of the host's is one step of the machine with nothing else due. -/
theorem playMoves_cons_of_next {s t : State} {m : Move} (h : State.perform { s with moves := [] } m = .next t)
    (ms : List Move) : playMoves (m :: ms) s = playMoves ms t := by
  rw [playMoves, step_cons, h]

/-- Two lists of moves played one after the other. -/
theorem playMoves_append (ms ms' : List Move) (s : State) :
    playMoves (ms ++ ms') s = (playMoves ms s).bind (playMoves ms') := by
  induction ms generalizing s with
  | nil => rfl
  | cons m ms ih =>
    rw [List.cons_append, playMoves, playMoves]
    cases step { s with moves := [m] } with
    | next t => exact ih t
    | fault _ => rfl
    | refused _ => rfl

/-- A word read is the one step of the host's read. -/
@[simp] theorem readWord_eq (offset : BitVec 16) (s : State) :
    readWord offset s =
      some (State.hostRead { s with moves := [] } offset, (State.hostRead { s with moves := [] } offset).hostData) := (rfl)

/-- A poll that finds the run ended. -/
theorem awaitEnd_idle (pace fuel : Nat) {s : State}
    (h : (State.hostRead { s with moves := [] } 0x004#16).hostData.getLsbD 0 = false) :
    awaitEnd pace (fuel + 1) s =
      some (State.hostRead { s with moves := [] } 0x004#16,
        (State.hostRead { s with moves := [] } 0x004#16).hostData) := by
  simp only [awaitEnd, readWord_eq, Option.bind_some, h, Bool.false_eq_true, if_false]

/-- A poll that finds the run still going on. -/
theorem awaitEnd_busy (pace fuel : Nat) {s : State}
    (h : (State.hostRead { s with moves := [] } 0x004#16).hostData.getLsbD 0 = true) :
    awaitEnd pace (fuel + 1) s =
      (playMoves (List.replicate (pace + 1) .sequencer) (State.hostRead { s with moves := [] } 0x004#16)).bind
        (awaitEnd pace fuel) := by
  simp only [awaitEnd, readWord_eq, Option.bind_some, h, if_true]

/-- The loop over no more blocks reads the count. -/
theorem blockLoop_nil (pace : Nat) (pad : Byte) (s : State) :
    blockLoop pace pad [] s = (readCount s).map fun q => .counted q.1 q.2 := (rfl)

/-- The loop over a block and more. -/
theorem blockLoop_cons (pace : Nat) (pad : Byte) (b : List Byte) (bs : List (List Byte)) (s : State) :
    blockLoop pace pad (b :: bs) s =
      (runBlock pace pad b s).bind fun q =>
        if endedByHalt q.2 then blockLoop pace pad bs q.1 else some (.failed q.1 q.2) := (rfl)

@[simp] theorem compilePattern_nil : compilePattern [] = some [] := (rfl)

@[simp] theorem compilePattern_cons (c : CharClass) (cs : List CharClass) :
    compilePattern (c :: cs) = c.compile.bind fun e => (compilePattern cs).map fun p => (c, e) :: p := (rfl)

end Sys2Proof
end

