-- ==== Sys2Proof/Laws/PerInstr.lean ====
section
/-! SUPPORT. The statements made per command. `EncodesRow`: the encoding of a command has its row's `OPC` in `w[31:26]`
and no reserved bit of its row's format set (spec/30_encoding.md R82, R85), so its own row of the opcode map is there to
accept it. -/

namespace Sys2Proof.Laws.EncodesRow

/-- Some row of the opcode map is the command's, its `OPC` is the encoding's, and its reserved bits are 0 there. -/
def Statement (i : Instr) : Prop :=
  ∃ r ∈ opcodeTable, r.op = i.op ∧ r.opc.toNat = opcOf (encode i) ∧ encode i &&& r.format.reserved = 0#32

/-- A packed word has its row's `OPC`, and its reserved bits are 0 when its operands leave them so. -/
theorem packed {i : Instr} {r : Row} {rd ra low : Nat} (hr : r ∈ opcodeTable) (hop : r.op = i.op)
    (he : encode i = packWord r.opc.toNat rd ra low) (hd : rd < 32) (ha : ra < 32) (hl : low < 2 ^ 16)
    (hz : packWord r.opc.toNat rd ra low &&& r.format.reserved = 0#32) : Statement i := by
  refine ⟨r, hr, hop, ?_, by rw [he]; exact hz⟩
  rw [he, (packWord_fields r.opc.isLt hd ha hl).1]

theorem nop : Statement .nop :=
  packed (r := ⟨.nop, 0x01#6, .N, 0x04000000#32, 0xFFFFFFFF#32⟩) (by decide) rfl rfl (by omega) (by omega) (by omega)
    (by decide)

theorem halt : Statement .halt :=
  packed (r := ⟨.halt, 0x02#6, .N, 0x08000000#32, 0xFFFFFFFF#32⟩) (by decide) rfl rfl (by omega) (by omega) (by omega)
    (by decide)

theorem transpose : Statement .transpose :=
  packed (r := ⟨.transpose, 0x03#6, .N, 0x0C000000#32, 0xFFFFFFFF#32⟩) (by decide) rfl rfl (by omega) (by omega)
    (by omega) (by decide)

theorem setTrue (rd : Reg) : Statement (.setTrue rd) := by
  have := reg_lt rd
  refine packed (r := ⟨.setTrue, 0x04#6, .D, 0x10000000#32, 0xFC1FFFFF#32⟩) (by decide) rfl rfl (by omega) (by omega)
    (by omega) ?_
  rw [reserved_eq_zero, toNat_packWord (by decide) (by omega) (by omega) (by omega)]
  simp only
  simp only [BitVec.reduceToNat]
  omega

theorem setFalse (rd : Reg) : Statement (.setFalse rd) := by
  have := reg_lt rd
  refine packed (r := ⟨.setFalse, 0x05#6, .D, 0x14000000#32, 0xFC1FFFFF#32⟩) (by decide) rfl rfl (by omega) (by omega)
    (by omega) ?_
  rw [reserved_eq_zero, toNat_packWord (by decide) (by omega) (by omega) (by omega)]
  simp only
  simp only [BitVec.reduceToNat]
  omega

theorem band (rd : Reg) (ra : Reg) (rb : Reg) : Statement (.band rd ra rb) := by
  have := reg_lt rd
  have := reg_lt ra
  have := reg_lt rb
  refine packed (r := ⟨.band, 0x06#6, .R2, 0x18000000#32, 0xFC0007FF#32⟩) (by decide) rfl rfl (by omega) (by omega)
    (by simp only [atRb]; omega) ?_
  rw [reserved_eq_zero, toNat_packWord (by decide) (by omega) (by omega) (by simp only [atRb]; omega)]
  simp only [atRb]
  simp only [BitVec.reduceToNat]
  omega

theorem bor (rd : Reg) (ra : Reg) (rb : Reg) : Statement (.bor rd ra rb) := by
  have := reg_lt rd
  have := reg_lt ra
  have := reg_lt rb
  refine packed (r := ⟨.bor, 0x07#6, .R2, 0x1C000000#32, 0xFC0007FF#32⟩) (by decide) rfl rfl (by omega) (by omega)
    (by simp only [atRb]; omega) ?_
  rw [reserved_eq_zero, toNat_packWord (by decide) (by omega) (by omega) (by simp only [atRb]; omega)]
  simp only [atRb]
  simp only [BitVec.reduceToNat]
  omega

theorem bxor (rd : Reg) (ra : Reg) (rb : Reg) : Statement (.bxor rd ra rb) := by
  have := reg_lt rd
  have := reg_lt ra
  have := reg_lt rb
  refine packed (r := ⟨.bxor, 0x08#6, .R2, 0x20000000#32, 0xFC0007FF#32⟩) (by decide) rfl rfl (by omega) (by omega)
    (by simp only [atRb]; omega) ?_
  rw [reserved_eq_zero, toNat_packWord (by decide) (by omega) (by omega) (by simp only [atRb]; omega)]
  simp only [atRb]
  simp only [BitVec.reduceToNat]
  omega

theorem bnot (rd : Reg) (ra : Reg) : Statement (.bnot rd ra) := by
  have := reg_lt rd
  have := reg_lt ra
  refine packed (r := ⟨.bnot, 0x09#6, .R1, 0x24000000#32, 0xFC00FFFF#32⟩) (by decide) rfl rfl (by omega) (by omega)
    (by omega) ?_
  rw [reserved_eq_zero, toNat_packWord (by decide) (by omega) (by omega) (by omega)]
  simp only
  simp only [BitVec.reduceToNat]
  omega

theorem sel (rd : Reg) (ra : Reg) (rb : Reg) (rc : Reg) : Statement (.sel rd ra rb rc) := by
  have := reg_lt rd
  have := reg_lt ra
  have := reg_lt rb
  have := reg_lt rc
  refine packed (r := ⟨.sel, 0x0A#6, .R3, 0x28000000#32, 0xFC00003F#32⟩) (by decide) rfl rfl (by omega) (by omega)
    (by simp only [atRb, atRc]; omega) ?_
  rw [reserved_eq_zero, toNat_packWord (by decide) (by omega) (by omega) (by simp only [atRb, atRc]; omega)]
  simp only [atRb, atRc]
  simp only [BitVec.reduceToNat]
  omega

theorem adv (rd : Reg) (ra : Reg) (rb : Reg) (ck : Slot) : Statement (.adv rd ra rb ck) := by
  have := reg_lt rd
  have := reg_lt ra
  have := reg_lt rb
  have := slot_lt ck
  refine packed (r := ⟨.adv, 0x0B#6, .RC, 0x2C000000#32, 0xFC00001F#32⟩) (by decide) rfl rfl (by omega) (by omega)
    (by simp only [atRb, atCi]; omega) ?_
  rw [reserved_eq_zero, toNat_packWord (by decide) (by omega) (by omega) (by simp only [atRb, atCi]; omega)]
  simp only [atRb, atCi]
  simp only [BitVec.reduceToNat]
  omega

theorem mstar (rd : Reg) (ra : Reg) (rb : Reg) (ck : Slot) : Statement (.mstar rd ra rb ck) := by
  have := reg_lt rd
  have := reg_lt ra
  have := reg_lt rb
  have := slot_lt ck
  refine packed (r := ⟨.mstar, 0x0C#6, .RC, 0x30000000#32, 0xFC00001F#32⟩) (by decide) rfl rfl (by omega) (by omega)
    (by simp only [atRb, atCi]; omega) ?_
  rw [reserved_eq_zero, toNat_packWord (by decide) (by omega) (by omega) (by simp only [atRb, atCi]; omega)]
  simp only [atRb, atCi]
  simp only [BitVec.reduceToNat]
  omega

theorem scanthru (rd : Reg) (ra : Reg) (rb : Reg) : Statement (.scanthru rd ra rb) := by
  have := reg_lt rd
  have := reg_lt ra
  have := reg_lt rb
  refine packed (r := ⟨.scanthru, 0x0D#6, .R2, 0x34000000#32, 0xFC0007FF#32⟩) (by decide) rfl rfl (by omega) (by omega)
    (by simp only [atRb]; omega) ?_
  rw [reserved_eq_zero, toNat_packWord (by decide) (by omega) (by omega) (by simp only [atRb]; omega)]
  simp only [atRb]
  simp only [BitVec.reduceToNat]
  omega

theorem addc (rd : Reg) (ra : Reg) (rb : Reg) (ck : Slot) : Statement (.addc rd ra rb ck) := by
  have := reg_lt rd
  have := reg_lt ra
  have := reg_lt rb
  have := slot_lt ck
  refine packed (r := ⟨.addc, 0x0E#6, .RC, 0x38000000#32, 0xFC00001F#32⟩) (by decide) rfl rfl (by omega) (by omega)
    (by simp only [atRb, atCi]; omega) ?_
  rw [reserved_eq_zero, toNat_packWord (by decide) (by omega) (by omega) (by simp only [atRb, atCi]; omega)]
  simp only [atRb, atCi]
  simp only [BitVec.reduceToNat]
  omega

theorem popc (rd : Reg) (ra : Reg) : Statement (.popc rd ra) := by
  have := reg_lt rd
  have := reg_lt ra
  refine packed (r := ⟨.popc, 0x0F#6, .R1, 0x3C000000#32, 0xFC00FFFF#32⟩) (by decide) rfl rfl (by omega) (by omega)
    (by omega) ?_
  rw [reserved_eq_zero, toNat_packWord (by decide) (by omega) (by omega) (by omega)]
  simp only
  simp only [BitVec.reduceToNat]
  omega

theorem accpop (ra : Reg) : Statement (.accpop ra) := by
  have := reg_lt ra
  refine packed (r := ⟨.accpop, 0x10#6, .A, 0x40000000#32, 0xFFE0FFFF#32⟩) (by decide) rfl rfl (by omega) (by omega)
    (by omega) ?_
  rw [reserved_eq_zero, toNat_packWord (by decide) (by omega) (by omega) (by omega)]
  simp only
  simp only [BitVec.reduceToNat]
  omega

theorem clrc (ck : Slot) : Statement (.clrc ck) := by
  have := slot_lt ck
  refine packed (r := ⟨.clrc, 0x11#6, .CF, 0x44000000#32, 0xFFFFF81F#32⟩) (by decide) rfl rfl (by omega) (by omega)
    (by simp only [atCi]; omega) ?_
  rw [reserved_eq_zero, toNat_packWord (by decide) (by omega) (by omega) (by simp only [atCi]; omega)]
  simp only [atCi]
  simp only [BitVec.reduceToNat]
  omega

end Sys2Proof.Laws.EncodesRow
end

