-- ==== Sys2Proof/Tests/Slice0.lean ====
section
/-! SUPPORT. Tests: the decoder on words written out from the spec's tables, the checks on ill-formed terms, one step of
each command, of the sequencer and of the host on small states, and a witness for the hypotheses of every statement.
Every expected value is the spec's own: spec/95_test_vectors.md (cited as T with its section) or a rule. -/

namespace Sys2Proof.Tests

open Sys2Proof.Machine

/-! Helpers. -/

/-- The next state of an outcome; the reset state where there is none. -/
def after (o : Host.Outcome State Fault Refusal) : State :=
  match o with
  | .next s => s
  | .fault _ => State.reset
  | .refused _ => State.reset

/-- The reset state with some registers and carry slots set. -/
def small (regs : List (Reg × Word)) (slots : List Slot) : State :=
  slots.foldl (fun s j => s.writeCarry j true) (regs.foldl (fun s p => s.writeReg p.1 p.2) State.reset)

/-- The reset state with bytes of `IBUF` set from index 0 up. -/
def withBlock (bytes : List Byte) : State :=
  { State.reset with ibuf := (bytes.mapIdx fun i b => (i, b)).foldl (fun m p => Memory.write m p.1 p.2) [] }

/-- The reset state in the middle of a run at index 0, where the word `w` stands. -/
def running (w : Cmd) : State := State.reset.placeWord w

/-- The state after one move of the host or of the reset input. -/
def moved (s : State) (m : Move) : State := after (step { s with moves := [m] })

/-! Decoding (T 2.1): one word per command, then illegal words. -/

theorem test_decode_nop : decode 0x04000000#32 = .ok .nop := by decide
theorem test_decode_halt : decode 0x08000000#32 = .ok .halt := by decide
theorem test_decode_transpose : decode 0x0C000000#32 = .ok .transpose := by decide
theorem test_decode_true : decode 0x11000000#32 = .ok (.setTrue 8) := by decide
theorem test_decode_false : decode 0x15000000#32 = .ok (.setFalse 8) := by decide
theorem test_decode_and : decode 0b00011001001000000100000000000000#32 = .ok (.band 9 0 8) := by decide
theorem test_decode_or : decode 0x1D421800#32 = .ok (.bor 10 2 3) := by decide
theorem test_decode_xor : decode 0x21204000#32 = .ok (.bxor 9 0 8) := by decide
theorem test_decode_not : decode 0x25010000#32 = .ok (.bnot 8 1) := by decide
theorem test_decode_sel : decode 0b00101001010000110100001001000000#32 = .ok (.sel 10 3 8 9) := by decide
theorem test_decode_adv : decode 0b00101101010010000100100001100000#32 = .ok (.adv 10 8 9 3) := by decide
theorem test_decode_mstar : decode 0x33FFA820#32 = .ok (.mstar 31 31 21 1) := by decide
theorem test_decode_scanthru : decode 0x35484800#32 = .ok (.scanthru 10 8 9) := by decide
theorem test_decode_addc : decode 0x39484860#32 = .ok (.addc 10 8 9 3) := by decide
theorem test_decode_popc : decode 0x3F000000#32 = .ok (.popc 24 0) := by decide
theorem test_decode_accpop : decode 0b01000000000111110000000000000000#32 = .ok (.accpop 31) := by decide
theorem test_decode_clrc : decode 0b01000100000000000000011111100000#32 = .ok (.clrc 63) := by decide

theorem test_decode_illegal_opcodes :
    decode 0x00000000#32 = .error (.opcode 0) ∧ decode 0x48000000#32 = .error (.opcode 0x12) ∧
      decode 0xFC000000#32 = .error (.opcode 0x3F) := by decide

theorem test_decode_illegal_reserved :
    decode 0x04000001#32 = .error (.reservedBits .N) ∧ decode 0x0C200000#32 = .error (.reservedBits .N) ∧
      decode 0x11F00000#32 = .error (.reservedBits .D) ∧ decode 0x25010001#32 = .error (.reservedBits .R1) ∧
      decode 0x1C000001#32 = .error (.reservedBits .R2) ∧ decode 0x29434241#32 = .error (.reservedBits .R3) ∧
      decode 0x2D484861#32 = .error (.reservedBits .RC) ∧ decode 0x40200000#32 = .error (.reservedBits .A) ∧
      decode 0x401F0001#32 = .error (.reservedBits .A) ∧ decode 0x44000800#32 = .error (.reservedBits .CF) ∧
      decode 0x45000000#32 = .error (.reservedBits .CF) := by decide

theorem test_table_word : decodeTableWord 32 0x33FFA820 = some (.mstar 31 31 21 1) := by decide

/-! Ill-formed terms, one for each check. -/

theorem test_illformed_word : legalWord 0x1C000001#32 = false ∧ legalWord 0x1D421800#32 = true := by decide
theorem test_illformed_program_size : programWf 4 3 [0x04000000#32, 0x08000000#32] = false := by decide
theorem test_illformed_program_word : programWf 4 0 [0x00000000#32, 0x08000000#32] = false := by decide
theorem test_illformed_range : ByteRange.wf ⟨0x39#8, 0x30#8⟩ = false := by decide
theorem test_illformed_class : CharClass.wf ⟨[], false⟩ = false := by decide
theorem test_illformed_class_range : CharClass.wf ⟨[⟨0x39#8, 0x30#8⟩], false⟩ = false := by decide
theorem test_illformed_pattern_empty : patternWf [] = false := by decide
theorem test_illformed_pattern_long : patternWf (List.replicate 65 ⟨[⟨0x61#8, 0x61#8⟩], false⟩) = false := by decide
theorem test_illformed_pattern_class : patternWf [⟨[], true⟩] = false := by decide
theorem test_illformed_compiled_pattern : CompiledPattern.wf [(⟨[], false⟩, .fls)] = false := by decide
theorem test_illformed_line_register : assembleLine ['T', 'R', 'U', 'E', ' ', 'r', '3', '2'] = none := by decide
theorem test_illformed_line_operands : assembleLine ['H', 'A', 'L', 'T', ' ', 'r', '1'] = none := by decide
theorem test_assemble_pseudo : assembleLine ['s', 'h', 'l', ' ', 'r', '8', ',', 'p', '2', ',', ' ', 'c', '6', '3', ';'] =
    some (.adv 8 2 2 63) := by decide

/-! Commands (T 2.2 to 2.6). -/

theorem test_nop_keeps_all : exec .nop State.reset = .next { State.reset with pc := 1#32 } := rfl

theorem test_halt_status : (after (exec .halt (running 0x08000000#32))).status.word = 0x2#32 := by decide

theorem test_transpose_example :
    let s := after (exec .transpose (withBlock [0x78, 0x78, 0x61, 0x31, 0x32, 0x33, 0x7A, 0x79, 0x79]))
    s.readReg 0 = 0x1AC#64 ∧ s.readReg 3 = 0x1C3#64 ∧ s.readReg 6 = 0x1C7#64 := by decide

theorem test_transpose_pad_not_read :
    let s := after (exec .transpose { State.reset with ibuf := [(0, 0x80#8), (63, 0xFF#8)] })
    s.readReg 7 = 0x1#64 ∧ s.readReg 0 = 0x0#64 := by decide

theorem test_true_payload : (after (exec (.setTrue 8) State.reset)).readReg 8 = 0x7FFFFFFFFFFFFFFF#64 := by decide
theorem test_false_clears : (after (exec (.setFalse 8) (small [(8, 0x5#64)] []))).readReg 8 = 0x0#64 := by decide
theorem test_and_example :
    (after (exec (.band 9 0 8) (small [(0, 0x1AC#64), (8, 0x0F0#64)] []))).readReg 9 = 0x0A0#64 := by decide
theorem test_or_example :
    (after (exec (.bor 9 0 8) (small [(0, 0x1AC#64), (8, 0x0F0#64)] []))).readReg 9 = 0x1FC#64 := by decide
theorem test_xor_example :
    (after (exec (.bxor 9 0 8) (small [(0, 0x1AC#64), (8, 0x0F0#64)] []))).readReg 9 = 0x15C#64 := by decide
theorem test_not_bit63_clear :
    (after (exec (.bnot 8 1) (small [(1, 0x070#64)] []))).readReg 8 = 0x7FFFFFFFFFFFFF8F#64 := by decide
theorem test_sel_example :
    (after (exec (.sel 10 3 8 9) (small [(3, 0x1C3#64), (8, 0x0F0#64), (9, 0x00F#64)] []))).readReg 10 = 0x0CC#64 := by
  decide

theorem test_adv_carry_out :
    let s := after (exec (.adv 10 8 9 3) (small [(8, 0x4000000000000001#64), (9, 0x4000000000000001#64)] []))
    s.readReg 10 = 0x2#64 ∧ s.readCarry 3 = true := by decide

theorem test_adv_source_is_destination :
    let s := after (exec (.adv 8 8 8 0) (small [(8, 0x7FFFFFFFFFFFFFFF#64)] [0]))
    s.readReg 8 = 0x7FFFFFFFFFFFFFFF#64 ∧ s.readCarry 0 = true := by decide

theorem test_mstar_run :
    let s := after (exec (.mstar 10 8 9 3) (small [(8, 0x8#64), (9, 0x38#64)] []))
    s.readReg 10 = 0x78#64 ∧ s.readCarry 3 = false := by decide

theorem test_mstar_run_leaves_word :
    let s := after (exec (.mstar 10 8 9 3) (small [(8, 0x1000000000000000#64), (9, 0x7000000000000000#64)] []))
    s.readReg 10 = 0x7000000000000000#64 ∧ s.readCarry 3 = true := by decide

theorem test_scanthru_runs :
    (after (exec (.scanthru 10 8 9) (small [(8, 0x11#64), (9, 0x37#64)] []))).readReg 10 = 0x48#64 := by decide

theorem test_scanthru_end_discarded :
    (after (exec (.scanthru 10 8 9) (small [(8, 0x1000000000000000#64), (9, 0x7000000000000000#64)] []))).readReg 10 =
      0x0#64 := by decide

theorem test_addc_carry_out :
    let s := after (exec (.addc 10 8 9 3) (small [(8, 0x7FFFFFFFFFFFFFFF#64), (9, 0x1#64)] []))
    s.readReg 10 = 0x0#64 ∧ s.readCarry 3 = true := by decide

theorem test_addc_carry_in :
    let s := after (exec (.addc 10 8 9 3) (small [(8, 0x5#64), (9, 0x6#64)] [3]))
    s.readReg 10 = 0xC#64 ∧ s.readCarry 3 = false := by decide

theorem test_clrc_one_slot :
    let s := after (exec (.clrc 63) (small [] [0, 62, 63]))
    s.readCarry 63 = false ∧ s.readCarry 62 = true ∧ s.readCarry 0 = true := by decide

theorem test_popc_full : (after (exec (.popc 9 8) (small [(8, 0x7FFFFFFFFFFFFFFF#64)] []))).readReg 9 = 63#64 := by decide

theorem test_accpop_wraps :
    (after (exec (.accpop 8) { small [(8, 0x7FFFFFFFFFFFFFFF#64)] [] with mcount := 0xFFFFFFFFFFFFFFC2#64 })).mcount =
      0x1#64 := by decide

/-! The sequencer and its faults (T 2.6, 3.5). -/

theorem test_start_unloaded_faults :
    let s := after (step (moved State.reset (.write 0x000#16 0x1#32)))
    s.status.word = 0x104#32 ∧ s.faultPc = 0#32 ∧ s.faultInsn = 0#32 ∧ s.pc = 0#32 := by decide

theorem test_fetch_range_faults :
    let s := after (step (moved (moved State.reset (.write 0x008#16 1024#32)) (.write 0x000#16 0x1#32)))
    s.status.word = 0x204#32 ∧ s.faultPc = 1024#32 ∧ s.faultInsn = 0#32 ∧ s.pc = 1024#32 := by decide

theorem test_illegal_word_recorded :
    let s := after (step (running 0x1C000001#32))
    s.status.word = 0x104#32 ∧ s.faultInsn = 0x1C000001#32 ∧ s.pc = 0#32 := by decide

theorem test_fetch_word_runs :
    after (step (State.reset.withFetchWord 32 0x11000000)) = after (exec (.setTrue 8) (running 0x11000000#32)) := by decide

/-! The host's window (T 2.7). -/

theorem test_host_config : (moved State.reset (.read 0x028#16)).hostData = 0x40200400#32 := by decide

theorem test_host_ibuf :
    let s := moved State.reset (.write 0x100#16 0x64636261#32)
    s.ibufByte 0 = 0x61#8 ∧ s.ibufByte 3 = 0x64#8 ∧ (moved s (.read 0x102#16)).hostData = 0x64636261#32 := by decide

theorem test_host_regs :
    let s := moved (moved State.reset (.write 0x204#16 0xFFFFFFFF#32)) (.write 0x200#16 0x12345678#32)
    s.readReg 0 = 0x7FFFFFFF12345678#64 ∧ (moved s (.read 0x204#16)).hostData = 0x7FFFFFFF#32 := by decide

theorem test_host_carry :
    let s := moved State.reset (.write 0x020#16 0x5#32)
    s.readCarry 0 = true ∧ s.readCarry 1 = false ∧ s.readCarry 2 = true ∧
      (moved s (.write 0x000#16 0x2#32)).carry = 0#64 := by decide

theorem test_host_mcount :
    let s := { State.reset with mcount := 0x100000002#64 }
    (moved s (.read 0x018#16)).hostData = 0x2#32 ∧ (moved s (.read 0x01C#16)).hostData = 0x1#32 := by decide

theorem test_host_write_while_busy :
    let s := moved (moved State.reset (.write 0x000#16 0x7#32)) (.write 0x100#16 0x1#32)
    s.ibuf = [] ∧ (moved s (.read 0x004#16)).hostData = 0x9#32 := by decide

theorem test_host_unmapped_imem :
    let s := moved State.reset (.write 0x2000#16 0x08000000#32)
    s.imem = [] ∧ (moved s (.read 0x2000#16)).hostData = 0#32 := by decide

/-! The host's compiler (T 2.8). -/

theorem test_ge_example :
    geExpr 4 3 = some (.disj (.disj (.bit 3) (.bit 2)) (.conj (.bit 1) (.bit 0))) ∧ geExpr 4 16 = none := by decide

theorem test_compile_digits :
    CharClass.compile ⟨[⟨0x30#8, 0x39#8⟩], true⟩ =
      some (.conj (.conj (.conj (.bit 4) (.bit 5)) (.neg (.disj (.bit 6) (.bit 7))))
        (.neg (.conj (.bit 3) (.disj (.bit 2) (.bit 1))))) := by decide

/-! Witnesses: for each statement with hypotheses, a state and operands that meet them all. -/

theorem reset_headroom : ∀ r, (State.reset.readReg r).getLsbD 63 = false := by decide

theorem running_inv_of (w : Cmd) (hw : Memory.wf 1024 (running w).imem = true) : (running w).Inv where
  headroom := fun r => reset_headroom r
  ibufWf := rfl
  imemWf := hw
  status := by simp [Status.legal, running, State.placeWord]
  size := (by decide : 1 ≤ 1024 ∧ 1024 ≤ 1024)
  held := fun h => by cases h

/-- An idle state of the invariant that no run has touched but for its size: four words of program memory. -/
theorem idle_inv : (State.resetOf 4).Inv where
  headroom := by decide
  ibufWf := rfl
  imemWf := rfl
  status := by simp [Status.legal, State.resetOf]
  size := by decide
  held := fun h => by cases h

/-- The moves to come are no part of what the invariant speaks of, unless reset is asserted. -/
theorem inv_moves {s : State} (h : s.Inv) (hr : s.resetAsserted = false) (ms : List Move) : { s with moves := ms }.Inv :=
  ⟨h.headroom, h.ibufWf, h.imemWf, h.status, h.size, fun h1 => by cases hr.symm.trans h1⟩

theorem witness_DecodedWordIsItsEncoding : decode 0x401F0000#32 = .ok (.accpop 31) := by decide

theorem witness_DecodeFollowsOpcodeMap :
    (∃ r ∈ opcodeTable, 0x401F0000#32 &&& r.mask = r.pattern) ∧
      (∀ r ∈ opcodeTable, 0x48000000#32 &&& r.mask ≠ r.pattern) := by decide

/-- The hypotheses of `IllegalWordFaults`, and of the illegal word's clause of `FaultCausesAndEntry`. -/
theorem witness_IllegalWordFaults :
    (running 0x48000000#32).moves = [] ∧ (running 0x48000000#32).status.busy = true ∧
      (running 0x48000000#32).resetAsserted = false ∧
      (running 0x48000000#32).pc.toNat < (running 0x48000000#32).imemWords ∧
      decode ((running 0x48000000#32).imemWord (running 0x48000000#32).pc.toNat) = .error (.opcode 0x12) := by decide

theorem witness_TransposePlanes :
    let s := { State.reset with ibuf := [(62, 0x80#8), (63, 0x01#8)] }
    let s' := { State.reset with ibuf := [(62, 0x80#8), (63, 0xFF#8)] }
    (∀ i, i < 63 → s'.ibufByte i = s.ibufByte i) ∧ s'.ibufByte 63 ≠ s.ibufByte 63 := by decide

theorem witness_TransposeLosesNoBit : (0 < 63 ∧ 62 < 63) := by decide

theorem witness_MstarIsKleeneClosure : ((small [(9, 0x7FFFFFFFFFFFFFFF#64)] []).readReg 9).getLsbD 63 = false := by decide

theorem witness_ScanthruSum :
    let s := small [(8, 0x11#64), (9, 0x37#64)] []
    let s' := small [(8, 0x11#64), (9, 0x37#64)] [3]
    s'.readReg 8 = s.readReg 8 ∧ s'.readReg 9 = s.readReg 9 ∧ s' ≠ s := by decide

theorem witness_AddcIsExact : (running 0x39484860#32).Inv := running_inv_of _ (by decide)

theorem witness_MstarScanthruSumsAreExact : (running 0x33FFA820#32).Inv := running_inv_of _ (by decide)

theorem witness_PopcCountsOnes : ((small [(8, 0x7FFFFFFFFFFFFFFF#64)] []).readReg 8).getLsbD 63 = false := by decide

theorem witness_EveryCommandAdvancesPc : Instr.clrc 0 ≠ .halt := by decide

/-- A carry changed by each of the ways R25 allows: a command (here ADV of position 62 into slot 63), reset, the two
halves of the window, and `CLR_CARRY`. -/
theorem witness_CarryChangesOnlyByRule :
    let s := small [(8, 0x4000000000000000#64)] [0, 32]
    let r := { s with status := { s.status with busy := true }, imem := [(0, encode (.adv 10 8 8 63))] }
    ((after (step r)).readCarry 63 = true ∧ r.readCarry 63 = false) ∧
      ((moved s .assertReset).readCarry 0 = false ∧ s.readCarry 0 = true) ∧
      (moved s (.write 0x020#16 0x0#32)).readCarry 0 = false ∧ (moved s (.write 0x024#16 0x0#32)).readCarry 32 = false ∧
      (moved s (.write 0x000#16 0x2#32)).readCarry 0 = false := by decide

theorem witness_AccpopAddsToMcount :
    let s := { small [(8, 0x3#64)] [] with mcount := 5#64 }
    (after (step { s with status := { s.status with busy := true }, imem := [(0, 0x40080000#32)] })).mcount = 7#64 ∧
      (moved s .assertReset).mcount = 0#64 ∧ (moved s (.write 0x000#16 0x4#32)).mcount = 0#64 := by decide

/-- A host write of IMEM's last word, and reset, each from a state of the invariant. -/
theorem witness_ImemChangesOnlyByRule :
    let s := { State.resetOf 4 with moves := [.write 0x100C#16 0x08000000#32] }
    let r := { running 0x08000000#32 with moves := [.assertReset] }
    (s.Inv ∧ (after (step s)).imemWord 3 = 0x08000000#32 ∧ s.imemWord 3 = 0#32) ∧
      (r.Inv ∧ (after (step r)).imemWord 0 = 0#32 ∧ r.imemWord 0 = 0x08000000#32) :=
  ⟨⟨inv_moves idle_inv rfl _, by decide, by decide⟩,
    inv_moves (running_inv_of 0x08000000#32 (by decide)) rfl _, by decide, by decide⟩

theorem witness_StepRunsDecodedCommand :
    (running 0x11000000#32).moves = [] ∧ (running 0x11000000#32).status.busy = true ∧
      (running 0x11000000#32).resetAsserted = false ∧
      (running 0x11000000#32).pc.toNat < (running 0x11000000#32).imemWords ∧
      decode ((running 0x11000000#32).imemWord (running 0x11000000#32).pc.toNat) = .ok (.setTrue 8) := by decide

theorem witness_FaultCausesAndEntry_fetch :
    let s := { running 0#32 with pc := 1024#32 }
    s.moves = [] ∧ s.status.busy = true ∧ s.resetAsserted = false ∧ s.imemWords ≤ s.pc.toNat := by decide

theorem witness_FaultCausesAndEntry_sets :
    let s := { running 0#32 with pc := 1024#32 }
    s.status.fault = false ∧ (after (step s)).status.fault = true := by decide

theorem witness_CommandsUseOnlyNamedCarry :
    (∀ j : Slot, readsSlot (.adv 10 8 9 3) = some j → (0x7#64).getLsbD j.val = (small [] []).readCarry j) ∧
      (small [] []).carry ≠ 0x7#64 ∧ carrySlot (.adv 10 8 9 3) = some 3 ∧ carrySlot (.adv 10 8 9 3) ≠ some 63 := by decide

theorem witness_OnlyStartBeginsRun :
    (State.reset.status.busy = false ∧ State.reset.moves = []) ∧
      (moved State.reset (.write 0x000#16 0x1#32)).status.busy = true := by decide

/-- The sequencer is due with and without a move list, on a command, on HALT and on an illegal word. -/
theorem witness_BlockNeverHangs :
    (running 0x04000000#32).sequencerDue ∧ { running 0x08000000#32 with moves := [.sequencer] }.sequencerDue ∧
      (running 0x48000000#32).status.busy = true ∧ (running 0x48000000#32).resetAsserted = false :=
  ⟨.inl rfl, .inr ⟨_, rfl⟩, rfl, rfl⟩

theorem witness_EveryRunEnds :
    let s := { State.resetOf 4 with moves := [.write 0x000#16 0x1#32] }
    s.Inv ∧ s.idle ∧ s.moves = [.write 0x000#16 0x1#32] ∧ (0x1#32).getLsbD 0 = true :=
  ⟨⟨idle_inv.headroom, idle_inv.ibufWf, idle_inv.imemWf, idle_inv.status, idle_inv.size, fun h => by cases h⟩,
    ⟨rfl, rfl⟩, rfl, by decide⟩

theorem witness_ResetMeetsInvariant : (1 ≤ 1 ∧ 1 ≤ 1024) ∧ (1 ≤ 1024 ∧ 1024 ≤ 1024) := by decide

theorem witness_StepKeepsInvariant : (running 0x11000000#32).Inv ∧ ∃ t, step (running 0x11000000#32) = .next t :=
  ⟨running_inv_of _ (by decide), _, rfl⟩

/-- The host's statements ask for an idle block: START with and without the clearing bits, and no START. -/
theorem witness_host_idle :
    State.reset.idle ∧ (State.resetOf 4).idle ∧ (0x7#32).getLsbD 0 = true ∧ (0x6#32).getLsbD 0 = false ∧
      State.reset.resetAsserted = false :=
  ⟨⟨rfl, rfl⟩, ⟨rfl, rfl⟩, by decide, by decide, rfl⟩

theorem witness_ConfigIsConstant : (running 0x11000000#32).Inv ∧ (running 0x11000000#32).resetAsserted = false ∧
    (running 0x11000000#32).imemWords = 1024 :=
  ⟨running_inv_of _ (by decide), rfl, rfl⟩

theorem witness_IbufWordsLittleEndian : (State.resetOf 4).Inv ∧ (State.resetOf 4).idle ∧ 0 < 16 ∧ 15 < 16 :=
  ⟨idle_inv, ⟨rfl, rfl⟩, by decide, by decide⟩

/-- Both sides of `IMEM_WORDS`: word 3 is the last of a block of 4, and words 4 and 1023 are unmapped in it. -/
theorem witness_ImemWordsInWindow :
    (State.resetOf 4).Inv ∧ (State.resetOf 4).idle ∧ 3 < (State.resetOf 4).imemWords ∧ (State.resetOf 4).imemWords ≤ 4 ∧
      (State.resetOf 4).imemWords ≤ 1023 ∧ 1023 < 1024 :=
  ⟨idle_inv, ⟨rfl, rfl⟩, by decide, by decide, by decide, by decide⟩

/-- Both ends of every unmapped stretch of a block of 4 words, and the ends of the read-only registers. -/
theorem witness_UnmappedAndReadOnlyIgnored :
    (unmappedOffset 4 0x02C ∧ unmappedOffset 4 0x0FF ∧ unmappedOffset 4 0x140 ∧ unmappedOffset 4 0x1FF ∧
      unmappedOffset 4 0x300 ∧ unmappedOffset 4 0xFFF ∧ unmappedOffset 4 0x1010 ∧ unmappedOffset 4 0xFFFF) ∧
    (State.resetOf 4).idle ∧ 0x00F#16 &&& 0xFFFC#16 = 0x00C#16 ∧ 0x028#16 &&& 0xFFFC#16 = 0x028#16 :=
  ⟨by unfold unmappedOffset; decide, ⟨rfl, rfl⟩, by decide, by decide⟩

/-- The unmapped stretches end where the map's registers and buffers begin (R51). -/
theorem test_window_map_below_regs :
    let s := State.resetOf 4
    s.locOf 0x02B#16 = .config ∧ s.locOf 0x02C#16 = .unmapped ∧ s.locOf 0x0FF#16 = .unmapped ∧
      s.locOf 0x100#16 = .ibuf 0 ∧ s.locOf 0x13F#16 = .ibuf 15 ∧ s.locOf 0x140#16 = .unmapped := by decide

/-- The registers end at `0x2FF` (R51, R56). -/
theorem test_window_map_last_reg : (State.resetOf 4).locOf 0x2FF#16 = .regHi 31 := by
  simp [State.locOf, locOfAligned, alignOffset]

/-- The unmapped stretches above them, around a program memory of 4 words. -/
theorem test_window_map_above_regs :
    let s := State.resetOf 4
    s.locOf 0x300#16 = .unmapped ∧ s.locOf 0xFFF#16 = .unmapped ∧ s.locOf 0x1000#16 = .imem 0 ∧
      s.locOf 0x100F#16 = .imem 3 ∧ s.locOf 0x1010#16 = .unmapped := by decide

/-- A busy block, and an offset for each clause: a write that is refused, `STATUS`, an exact read, an open read. -/
theorem witness_HostAccessWhileBusy :
    (running 0#32).status.busy = true ∧ (running 0#32).resetAsserted = false ∧
      (running 0#32).locOf 0x100#16 ≠ .status ∧ (running 0#32).locOf 0x006#16 = .status ∧
      (running 0#32).locOf 0x008#16 ∈ [WindowLoc.status, .config, .startPc, .unmapped] ∧
      (running 0#32).locOf 0x13C#16 ∉ [WindowLoc.status, .config, .startPc, .unmapped, .ctrl] := by decide

theorem witness_CtrlReadsZeroDuringRun : (running 0#32).status.busy = true ∧ (running 0#32).resetAsserted = false := by
  decide

theorem witness_ResetSetsAndHoldsEveryState : (moved (running 0#32) .assertReset).resetAsserted = true := by decide

theorem witness_RunIsDeterministic :
    let s := running 0x11000000#32
    let s' := { s with hostData := 1#32, draws := 7, status := { s.status with hostConflict := true } }
    s.moves = [] ∧ s'.moves = [] ∧ s.runView = s'.runView ∧ s ≠ s' := by decide

/-- A run of two NOPs with a refused write and a read between its steps; it is still in progress after them. -/
theorem witness_HostCannotInfluenceRun :
    let ms : List Move := [.sequencer, .write 0x100#16 0x1#32, .read 0x200#16, .sequencer]
    let s := { running 0x04000000#32 with imem := [(0, 0x04000000#32), (1, 0x04000000#32)], moves := ms }
    s.moves = ms ∧ s.resetAsserted = false ∧ (∀ m ∈ ms, m = .sequencer ∨ m.isAccess = true) ∧
      ∃ u, runFor (ms.countP (fun m => m = .sequencer)) { s with moves := [] } = .next u ∧ u.status.busy = true :=
  ⟨rfl, rfl, by decide, _, rfl, rfl⟩

theorem witness_NodeCommandsComputeWord :
    (running 0#32).Inv ∧ (running 0#32).readReg 3 = (BoolExpr.bit 3).word (running 0#32) ∧
      (running 0#32).readReg 9 = BoolExpr.fls.word (running 0#32) :=
  ⟨running_inv_of _ (by decide), by decide, by decide⟩

theorem witness_GeLeCorrect : (8 ≤ 8 ∧ 255 < 2 ^ 8) ∧ (0 ≤ 8 ∧ 0 < 2 ^ 0) ∧ 2 ^ 8 ≤ 256 ∧ 8 < 9 := by decide

theorem witness_RangeExpressionCorrect : (0x00#8).toNat ≤ (0xFF#8).toNat ∧ (0x30#8).toNat ≤ (0x30#8).toNat := by decide

theorem witness_ClassWordCorrect :
    CharClass.wf ⟨[⟨0x41#8, 0x5A#8⟩, ⟨0x61#8, 0x7A#8⟩], false⟩ = true ∧ (CharClass.mk [] true).ranges = [] := by decide

/-- A pattern that compiles, `a` then `z`, and one that does not. -/
theorem witness_CompiledPatternPairsClasses :
    (∃ p, compilePattern [⟨[⟨0x61#8, 0x61#8⟩], false⟩, ⟨[⟨0x7A#8, 0x7A#8⟩], true⟩] = some p) ∧
      compilePattern [⟨[⟨0x61#8, 0x61#8⟩], false⟩, ⟨[], true⟩] = none := ⟨⟨_, rfl⟩, by decide⟩

/-! The host's loop (R172): a block that ends by HALT and one that ends by a fault. -/

theorem witness_HostLoopEnds : (State.resetOf 4).Inv ∧ (State.resetOf 4).idle := ⟨idle_inv, rfl, rfl⟩

theorem test_host_loop_counts :
    (match blockLoop 0 0x00#8 [[0x61#8]] { State.resetOf 4 with imem := [(0, 0x08000000#32)], mcount := 5#64 } with
      | some (.counted t n) => (t.status.word, n)
      | _ => (0#32, 0)) = (0x2#32, 5) := by decide

theorem test_host_loop_stops_at_fault :
    (match blockLoop 1 0x00#8 [[0x61#8], [0x61#8]] (State.resetOf 4) with
      | some (.failed t w) => (t.faultPc, w)
      | _ => (1#32, 0#32)) = (0#32, 0x104#32) := by decide

end Sys2Proof.Tests
end

section
/-! What a step of the machine can be, and what a host access of a control register does (spec/10_state.md R30, R31,
R33; spec/20_memory.md R51, R59). -/

namespace Sys2Proof.Machine

/-! The step. -/

/-- What one step of the machine can be: a step of the sequencer, a host read or write, or an edge of the reset input,
each from the state with that move taken off the list. -/
theorem step_cases {s t : State} (h : step s = .next t) : ∃ rest : List Move,
    (s.sequencerDue ∧ State.sequencerStep { s with moves := rest } = .next t) ∨
      (∃ offset, t = State.hostRead { s with moves := rest } offset) ∨
      (∃ offset w, s.writeDue offset w ∧ t = State.hostWrite { s with moves := rest } offset w) ∨
      (s.resetDue ∧ t = State.applyReset { s with moves := rest }) ∨
      t = { s with moves := rest, resetAsserted := false } := by
  cases hm : s.moves with
  | nil =>
    rw [step_of_moves_nil hm] at h
    exact ⟨s.moves, .inl ⟨.inl hm, h⟩⟩
  | cons m rest =>
    rw [step_of_moves_cons hm] at h
    refine ⟨rest, ?_⟩
    cases m with
    | sequencer => exact .inl ⟨.inr ⟨rest, hm⟩, h⟩
    | read offset => cases h; exact .inr (.inl ⟨offset, rfl⟩)
    | write offset w => cases h; exact .inr (.inr (.inl ⟨offset, w, ⟨rest, hm⟩, rfl⟩))
    | assertReset => cases h; exact .inr (.inr (.inr (.inl ⟨⟨rest, hm⟩, rfl⟩)))
    | releaseReset => cases h; exact .inr (.inr (.inr (.inr rfl)))

/-! The control registers' offsets (R51). -/

@[simp] theorem locOf_ctrl (s : State) : s.locOf 0x000#16 = .ctrl := (rfl)

@[simp] theorem locOf_status (s : State) : s.locOf 0x004#16 = .status := (rfl)

@[simp] theorem locOf_config (s : State) : s.locOf 0x028#16 = .config := (rfl)

/-! Accesses. -/

/-- R58, R59: a host read of a location whose value is open neither by a run nor by reset returns the word there and
changes nothing of the block. -/
theorem hostRead_exact {s : State} {offset : BitVec 16} (hr : s.resetAsserted = false)
    (ho : s.status.busy = false ∨ (s.locOf offset).openWhileBusy = false) :
    s.hostRead offset = { s with hostData := s.windowWord (s.locOf offset) } := by
  rw [State.hostRead, if_neg]
  rcases ho with ho | ho <;> simp [hr, ho]

/-- While idle a host write takes effect at the location it names. -/
theorem hostWrite_idle {s : State} (hi : s.idle) (offset : BitVec 16) (w : BitVec 32) :
    s.hostWrite offset w = s.idleWrite w (s.locOf offset) := by
  obtain ⟨hb, hr⟩ := hi
  simp [State.hostWrite, hb, hr]

/-- R59: during a run a host write to any location but `STATUS` is refused. -/
theorem hostWrite_busy {s : State} {offset : BitVec 16} (hb : s.status.busy = true) (hr : s.resetAsserted = false)
    (hl : s.locOf offset ≠ .status) (w : BitVec 32) : s.hostWrite offset w = s.refuseWrite := by
  simp [State.hostWrite, hb, hr, hl]

/-- R31: a host write of `STATUS` is taken at any time but under reset. -/
theorem hostWrite_status {s : State} {offset : BitVec 16} (hr : s.resetAsserted = false)
    (hl : s.locOf offset = .status) (w : BitVec 32) : s.hostWrite offset w = s.writeStatus w := by
  simp [State.hostWrite, hr, hl, State.idleWrite]

/-- R30: what a write of `CTRL` does, field by field. START takes the `PC` from `START_PC`, which neither clearing
changes, so the order of the three effects shows in no field. -/
theorem writeCtrl_eq (s : State) (w : BitVec 32) : s.writeCtrl w =
    { s with
      carry := if w.getLsbD 1 then 0#64 else s.carry
      mcount := if w.getLsbD 2 then 0#64 else s.mcount
      pc := if w.getLsbD 0 then s.startPc else s.pc
      status := if w.getLsbD 0 then s.startRun.status else s.status } := by
  unfold State.writeCtrl
  cases w.getLsbD 0 <;> cases w.getLsbD 1 <;> cases w.getLsbD 2 <;> rfl

/-- R31: what a write of `STATUS` does: a 1 in bit 3 clears `HOST_CONFLICT`. -/
theorem writeStatus_eq (s : State) (w : BitVec 32) : s.writeStatus w =
    { s with status := { s.status with hostConflict := s.status.hostConflict && !w.getLsbD 3 } } := by
  unfold State.writeStatus
  cases w.getLsbD 3 <;> simp

/-! The words of `STATUS` and `CONFIG`. -/

/-- R31: the flags of `STATUS` as the host reads it. -/
theorem status_word_flags (st : Status) :
    st.word.getLsbD 0 = st.busy ∧ st.word.getLsbD 1 = st.done ∧ st.word.getLsbD 2 = st.fault ∧
      st.word.getLsbD 3 = st.hostConflict := by
  simp only [Status.word, BitVec.getLsbD_append, BitVec.getLsbD_ofBool]
  simp

/-- R31: `STATUS` as a number: its fields in their places. -/
theorem toNat_status_word (st : Status) : st.word.toNat = st.cause.code.toNat * 2 ^ 8 +
    st.hostConflict.toNat * 2 ^ 3 + st.fault.toNat * 2 ^ 2 + st.done.toNat * 2 + st.busy.toNat := by
  simp only [Status.word, toNat_append_mul, BitVec.toNat_ofBool, BitVec.toNat_ofNat]
  omega

/-- R31: the cause of `STATUS` as the host reads it, between reserved bits that read 0. -/
theorem status_word_cause (st : Status) :
    st.word.extractLsb' 4 4 = 0#4 ∧ st.word.extractLsb' 8 4 = st.cause.code ∧ st.word.extractLsb' 12 20 = 0#20 := by
  have hw := toNat_status_word st
  have hbusy := st.busy.toNat_le
  have hdone := st.done.toNat_le
  have hfault := st.fault.toNat_le
  have hconflict := st.hostConflict.toNat_le
  have hcause := st.cause.code.isLt
  refine ⟨?_, ?_, ?_⟩ <;> apply BitVec.eq_of_toNat_eq <;>
    simp only [BitVec.extractLsb'_toNat, BitVec.toNat_ofNat, Nat.shiftRight_eq_div_pow] <;> omega

/-- R33: the fields of `CONFIG`; `IMEM_WORDS` fits its 16 bits. -/
theorem configWord_fields {s : State} (hn : s.imemWords < 2 ^ 16) :
    (s.configWord.extractLsb' 0 16).toNat = s.imemWords ∧ s.configWord.extractLsb' 16 8 = 32#8 ∧
      s.configWord.extractLsb' 24 8 = 64#8 := by
  have hw : s.configWord.toNat = 64 * 2 ^ 24 + 32 * 2 ^ 16 + s.imemWords := by
    simp only [State.configWord, toNat_append_mul, BitVec.toNat_ofNat]
    omega
  refine ⟨?_, BitVec.eq_of_toNat_eq ?_, BitVec.eq_of_toNat_eq ?_⟩ <;>
    simp only [BitVec.extractLsb'_toNat, BitVec.toNat_ofNat, Nat.shiftRight_eq_div_pow, hw] <;> omega

/-! What no step changes. -/

/-- No host write changes the size of the block. -/
theorem hostWrite_imemWords (s : State) (offset : BitVec 16) (w : BitVec 32) :
    (s.hostWrite offset w).imemWords = s.imemWords := by
  obtain ⟨_, h⟩ | ⟨_, _, _, h⟩ | ⟨_, _, h⟩ | ⟨_, _, h⟩ := hostWrite_cases s offset w <;> rw [h]
  · rfl
  · rw [writeStatus_eq]
  · cases s.locOf offset <;> simp only [State.idleWrite, writeCtrl_eq, writeStatus_eq, State.writeIbufWord,
      writeReg_imemWords]

/-- No step of the sequencer changes the size of the block. -/
theorem sequencerStep_imemWords {s t : State} (h : s.sequencerStep = .next t) : t.imemWords = s.imemWords := by
  obtain ⟨_, hs⟩ | ⟨_, _, _, hs⟩ | ⟨_, _, _, _, hs⟩ | ⟨i, _, hs⟩ := sequencerStep_cases s <;> rw [hs] at h
  · cases h; rfl
  · cases h; rfl
  · cases h; rfl
  · obtain ⟨_, he⟩ | ⟨_, _, _, _, he⟩ := exec_shape i s <;> rw [he] at h <;> cases h <;> rfl

/-- R28, R33: no step changes the size of the block. -/
theorem step_imemWords {s t : State} (h : step s = .next t) : t.imemWords = s.imemWords := by
  obtain ⟨rest, ⟨_, hs⟩ | ⟨offset, rfl⟩ | ⟨offset, w, _, rfl⟩ | ⟨_, rfl⟩ | rfl⟩ := step_cases h
  · exact sequencerStep_imemWords (s := { s with moves := rest }) hs
  · rw [hostRead_rest]
  · exact hostWrite_imemWords _ offset w
  · rfl
  · rfl

end Sys2Proof.Machine
end

section
/-! The invariant is kept by every step (spec/10_state.md R21, R28, R31; spec/70_reset_and_hazards.md R230): each kind of
update keeps it, and each move of the interleaving is made of such updates. -/

namespace Sys2Proof.Machine

/-! Updates that keep the invariant. -/

/-- The host's and the model's own fields are no part of the invariant: reset leaves them alone too. -/
theorem inv_setHostFields {s : State} (h : s.Inv) (moves : List Move) (draws : Nat) (hostData : BitVec 32) :
    State.Inv { s with moves := moves, draws := draws, hostData := hostData } where
  headroom := h.headroom
  ibufWf := h.ibufWf
  imemWf := h.imemWf
  status := h.status
  size := h.size
  held hr := congrArg (fun u : State => { u with moves := moves, draws := draws, hostData := hostData }) (h.held hr)

/-- R230: asserting reset leads to the reset values, of a block of the same size. -/
theorem inv_applyReset {s : State} (h : s.Inv) : s.applyReset.Inv where
  headroom r := by
    have hz : s.applyReset.readReg r = 0#64 := Vector.getElem_replicate r.isLt
    rw [hz, BitVec.getLsbD_zero]
  ibufWf := memory_wf_nil
  imemWf := memory_wf_nil
  status := by simp [Status.legal, State.applyReset, State.resetOf]
  size := h.size
  held _ := rfl

/-- R230: releasing reset changes nothing but the level of the input. -/
theorem inv_releaseReset {s : State} (h : s.Inv) : State.Inv { s with resetAsserted := false } :=
  ⟨h.headroom, h.ibufWf, h.imemWf, h.status, h.size, nofun⟩

/-- Outside reset, the carry bits, `MCOUNT`, the `PC` and the host's and the fault registers may take any value, and
`STATUS` any legal one. -/
theorem inv_setControl {s : State} (h : s.Inv) (hr : s.resetAsserted = false) {status : Status} (hst : status.legal)
    (carry mcount : BitVec 64) (pc startPc faultPc faultInsn : BitVec 32) :
    State.Inv { s with
      carry := carry, mcount := mcount, pc := pc, startPc := startPc, status := status, faultPc := faultPc,
      faultInsn := faultInsn } :=
  ⟨h.headroom, h.ibufWf, h.imemWf, hst, h.size, fun ha => absurd ha (by simp [hr])⟩

/-- Outside reset, the registers may take any values with bit 63 clear. -/
theorem inv_setRegs {s : State} (h : s.Inv) (hr : s.resetAsserted = false) {regs : Vector Word 32}
    (hregs : ∀ r : Reg, regs[r.val].getLsbD 63 = false) : State.Inv { s with regs := regs } :=
  ⟨hregs, h.ibufWf, h.imemWf, h.status, h.size, fun ha => absurd ha (by simp [hr])⟩

/-- Outside reset, IBUF may take any canonical contents. -/
theorem inv_setIbuf {s : State} (h : s.Inv) (hr : s.resetAsserted = false) {ibuf : Memory 8}
    (hwf : Memory.wf Config.ibufBytes ibuf = true) : State.Inv { s with ibuf := ibuf } :=
  ⟨h.headroom, hwf, h.imemWf, h.status, h.size, fun ha => absurd ha (by simp [hr])⟩

/-- Outside reset, IMEM may take any canonical contents. -/
theorem inv_setImem {s : State} (h : s.Inv) (hr : s.resetAsserted = false) {imem : Memory 32}
    (hwf : Memory.wf s.imemWords imem = true) : State.Inv { s with imem := imem } :=
  ⟨h.headroom, h.ibufWf, hwf, h.status, h.size, fun ha => absurd ha (by simp [hr])⟩

/-! Registers: bit 63 stays clear. -/

/-- R21: a register write stores a payload, so it keeps bit 63 of every register clear. -/
theorem headroom_writeReg {s : State} (h : ∀ r, (s.readReg r).getLsbD 63 = false) (i : Reg) (v : Word) (r : Reg) :
    ((s.writeReg i v).readReg r).getLsbD 63 = false := by
  rw [readReg_writeReg]
  split
  · simp
  · exact h r

/-- R21, R100: so do the register writes of TRANSPOSE. -/
theorem headroom_writePlanes {s : State} (h : ∀ r, (s.readReg r).getLsbD 63 = false) (src : State) (r : Reg) :
    ((s.writePlanes src).readReg r).getLsbD 63 = false := by
  rw [readReg_writePlanes]
  split
  · simp
  · exact h r

/-- R21: so does the result of a command that writes one register. -/
theorem headroom_setReg {s : State} (h : ∀ r, (s.readReg r).getLsbD 63 = false) (rd : Reg) (v : Word) (r : Reg) :
    ((s.setReg rd v).readReg r).getLsbD 63 = false := by
  rw [setReg_eq, advance_readReg]
  exact headroom_writeReg h rd v r

/-- R21: so does the result of a command that writes its carry slot and one register. -/
theorem headroom_setRegCarry {s : State} (h : ∀ r, (s.readReg r).getLsbD 63 = false) (rd : Reg) (v : Word) (ck : Slot)
    (cout : Bool) (r : Reg) : ((s.setRegCarry rd v ck cout).readReg r).getLsbD 63 = false := by
  rw [setRegCarry_eq, advance_readReg]
  exact headroom_writeReg h rd v r

/-- R21: every command keeps bit 63 of every register clear. -/
theorem headroom_exec {i : Instr} {s t : State} (h : ∀ r, (s.readReg r).getLsbD 63 = false)
    (he : exec i s = .next t) : ∀ r, (t.readReg r).getLsbD 63 = false := by
  cases i with
  | nop | halt | accpop _ | clrc _ => cases he; exact h
  | transpose =>
    cases he
    intro r
    rw [advance_readReg]
    exact headroom_writePlanes h s r
  | setTrue _ | setFalse _ | band _ _ _ | bor _ _ _ | bxor _ _ _ | bnot _ _ | sel _ _ _ _ | scanthru _ _ _
  | popc _ _ => cases he; exact headroom_setReg h _ _
  | adv _ _ _ _ | mstar _ _ _ _ | addc _ _ _ _ => cases he; exact headroom_setRegCarry h _ _ _ _

/-! `STATUS` stays legal. -/

/-- R160: START makes `STATUS` legal, whatever it was. -/
theorem legal_startRun (s : State) : s.startRun.status.legal := by simp [Status.legal]

/-- R165: a run that ends by HALT leaves `STATUS` legal: no FAULT stands while BUSY. -/
theorem legal_endRun {s : State} (h : s.status.legal) (hb : s.status.busy = true) : s.endRun.status.legal := by
  simp_all [Status.legal]

/-- R211: a fault with a cause other than 0 makes `STATUS` legal, whatever it was. -/
theorem legal_raiseFault (s : State) {c : Cause} (hc : c ≠ .none) (pc insn : BitVec 32) :
    (s.raiseFault c pc insn).status.legal := by
  simp [Status.legal, hc]

/-- R211: taking a fault keeps the invariant. -/
theorem inv_raiseFault {s : State} (h : s.Inv) (hr : s.resetAsserted = false) {c : Cause} (hc : c ≠ .none)
    (pc insn : BitVec 32) : (s.raiseFault c pc insn).Inv :=
  inv_setControl h hr (legal_raiseFault s hc pc insn) _ _ _ _ _ _

/-! Moves. -/

/-- A host read keeps the invariant. -/
theorem inv_hostRead {s : State} (h : s.Inv) (offset : BitVec 16) : (s.hostRead offset).Inv := by
  rw [hostRead_rest]
  exact inv_setHostFields h s.moves _ _

/-- A location of the window that lies inside the storages of a block of `imemWords` program words. -/
def WindowLoc.inside (imemWords : Nat) : WindowLoc → Prop
  | .ibuf k => k < 16
  | .imem j => j < imemWords
  | _ => True

/-- R51, R55, R57: the window shows the 16 words of IBUF and the words of IMEM, and nothing beyond them: the first 11
branches are the control registers, and each other branch's own condition bounds its index. -/
theorem inside_locOf (s : State) (offset : BitVec 16) : (s.locOf offset).inside s.imemWords := by
  unfold State.locOf locOfAligned
  generalize alignOffset offset = a
  iterate 11 refine iteInduction (fun _ => True.intro) fun _ => ?_
  refine iteInduction (fun h => ?_) fun _ => ?_
  · have hk : (a - 0x100) / 4 < 16 := by omega
    exact hk
  refine iteInduction (fun _ => ?_) fun _ => ?_
  · generalize (a - 0x200) / 8 = i
    generalize (a - 0x200) % 8 = half
    exact iteInduction (fun _ => True.intro) fun _ => True.intro
  exact iteInduction (fun h => h.2) fun _ => True.intro

/-- R31: a write of `STATUS` keeps the invariant. -/
theorem inv_writeStatus {s : State} (h : s.Inv) (hr : s.resetAsserted = false) (w : BitVec 32) :
    (s.writeStatus w).Inv := by
  have hst : Status.legal { s.status with hostConflict := s.status.hostConflict && !w.getLsbD 3 } := h.status
  rw [writeStatus_eq]
  exact inv_setControl h hr hst _ _ _ _ _ _

/-- R30: a write of `CTRL` keeps the invariant. -/
theorem inv_writeCtrl {s : State} (h : s.Inv) (hr : s.resetAsserted = false) (w : BitVec 32) :
    (s.writeCtrl w).Inv := by
  have hst : (if w.getLsbD 0 then s.startRun.status else s.status).legal := by
    split
    · exact legal_startRun s
    · exact h.status
  rw [writeCtrl_eq]
  exact inv_setControl h hr hst _ _ _ _ _ _

/-- R55: a write of a word of IBUF keeps the invariant. -/
theorem inv_writeIbufWord {s : State} (h : s.Inv) (hr : s.resetAsserted = false) {k : Nat} (hk : k < 16)
    (w : BitVec 32) : (s.writeIbufWord k w).Inv := by
  have h0 : 4 * k < 64 := by omega
  have h1 : 4 * k + 1 < 64 := by omega
  have h2 : 4 * k + 2 < 64 := by omega
  have h3 : 4 * k + 3 < 64 := by omega
  exact inv_setIbuf h hr (memory_write_wf (memory_write_wf (memory_write_wf (memory_write_wf h.ibufWf h0 _) h1 _) h2 _)
    h3 _)

/-- R51, R58: a host write while idle keeps the invariant, at every location inside the storages. -/
theorem inv_idleWrite {s : State} (h : s.Inv) (hr : s.resetAsserted = false) (offset : BitVec 16) (w : BitVec 32) :
    (s.idleWrite w (s.locOf offset)).Inv := by
  have hin := inside_locOf s offset
  cases hl : s.locOf offset with
  | ctrl => exact inv_writeCtrl h hr w
  | status => exact inv_writeStatus h hr w
  | startPc | carryLo | carryHi => exact inv_setControl h hr h.status _ _ _ _ _ _
  | pc | faultPc | faultInsn | mcountLo | mcountHi | config | unmapped => exact h
  | ibuf k =>
    rw [hl] at hin
    exact inv_writeIbufWord h hr hin w
  | regLo i | regHi i => exact inv_setRegs h hr (headroom_writeReg h.headroom i _)
  | imem j =>
    rw [hl] at hin
    exact inv_setImem h hr (memory_write_wf h.imemWf hin w)

/-- R51, R59, R230: a host write keeps the invariant. -/
theorem inv_hostWrite {s : State} (h : s.Inv) (offset : BitVec 16) (w : BitVec 32) : (s.hostWrite offset w).Inv := by
  obtain ⟨_, hw⟩ | ⟨hr, _, _, hw⟩ | ⟨hr, _, hw⟩ | ⟨⟨_, hr⟩, _, hw⟩ := hostWrite_cases s offset w <;> rw [hw]
  · exact h
  · exact inv_setControl h hr (status := { s.status with hostConflict := true }) h.status _ _ _ _ _ _
  · exact inv_writeStatus h hr w
  · exact inv_idleWrite h hr offset w

/-- R21, R165: a command run from a state of the invariant keeps it. -/
theorem inv_exec {i : Instr} {s t : State} (h : s.Inv) (hruns : s.runs i) (he : exec i s = .next t) : t.Inv := by
  obtain ⟨hb, hr, _, _⟩ := hruns
  have hregs := headroom_exec h.headroom he
  obtain ⟨_, hs⟩ | ⟨_, regs, carry, mcount, hs⟩ := exec_shape i s <;> rw [hs] at he <;> cases he
  · exact inv_setControl h hr (legal_endRun h.status hb) _ _ _ _ _ _
  · have hctl := inv_setControl h hr h.status carry mcount (s.pc + 1#32) s.startPc s.faultPc s.faultInsn
    exact inv_setRegs hctl hr hregs

/-- R161: a step of the sequencer keeps the invariant. -/
theorem inv_sequencerStep {s t : State} (h : s.Inv) (hs : s.sequencerStep = .next t) : t.Inv := by
  obtain ⟨_, he⟩ | ⟨_, hr, _, he⟩ | ⟨_, hr, _, _, he⟩ | ⟨i, hruns, he⟩ := sequencerStep_cases s <;> rw [he] at hs
  · cases hs; exact h
  · cases hs; exact inv_raiseFault h hr (by decide) _ _
  · cases hs; exact inv_raiseFault h hr (by decide) _ _
  · exact inv_exec h hruns hs

/-- Settles O35, move by move of the interleaving. -/
theorem stepKeepsInvariant : Obligations.StepKeepsInvariant := by
  intro s t h hstep
  obtain ⟨rest, hmove⟩ := step_cases hstep
  have h' : State.Inv { s with moves := rest } := inv_setHostFields h rest s.draws s.hostData
  obtain ⟨_, hs⟩ | ⟨offset, rfl⟩ | ⟨offset, w, _, rfl⟩ | ⟨_, rfl⟩ | rfl := hmove
  · exact inv_sequencerStep h' hs
  · exact inv_hostRead h' offset
  · exact inv_hostWrite h' offset w
  · exact inv_applyReset h'
  · exact inv_releaseReset h'

end Sys2Proof.Machine
end

section
/-! Which carry bits a command reads and writes, and what else may change one (spec/10_state.md R25, R34). -/

namespace Sys2Proof.Machine

/-- A set of carry bits with the slot `o`, if there is one, set to `b`. -/
def putSlot (c : BitVec 64) (o : Option Slot) (b : Bool) : BitVec 64 := o.elim c fun j => setBit c j b

/-- The slot put holds the bit put there. -/
theorem getLsbD_putSlot_same (c : BitVec 64) (j : Slot) (b : Bool) : (putSlot c (some j) b).getLsbD j.val = b := by
  rw [putSlot, Option.elim_some, getLsbD_setBit c j b j.val j.isLt, if_pos rfl]

/-- Every other slot keeps its bit. -/
theorem getLsbD_putSlot_other (c : BitVec 64) {o : Option Slot} {j : Slot} (b : Bool) (h : o ≠ some j) :
    (putSlot c o b).getLsbD j.val = c.getLsbD j.val := by
  cases o with
  | none => rfl
  | some k =>
    have hkj : k.val ≠ j.val := fun he => h (congrArg some (Fin.ext he))
    rw [putSlot, Option.elim_some, getLsbD_setBit c k b j.val j.isLt, if_neg hkj]

/-- Writing registers one after another carries the carry bits along. -/
theorem foldRegs_withCarry (f : Reg → Word) (l : List Reg) (s : State) (c : BitVec 64) :
    l.foldl (fun t p => t.writeReg p (f p)) { s with carry := c } =
      { l.foldl (fun t p => t.writeReg p (f p)) s with carry := c } := by
  induction l generalizing s with
  | nil => rfl
  | cons p l ih => exact ih (s.writeReg p (f p))

/-- R100: TRANSPOSE carries the carry bits along unread. -/
theorem writePlanes_withCarry (s : State) (c : BitVec 64) :
    State.writePlanes { s with carry := c } { s with carry := c } = { s.writePlanes s with carry := c } :=
  foldRegs_withCarry (fun p => s.plane p.val) basisRegs s c

/-- The shared result of ADV, MSTAR and ADDC, whose register value and carry-out are functions of the carry-in, from
other carry bits with the same carry-in. -/
theorem setRegCarry_withCarry (s : State) (rd : Reg) (ck : Slot) (value : Bool → Word) (cout : Bool → Bool)
    {c : BitVec 64} (h : c.getLsbD ck.val = s.readCarry ck) :
    State.setRegCarry { s with carry := c } rd (value (c.getLsbD ck.val)) ck (cout (c.getLsbD ck.val)) =
      { s.setRegCarry rd (value (s.readCarry ck)) ck (cout (s.readCarry ck)) with
        carry := setBit c ck (cout (s.readCarry ck)) } := by
  rw [h]
  rfl

/-- R34: the carry bits enter and leave a command at one place each: from any carry bits that agree with the state's on
the slot the command reads, it leads to the same state with the same bit put into the slot its carry field names. -/
theorem exec_withCarry (i : Instr) (s : State) : ∃ t b, exec i s = .next t ∧
    ∀ c : BitVec 64, (∀ j, readsSlot i = some j → c.getLsbD j.val = s.readCarry j) →
      exec i { s with carry := c } = .next { t with carry := putSlot c (carrySlot i) b } := by
  cases i with
  | transpose =>
    exact ⟨(s.writePlanes s).advance, false, rfl, fun c _ =>
      congrArg (fun u : State => Host.Outcome.next u.advance) (writePlanes_withCarry s c)⟩
  | nop | halt | setTrue _ | setFalse _ | band _ _ _ | bor _ _ _ | bxor _ _ _ | bnot _ _ | sel _ _ _ _
  | scanthru _ _ _ | popc _ _ | accpop _ | clrc _ => exact ⟨_, false, rfl, fun _ _ => rfl⟩
  | adv rd rm rcc ck =>
    exact ⟨_, _, rfl, fun c h => congrArg Host.Outcome.next (setRegCarry_withCarry s rd ck
      (advWord (s.readReg rm) (s.readReg rcc)) (advCarry (s.readReg rm) (s.readReg rcc)) (h ck rfl))⟩
  | mstar rd rm rcc ck =>
    exact ⟨_, _, rfl, fun c h => congrArg Host.Outcome.next (setRegCarry_withCarry s rd ck
      (mstarWord (s.readReg rm) (s.readReg rcc)) (fun cin => sumCarry (mstarSum (s.readReg rm) (s.readReg rcc) cin))
      (h ck rfl))⟩
  | addc rd ra rb ck =>
    exact ⟨_, _, rfl, fun c h => congrArg Host.Outcome.next (setRegCarry_withCarry s rd ck
      (fun cin => sumWord (exactSum (s.readReg ra) (s.readReg rb) cin))
      (fun cin => sumCarry (exactSum (s.readReg ra) (s.readReg rb) cin)) (h ck rfl))⟩

/-- R25, R34: a command puts a bit into the slot its carry field names and changes no other carry bit. -/
theorem exec_carry {i : Instr} {s t : State} (h : exec i s = .next t) :
    ∃ b, t.carry = putSlot s.carry (carrySlot i) b := by
  obtain ⟨u, b, _, hc⟩ := exec_withCarry i s
  have hu : exec i s = .next { u with carry := putSlot s.carry (carrySlot i) b } := hc s.carry fun _ _ => rfl
  rw [h] at hu
  cases hu
  exact ⟨b, rfl⟩

/-- The carry bits a command does not name keep their values. -/
theorem exec_readCarry_other {i : Instr} {s t : State} (h : exec i s = .next t) {j : Slot}
    (hj : carrySlot i ≠ some j) : t.readCarry j = s.readCarry j := by
  obtain ⟨b, hb⟩ := exec_carry h
  rw [State.readCarry, hb]
  exact getLsbD_putSlot_other s.carry b hj

/-- Settles O26: both sides follow from where the carry bits enter and leave a command. -/
theorem commandsUseOnlyNamedCarry : Obligations.CommandsUseOnlyNamedCarry := by
  constructor
  · intro i s
    obtain ⟨t, _, ht, _⟩ := exec_withCarry i s
    exact ⟨t, ht, fun j hj => exec_readCarry_other ht hj⟩
  · intro i s c hagree
    obtain ⟨t, b, ht, hc⟩ := exec_withCarry i s
    refine ⟨_, _, hc s.carry fun _ _ => rfl, hc c hagree, rfl, fun j hj => ?_⟩
    simp only [State.readCarry, hj, getLsbD_putSlot_same]

/-! Steps. -/

/-- R25: a step of the sequencer changes a carry bit only by a command whose carry field names it. -/
theorem sequencerStep_readCarry {s t : State} (h : s.sequencerStep = .next t) {j : Slot}
    (hj : t.readCarry j ≠ s.readCarry j) : ∃ i, s.runs i ∧ carrySlot i = some j := by
  obtain ⟨_, hs⟩ | ⟨_, _, _, hs⟩ | ⟨_, _, _, _, hs⟩ | ⟨i, hruns, hs⟩ := sequencerStep_cases s <;> rw [hs] at h
  · cases h; exact absurd rfl hj
  · cases h; exact absurd rfl hj
  · cases h; exact absurd rfl hj
  · exact ⟨i, hruns, by_contra fun hn => hj (exec_readCarry_other h hn)⟩

/-- R30: CLR_CARRY, bit by bit. -/
theorem readCarry_writeCtrl (s : State) (w : BitVec 32) (j : Slot) :
    (s.writeCtrl w).readCarry j = (s.readCarry j && !w.getLsbD 1) := by
  rw [writeCtrl_eq, State.readCarry, State.readCarry]
  cases w.getLsbD 1 <;> simp

/-- R25, R51: `CARRY_LO` is the carry bits below 32. -/
theorem readCarry_writeCarryLo (s : State) (w : BitVec 32) (j : Slot) :
    (s.idleWrite w .carryLo).readCarry j = if j.val < 32 then w.getLsbD j.val else s.readCarry j := by
  change (s.carry.extractLsb' 32 32 ++ w).getLsbD j.val = _
  rw [BitVec.getLsbD_append]
  split
  · rfl
  · have hj : j.val - 32 < 32 ∧ 32 + (j.val - 32) = j.val := by omega
    rw [BitVec.getLsbD_extractLsb', hj.2, decide_eq_true hj.1, Bool.true_and, State.readCarry]

/-- R25, R51: `CARRY_HI` is the carry bits from 32 up. -/
theorem readCarry_writeCarryHi (s : State) (w : BitVec 32) (j : Slot) :
    (s.idleWrite w .carryHi).readCarry j = if j.val < 32 then s.readCarry j else w.getLsbD (j.val - 32) := by
  change (w ++ s.carry.extractLsb' 0 32).getLsbD j.val = _
  rw [BitVec.getLsbD_append]
  split
  · next hj => rw [BitVec.getLsbD_extractLsb', Nat.zero_add, decide_eq_true hj, Bool.true_and, State.readCarry]
  · rfl

/-- R25, R30, R51: a host write while idle changes a carry bit only through its half of the window or by CLR_CARRY. -/
theorem idleWrite_readCarry {s : State} {w : BitVec 32} {loc : WindowLoc} {j : Slot}
    (hj : (s.idleWrite w loc).readCarry j ≠ s.readCarry j) :
    loc = .carryLo ∧ j.val < 32 ∨ loc = .carryHi ∧ 32 ≤ j.val ∨ loc = .ctrl ∧ w.getLsbD 1 = true := by
  cases loc with
  | carryLo =>
    rw [readCarry_writeCarryLo] at hj
    exact .inl ⟨rfl, by_contra fun hlt => hj (if_neg hlt)⟩
  | carryHi =>
    rw [readCarry_writeCarryHi] at hj
    exact .inr (.inl ⟨rfl, Nat.le_of_not_lt fun hlt => hj (if_pos hlt)⟩)
  | ctrl =>
    change (s.writeCtrl w).readCarry j ≠ s.readCarry j at hj
    rw [readCarry_writeCtrl] at hj
    exact .inr (.inr ⟨rfl, by_contra fun hn => hj (by rw [Bool.eq_false_of_not_eq_true hn]; simp)⟩)
  | status =>
    change (s.writeStatus w).readCarry j ≠ s.readCarry j at hj
    rw [writeStatus_eq] at hj
    exact absurd rfl hj
  | startPc | pc | faultPc | faultInsn | mcountLo | mcountHi | config | ibuf _ | regLo _ | regHi _ | imem _
  | unmapped => exact absurd rfl hj

/-- R25, R59: a host write changes a carry bit only while idle. -/
theorem hostWrite_readCarry {s : State} {offset : BitVec 16} {w : BitVec 32} {j : Slot}
    (hj : (s.hostWrite offset w).readCarry j ≠ s.readCarry j) :
    s.idle ∧ (s.locOf offset = .carryLo ∧ j.val < 32 ∨ s.locOf offset = .carryHi ∧ 32 ≤ j.val ∨
      s.locOf offset = .ctrl ∧ w.getLsbD 1 = true) := by
  obtain ⟨_, hw⟩ | ⟨_, _, _, hw⟩ | ⟨_, _, hw⟩ | ⟨hi, _, hw⟩ := hostWrite_cases s offset w <;> rw [hw] at hj
  · exact absurd rfl hj
  · exact absurd rfl hj
  · rw [writeStatus_eq] at hj
    exact absurd rfl hj
  · exact ⟨hi, idleWrite_readCarry hj⟩

/-- Settles O27, move by move of the interleaving. -/
theorem carryChangesOnlyByRule : Obligations.CarryChangesOnlyByRule := by
  intro s t j hstep hj
  obtain ⟨rest, ⟨hdue, hs⟩ | ⟨offset, rfl⟩ | ⟨offset, w, hdue, rfl⟩ | ⟨hdue, _⟩ | rfl⟩ := step_cases hstep
  · exact .inl ⟨hdue, sequencerStep_readCarry hs hj⟩
  · rw [hostRead_rest] at hj
    exact absurd rfl hj
  · exact .inr (.inr ⟨offset, w, hdue, hostWrite_readCarry (s := { s with moves := rest }) hj⟩)
  · exact .inr (.inl hdue)
  · exact absurd rfl hj

end Sys2Proof.Machine
end

section
/-! What the host sees of `CTRL`, `STATUS` and `CONFIG` (spec/10_state.md R30, R31, R33). -/

namespace Sys2Proof.Machine

/-- Settles O37: the strobes of an idle write, the refusal during a run, and the read while idle. -/
theorem ctrlStrobes : Obligations.CtrlStrobes := by
  refine ⟨fun s w rest hi => ?_, fun s w rest hb hr => ?_, fun s rest hi => ?_⟩
  · have hw := hostWrite_idle (s := { s with moves := rest }) hi 0x000#16 w
    have hcarry := readCarry_writeCtrl { s with moves := rest } w
    rw [locOf_ctrl, State.idleWrite] at hw
    rw [writeCtrl_eq] at hw hcarry
    refine ⟨_, congrArg Host.Outcome.next hw, hcarry, rfl, fun h0 => ⟨?_, if_pos h0, rfl⟩, fun h0 => ?_⟩
    · exact congrArg Status.busy (if_pos h0)
    · simp only [h0, Bool.false_eq_true, if_false]
  · exact congrArg Host.Outcome.next (hostWrite_busy (s := { s with moves := rest }) hb hr (by simp) w)
  · obtain ⟨hb, hr⟩ := hi
    exact ⟨_, congrArg Host.Outcome.next (hostRead_exact (s := { s with moves := rest }) hr (.inl hb)), rfl⟩

/-- Settles O56: `CTRL` is none of the locations whose value a run leaves open. -/
theorem ctrlReadsZeroDuringRun : Obligations.CtrlReadsZeroDuringRun := by
  intro s rest _ hr
  exact congrArg Host.Outcome.next (hostRead_exact (s := { s with moves := rest }) hr (.inr rfl))

/-- Settles O38: the fields of the word read, and the one bit a write clears. -/
theorem statusReadAndWrite : Obligations.StatusReadAndWrite := by
  refine ⟨fun s rest hr => ?_, fun s w rest hr => ?_⟩
  · obtain ⟨hbusy, hdone, hfault, hconflict⟩ := status_word_flags s.status
    exact ⟨_, congrArg Host.Outcome.next (hostRead_exact (s := { s with moves := rest }) hr (.inr rfl)),
      hbusy, hdone, hfault, hconflict, status_word_cause s.status⟩
  · have hw := hostWrite_status (s := { s with moves := rest }) hr (locOf_status _) w
    rw [writeStatus_eq] at hw
    exact ⟨_, congrArg Host.Outcome.next hw, rfl, rfl⟩

/-- Settles O41: the fields of the word read, the write ignored, and the size kept by every step. -/
theorem configIsConstant : Obligations.ConfigIsConstant := by
  refine ⟨fun s rest h hr => ?_, fun s w rest hi => ?_, fun s t => step_imemWords⟩
  · have hn : s.imemWords < 2 ^ 16 := Nat.lt_of_le_of_lt h.size.2 (by decide)
    obtain ⟨hwords, hregs, hslots⟩ := configWord_fields hn
    refine ⟨_, congrArg Host.Outcome.next (hostRead_exact (s := { s with moves := rest }) hr (.inr rfl)), hwords,
      hregs, hslots, fun h1024 => ?_⟩
    change s.configWord = _
    rw [State.configWord, h1024]
    rfl
  · have hw := hostWrite_idle (s := { s with moves := rest }) hi 0x028#16 w
    rw [locOf_config, State.idleWrite] at hw
    exact congrArg Host.Outcome.next hw

end Sys2Proof.Machine
end

section
/-! The host's window (spec/20_memory.md R51 to R58): which location an offset names, and what an access there does. -/

namespace Sys2Proof.Machine

/-! The map. -/

/-- R53: the aligned offset as a number. -/
theorem alignOffset_eq (offset : BitVec 16) : alignOffset offset = offset.toNat - offset.toNat % 4 := by
  have hlo : (offset.toNat &&& 0xFFFC) % 2 ^ 2 = 0 := by rw [Nat.and_mod_two_pow]; exact Nat.and_zero _
  have hhi : (offset.toNat &&& 0xFFFC) / 2 ^ 2 = offset.toNat / 2 ^ 2 := by
    have hlt := offset.isLt
    rw [Nat.and_div_two_pow, show 0xFFFC / 2 ^ 2 = 2 ^ 14 - 1 from rfl, Nat.and_two_pow_sub_one_eq_mod]
    omega
  rw [alignOffset, BitVec.toNat_and, show (0xFFFC#16).toNat = 0xFFFC from rfl]
  omega

/-- R53: an offset with bits 1:0 clear reaches the word at that offset. -/
theorem locOf_of_aligned (s : State) {a : Nat} (ha : a % 4 = 0) (hlt : a < 2 ^ 16) :
    s.locOf (BitVec.ofNat 16 a) = locOfAligned s.imemWords a := by
  rw [State.locOf, alignOffset_eq, BitVec.toNat_ofNat, Nat.mod_eq_of_lt hlt, ha, Nat.sub_zero]

/-- R53: bits 1:0 of an offset name nothing. -/
theorem locOf_and_align (s : State) (offset : BitVec 16) : s.locOf (offset &&& 0xFFFC#16) = s.locOf offset := by
  rw [State.locOf, State.locOf, alignOffset, alignOffset, BitVec.and_assoc, BitVec.and_self]

/-- R51: past the control registers the map goes by block of the window. -/
theorem locOfAligned_past_control (n : Nat) {a : Nat} (ha : 0x028 < a) : locOfAligned n a =
    if 0x100 ≤ a ∧ a ≤ 0x13C then .ibuf ((a - 0x100) / 4)
    else if 0x200 ≤ a ∧ a ≤ 0x2FC then
      (if (a - 0x200) % 8 = 0 then .regLo (Fin.ofNat 32 ((a - 0x200) / 8))
        else .regHi (Fin.ofNat 32 ((a - 0x200) / 8)))
    else if 0x1000 ≤ a ∧ (a - 0x1000) / 4 < n then .imem ((a - 0x1000) / 4)
    else .unmapped := by
  unfold locOfAligned
  iterate 11 rw [if_neg (by omega)]

/-- R55: the 16 words of IBUF. -/
theorem locOf_ibuf (s : State) {k : Nat} (hk : k < 16) : s.locOf (BitVec.ofNat 16 (0x100 + 4 * k)) = .ibuf k := by
  have hidx : (0x100 + 4 * k - 0x100) / 4 = k := by omega
  rw [locOf_of_aligned s (by omega) (by omega), locOfAligned_past_control _ (by omega), if_pos (by omega), hidx]

/-- R56: the low halves of the registers. -/
theorem locOf_regLo (s : State) (i : Reg) : s.locOf (BitVec.ofNat 16 (0x200 + 8 * i.val)) = .regLo i := by
  have hi := i.isLt
  have hidx : Fin.ofNat 32 ((0x200 + 8 * i.val - 0x200) / 8) = i := Fin.ext (by rw [Fin.val_ofNat]; omega)
  rw [locOf_of_aligned s (by omega) (by omega), locOfAligned_past_control _ (by omega), if_neg (by omega),
    if_pos (by omega), if_pos (by omega), hidx]

/-- R56: the high halves of the registers. -/
theorem locOf_regHi (s : State) (i : Reg) : s.locOf (BitVec.ofNat 16 (0x204 + 8 * i.val)) = .regHi i := by
  have hi := i.isLt
  have hidx : Fin.ofNat 32 ((0x204 + 8 * i.val - 0x200) / 8) = i := Fin.ext (by rw [Fin.val_ofNat]; omega)
  rw [locOf_of_aligned s (by omega) (by omega), locOfAligned_past_control _ (by omega), if_neg (by omega),
    if_pos (by omega), if_neg (by omega), hidx]

/-- R57: the words of IMEM, and the offsets beyond it. -/
theorem locOf_imem (s : State) {j : Nat} (hj : j < 1024) :
    s.locOf (BitVec.ofNat 16 (0x1000 + 4 * j)) = if j < s.imemWords then .imem j else .unmapped := by
  have hidx : (0x1000 + 4 * j - 0x1000) / 4 = j := by omega
  have hin : 0x1000 ≤ 0x1000 + 4 * j := by omega
  rw [locOf_of_aligned s (by omega) (by omega), locOfAligned_past_control _ (by omega), if_neg (by omega),
    if_neg (by omega), hidx]
  simp only [hin, true_and]

/-- R51: the offsets up to `0x028` are the 11 control registers. -/
theorem locOfAligned_control_ne_unmapped (n : Nat) {a : Nat} (ha : a % 4 = 0) (hle : a ≤ 0x028) :
    locOfAligned n a ≠ .unmapped := by
  obtain ⟨q, rfl⟩ : ∃ q, a = 4 * q := ⟨a / 4, by omega⟩
  have hq : q < 11 := by omega
  interval_cases q <;> simp [locOfAligned]

/-- R51, R58: the unmapped aligned offsets, in numbers. -/
theorem locOfAligned_eq_unmapped_iff (n : Nat) {a : Nat} (ha : a % 4 = 0) :
    locOfAligned n a = .unmapped ↔ unmappedOffset n a := by
  unfold unmappedOffset
  by_cases hle : a ≤ 0x028
  · exact ⟨fun h => absurd h (locOfAligned_control_ne_unmapped n ha hle), by omega⟩
  · rw [locOfAligned_past_control n (by omega)]
    split_ifs <;> simp only [true_iff, false_iff] <;> omega

/-- R58: a byte offset is unmapped exactly when the aligned one is: every gap begins and ends at a word. -/
theorem locOf_eq_unmapped_iff (s : State) (offset : BitVec 16) :
    s.locOf offset = .unmapped ↔ unmappedOffset s.imemWords offset.toNat := by
  have ha := alignOffset_eq offset
  rw [State.locOf, locOfAligned_eq_unmapped_iff s.imemWords (by omega), unmappedOffset, unmappedOffset]
  omega

/-! Accesses as steps. -/

/-- R58, R59: a step that is a host read of a location whose value is open neither by a run nor by reset. -/
theorem step_read_exact {s : State} {offset : BitVec 16} {loc : WindowLoc} (hl : s.locOf offset = loc)
    (hr : s.resetAsserted = false) (ho : s.status.busy = false ∨ loc.openWhileBusy = false) (rest : List Move) :
    step { s with moves := .read offset :: rest } = .next { s with hostData := s.windowWord loc, moves := rest } := by
  subst hl
  exact congrArg Host.Outcome.next (hostRead_exact (s := { s with moves := rest }) hr ho)

/-- A step that is a host read while idle. -/
theorem step_read_idle {s : State} (hi : s.idle) {offset : BitVec 16} {loc : WindowLoc} (hl : s.locOf offset = loc)
    (rest : List Move) :
    step { s with moves := .read offset :: rest } = .next { s with hostData := s.windowWord loc, moves := rest } := by
  obtain ⟨hb, hr⟩ := hi
  exact step_read_exact hl hr (.inl hb) rest

/-- A step that is a host write while idle. -/
theorem step_write_idle {s : State} (hi : s.idle) {offset : BitVec 16} {loc : WindowLoc} (hl : s.locOf offset = loc)
    (w : BitVec 32) (rest : List Move) :
    step { s with moves := .write offset w :: rest } = .next (State.idleWrite { s with moves := rest } w loc) := by
  subst hl
  exact congrArg Host.Outcome.next (hostWrite_idle (s := { s with moves := rest }) hi offset w)

/-- R51: an access goes by the location its offset names: two offsets of one location are read and written alike. -/
theorem access_congr {s : State} {a b : BitVec 16} (h : s.locOf a = s.locOf b) (w : BitVec 32) :
    s.hostRead a = s.hostRead b ∧ s.hostWrite a w = s.hostWrite b w := by
  simp only [State.hostRead, State.hostWrite, h, and_self]

/-- Settles O42: the two offsets name one location. -/
theorem hostAddressLowBitsIgnored : Obligations.HostAddressLowBitsIgnored := by
  intro s offset w rest
  obtain ⟨hread, hwrite⟩ := access_congr (locOf_and_align { s with moves := rest } offset).symm w
  exact ⟨congrArg Host.Outcome.next hread, congrArg Host.Outcome.next hwrite⟩

/-! The control registers. -/

/-- A 64-bit word is its two halves, as the host reads them. -/
theorem halves_append (v : BitVec 64) : v.extractLsb' 32 32 ++ v.extractLsb' 0 32 = v := by
  apply BitVec.eq_of_toNat_eq
  have hv := v.isLt
  simp only [toNat_append_mul, BitVec.extractLsb'_toNat, Nat.shiftRight_eq_div_pow]
  omega

/-- Settles O39: each offset names its register, and `MCOUNT` and the carry bits are made of their halves. -/
theorem controlRegisterReads : Obligations.ControlRegisterReads := by
  intro s rest hi
  refine ⟨⟨_, step_read_idle hi (loc := .startPc) rfl rest, rfl⟩, ⟨_, step_read_idle hi (loc := .pc) rfl rest, rfl⟩,
    ⟨_, step_read_idle hi (loc := .faultPc) rfl rest, rfl⟩, ⟨_, step_read_idle hi (loc := .faultInsn) rfl rest, rfl⟩,
    ⟨_, _, step_read_idle hi (loc := .mcountLo) rfl rest, step_read_idle hi (loc := .mcountHi) rfl rest, ?_⟩,
    ⟨_, step_read_idle hi (loc := .carryLo) rfl rest, fun j hj => ?_⟩,
    ⟨_, step_read_idle hi (loc := .carryHi) rfl rest, fun j hj => ?_⟩⟩
  · simp only [State.windowWord]
    rw [← toNat_append_mul, halves_append]
  · simp only [State.windowWord, State.readCarry, BitVec.getLsbD_extractLsb', hj, Nat.zero_add, decide_true,
      Bool.true_and]
  · have hk : j.val - 32 < 32 ∧ 32 + (j.val - 32) = j.val := by omega
    simp only [State.windowWord, State.readCarry, BitVec.getLsbD_extractLsb', hk, decide_true, Bool.true_and]

/-- Settles O40: each offset names its register, and each half of the carry bits keeps the other. -/
theorem controlRegisterWrites : Obligations.ControlRegisterWrites := by
  intro s w rest hi
  exact ⟨step_write_idle hi (loc := .startPc) rfl w rest,
    ⟨_, step_write_idle hi (loc := .carryLo) rfl w rest, readCarry_writeCarryLo { s with moves := rest } w, rfl⟩,
    ⟨_, step_write_idle hi (loc := .carryHi) rfl w rest, readCarry_writeCarryHi { s with moves := rest } w, rfl⟩⟩

end Sys2Proof.Machine
end

section
/-! The storages and the registers in the host's window (spec/20_memory.md R55 to R57). -/

namespace Sys2Proof.Machine

/-! IBUF. -/

/-- R55: byte `b` of a host word of IBUF, counted from its low end. -/
theorem ibufWord_byte (s : State) (k : Nat) {b : Nat} (hb : b < 4) :
    (s.ibufWord k).extractLsb' (8 * b) 8 = s.ibufByte (4 * k + b) := by
  have h0 := (s.ibufByte (4 * k)).isLt
  have h1 := (s.ibufByte (4 * k + 1)).isLt
  have h2 := (s.ibufByte (4 * k + 2)).isLt
  have h3 := (s.ibufByte (4 * k + 3)).isLt
  apply BitVec.eq_of_toNat_eq
  simp only [BitVec.extractLsb'_toNat, State.ibufWord, toNat_append_mul, Nat.shiftRight_eq_div_pow]
  interval_cases b
  · change _ = (s.ibufByte (4 * k)).toNat
    omega
  · omega
  · omega
  · omega

/-- R55: a write of a host word of IBUF sets its four bytes. Each reads back by the canonical form, which the writes
before it keep. -/
theorem ibufByte_writeIbufWord_same {s : State} (h : s.Inv) {k : Nat} (hk : k < 16) (w : BitVec 32) {b : Nat}
    (hb : b < 4) : (s.writeIbufWord k w).ibufByte (4 * k + b) = w.extractLsb' (8 * b) 8 := by
  have wf0 := h.ibufWf
  have wf1 := memory_write_wf wf0 (by omega : 4 * k < 64) (w.extractLsb' 0 8)
  have wf2 := memory_write_wf wf1 (by omega : 4 * k + 1 < 64) (w.extractLsb' 8 8)
  have wf3 := memory_write_wf wf2 (by omega : 4 * k + 2 < 64) (w.extractLsb' 16 8)
  simp only [State.ibufByte, State.writeIbufWord]
  interval_cases b
  · rw [memory_read_write_other _ _ (by omega), memory_read_write_other _ _ (by omega),
      memory_read_write_other _ _ (by omega)]
    exact memory_wf_read_write wf0 _ _
  · rw [memory_read_write_other _ _ (by omega), memory_read_write_other _ _ (by omega)]
    exact memory_wf_read_write wf1 _ _
  · rw [memory_read_write_other _ _ (by omega)]
    exact memory_wf_read_write wf2 _ _
  · exact memory_wf_read_write wf3 _ _

/-- R55: it leaves every other byte alone. -/
theorem ibufByte_writeIbufWord_other (s : State) (k : Nat) (w : BitVec 32) {a : Nat}
    (ha : a < 4 * k ∨ 4 * k + 4 ≤ a) : (s.writeIbufWord k w).ibufByte a = s.ibufByte a := by
  simp only [State.ibufByte, State.writeIbufWord]
  rw [memory_read_write_other _ _ (by omega), memory_read_write_other _ _ (by omega),
    memory_read_write_other _ _ (by omega), memory_read_write_other _ _ (by omega)]

/-- Settles O43: the bytes of the word read, the bytes written, and the others. -/
theorem ibufWordsLittleEndian : Obligations.IbufWordsLittleEndian := by
  intro s k w rest h hi hk
  have h' : State.Inv { s with moves := rest } := inv_setHostFields h rest s.draws s.hostData
  exact ⟨⟨_, step_read_idle hi (locOf_ibuf s hk) rest, fun b hb => ibufWord_byte s k hb⟩,
    ⟨_, step_write_idle hi (locOf_ibuf s hk) w rest, fun b hb => ibufByte_writeIbufWord_same h' hk w hb,
      fun a ha => ibufByte_writeIbufWord_other { s with moves := rest } k w ha, rfl⟩⟩

/-! Registers. -/

/-- R21, R56: a write of the low half of a register stores it and keeps the payload of the high half. -/
theorem getLsbD_idleWrite_regLo (s : State) (i : Reg) (w : BitVec 32) (k : Nat) :
    ((s.idleWrite w (.regLo i)).readReg i).getLsbD k =
      (decide (k < 63) && if k < 32 then w.getLsbD k else (s.readReg i).getLsbD k) := by
  rw [State.idleWrite, readReg_writeReg_same, getLsbD_payload, Bool.and_comm, BitVec.getLsbD_append]
  by_cases hlo : k < 32
  · simp only [hlo, if_true]
  · by_cases hk : k < 63
    · have hhi : k - 32 < 32 ∧ 32 + (k - 32) = k := by omega
      simp only [hlo, if_false, BitVec.getLsbD_extractLsb', hhi, decide_true, Bool.true_and]
    · simp only [hk, decide_false, Bool.false_and]

/-- R21, R56: a write of the high half of a register stores it without its bit 31 and keeps the low half. -/
theorem getLsbD_idleWrite_regHi (s : State) (i : Reg) (w : BitVec 32) (k : Nat) :
    ((s.idleWrite w (.regHi i)).readReg i).getLsbD k =
      (decide (k < 63) && if k < 32 then (s.readReg i).getLsbD k else w.getLsbD (k - 32)) := by
  rw [State.idleWrite, readReg_writeReg_same, getLsbD_payload, Bool.and_comm, BitVec.getLsbD_append]
  by_cases hlo : k < 32
  · simp only [hlo, if_true, BitVec.getLsbD_extractLsb', Nat.zero_add, decide_true, Bool.true_and]
  · simp only [hlo, if_false]

/-- Settles O44: the two words read make up the register, and each write goes through the payload. -/
theorem registerHalvesInWindow : Obligations.RegisterHalvesInWindow := by
  intro s i w rest hi
  refine ⟨⟨_, _, step_read_idle hi (locOf_regLo s i) rest, step_read_idle hi (locOf_regHi s i) rest,
      (halves_append _).symm, fun h63 => ?_⟩,
    ⟨_, step_write_idle hi (locOf_regLo s i) w rest, getLsbD_idleWrite_regLo _ i w,
      fun r hr => readReg_writeReg_other _ _ hr, rfl⟩,
    ⟨_, step_write_idle hi (locOf_regHi s i) w rest, getLsbD_idleWrite_regHi _ i w,
      fun r hr => readReg_writeReg_other _ _ hr, rfl⟩⟩
  rw [State.windowWord, BitVec.getLsbD_extractLsb', h63, Bool.and_false]

/-! IMEM. -/

/-- R57: a write of a word of IMEM sets it, by the canonical form, and leaves every other word alone. -/
theorem imemWord_idleWrite {s : State} (h : s.Inv) (j : Nat) (w : BitVec 32) :
    (s.idleWrite w (.imem j)).imemWord j = w ∧ ∀ a, a ≠ j → (s.idleWrite w (.imem j)).imemWord a = s.imemWord a :=
  ⟨memory_wf_read_write h.imemWf j w, fun _ ha => memory_read_write_other s.imem w ha⟩

/-- Settles O45, by whether the word lies inside IMEM. -/
theorem imemWordsInWindow : Obligations.ImemWordsInWindow := by
  intro s j w rest h hi hj
  have h' : State.Inv { s with moves := rest } := inv_setHostFields h rest s.draws s.hostData
  have hloc := locOf_imem s hj
  constructor
  · intro hin
    rw [if_pos hin] at hloc
    obtain ⟨hsame, hother⟩ := imemWord_idleWrite h' j w
    exact ⟨⟨_, step_read_idle hi hloc rest, rfl⟩, ⟨_, step_write_idle hi hloc w rest, hsame, hother, rfl⟩⟩
  · intro hout
    rw [if_neg (by omega)] at hloc
    exact ⟨⟨_, step_read_idle hi hloc rest, rfl⟩, step_write_idle hi hloc w rest⟩

end Sys2Proof.Machine
end

section
/-! What is unmapped or read-only, accesses during a run, and how IMEM changes (spec/20_memory.md R58, R59, R66). -/

namespace Sys2Proof.Machine

/-! Unmapped and read-only offsets. -/

/-- R31, R58: the reserved bits of `STATUS` read 0. -/
theorem status_word_reserved (st : Status) : st.word &&& 0xFFFFF0F0#32 = 0#32 := by
  obtain ⟨busy, done, fault, conflict, cause⟩ := st
  cases cause <;> revert busy done fault conflict <;> decide

/-- R51: the offsets of the read-only registers name them. -/
theorem locOf_readOnly {s : State} {offset : BitVec 16}
    (h : offset &&& 0xFFFC#16 ∈ [0x00C#16, 0x010#16, 0x014#16, 0x018#16, 0x01C#16, 0x028#16]) :
    s.locOf offset ∈ [WindowLoc.pc, .faultPc, .faultInsn, .mcountLo, .mcountHi, .config] := by
  rw [← locOf_and_align]
  revert h
  generalize offset &&& 0xFFFC#16 = a
  simp only [List.mem_cons, List.not_mem_nil, or_false]
  rintro (rfl | rfl | rfl | rfl | rfl | rfl)
  · exact .inl rfl
  · exact .inr (.inl rfl)
  · exact .inr (.inr (.inl rfl))
  · exact .inr (.inr (.inr (.inl rfl)))
  · exact .inr (.inr (.inr (.inr (.inl rfl))))
  · exact .inr (.inr (.inr (.inr (.inr rfl))))

/-- R58: an idle write to an unmapped location or a read-only register does nothing. -/
theorem idleWrite_ignored (s : State) (w : BitVec 32) {loc : WindowLoc}
    (h : loc = .unmapped ∨ loc ∈ [WindowLoc.pc, .faultPc, .faultInsn, .mcountLo, .mcountHi, .config]) :
    s.idleWrite w loc = s := by
  simp only [List.mem_cons, List.not_mem_nil, or_false] at h
  obtain rfl | rfl | rfl | rfl | rfl | rfl | rfl := h <;> rfl

/-- Settles O46: the gaps of the map in numbers, the reads of 0, the ignored writes, and that a read changes nothing. -/
theorem unmappedAndReadOnlyIgnored : Obligations.UnmappedAndReadOnlyIgnored := by
  refine ⟨locOf_eq_unmapped_iff, fun s offset rest hun hr => ?_, fun s rest hi => ?_, fun s rest hr => ?_,
    fun s offset w rest hi hoff => ?_, fun s offset rest => ?_⟩
  · exact ⟨_, step_read_exact ((locOf_eq_unmapped_iff s offset).mpr hun) hr (.inr rfl) rest, rfl⟩
  · exact ⟨_, step_read_idle hi (locOf_ctrl s) rest, rfl⟩
  · exact ⟨_, step_read_exact (locOf_status s) hr (.inr rfl) rest, status_word_reserved s.status⟩
  · have hloc := hoff.imp (locOf_eq_unmapped_iff s offset).mpr (locOf_readOnly (s := s))
    rw [step_write_idle hi rfl w rest, idleWrite_ignored _ w hloc]
  · exact ⟨_, rfl, hostRead_rest { s with moves := rest } offset⟩

/-! Accesses during a run. -/

/-- R59: the locations whose reads during a run are exact. -/
theorem exactWhileBusy_of_mem {loc : WindowLoc} (h : loc ∈ [WindowLoc.status, .config, .startPc, .unmapped]) :
    loc.openWhileBusy = false := by
  simp only [List.mem_cons, List.not_mem_nil, or_false] at h
  obtain rfl | rfl | rfl | rfl := h <;> rfl

/-- R59: the reads of every other location but `CTRL` are open. -/
theorem openWhileBusy_of_not_mem {loc : WindowLoc}
    (h : loc ∉ [WindowLoc.status, .config, .startPc, .unmapped, .ctrl]) : loc.openWhileBusy = true := by
  cases loc with
  | status | config | startPc | unmapped | ctrl => exact absurd (by decide) h
  | pc | faultPc | faultInsn | mcountLo | mcountHi | carryLo | carryHi | ibuf _ | regLo _ | regHi _ | imem _ => rfl

/-- R59: a host read of an open location during a run draws the next free value. -/
theorem hostRead_open {s : State} {offset : BitVec 16} (hb : s.status.busy = true)
    (ho : (s.locOf offset).openWhileBusy = true) : s.hostRead offset = s.drawRead := by
  simp only [State.hostRead, hb, ho, Bool.and_self, Bool.or_true, if_true]

/-- Settles O47: each access by the location its offset names. -/
theorem hostAccessWhileBusy : Obligations.HostAccessWhileBusy := by
  intro s offset w rest hb hr
  refine ⟨fun hl => ?_, fun hl => ?_, fun hl => ?_, fun hl => ?_⟩
  · exact congrArg Host.Outcome.next (hostWrite_busy (s := { s with moves := rest }) hb hr hl w)
  · have hw := hostWrite_status (s := { s with moves := rest }) hr hl w
    rw [writeStatus_eq] at hw
    exact congrArg Host.Outcome.next hw
  · exact step_read_exact rfl hr (.inr (exactWhileBusy_of_mem hl)) rest
  · exact congrArg Host.Outcome.next (hostRead_open (s := { s with moves := rest }) hb (openWhileBusy_of_not_mem hl))

/-! How IMEM changes. -/

/-- R66: no step of the sequencer writes IMEM, moves the reset input or takes a move of the host's. -/
theorem sequencerStep_keeps {s t : State} (h : s.sequencerStep = .next t) :
    t.imem = s.imem ∧ t.resetAsserted = s.resetAsserted ∧ t.moves = s.moves := by
  obtain ⟨_, hs⟩ | ⟨_, _, _, hs⟩ | ⟨_, _, _, _, hs⟩ | ⟨i, _, hs⟩ := sequencerStep_cases s <;> rw [hs] at h
  · cases h; exact ⟨rfl, rfl, rfl⟩
  · cases h; exact ⟨rfl, rfl, rfl⟩
  · cases h; exact ⟨rfl, rfl, rfl⟩
  · obtain ⟨_, he⟩ | ⟨_, _, _, _, he⟩ := exec_shape i s <;> rw [he] at h <;> cases h <;> exact ⟨rfl, rfl, rfl⟩

/-- R28, R57: an idle write changes a word of IMEM only at the location of that word. -/
theorem idleWrite_imemWord {s : State} (h : s.Inv) {w : BitVec 32} {loc : WindowLoc} {j : Nat}
    (hj : (s.idleWrite w loc).imemWord j ≠ s.imemWord j) :
    loc = .imem j ∧ (s.idleWrite w loc).imemWord j = w := by
  cases loc with
  | imem k =>
    obtain ⟨hsame, hother⟩ := imemWord_idleWrite h k w
    have hjk : j = k := by_contra fun hne => hj (hother j hne)
    subst hjk
    exact ⟨rfl, hsame⟩
  | ctrl =>
    rw [State.idleWrite, writeCtrl_eq] at hj
    exact absurd rfl hj
  | status =>
    rw [State.idleWrite, writeStatus_eq] at hj
    exact absurd rfl hj
  | startPc | pc | faultPc | faultInsn | mcountLo | mcountHi | carryLo | carryHi | config | ibuf _ | regLo _ | regHi _
  | unmapped => exact absurd rfl hj

/-- R28, R59: a host write changes a word of IMEM only while idle. -/
theorem hostWrite_imemWord {s : State} (h : s.Inv) {offset : BitVec 16} {w : BitVec 32} {j : Nat}
    (hj : (s.hostWrite offset w).imemWord j ≠ s.imemWord j) :
    s.idle ∧ s.locOf offset = .imem j ∧ (s.hostWrite offset w).imemWord j = w := by
  obtain ⟨_, hw⟩ | ⟨_, _, _, hw⟩ | ⟨_, _, hw⟩ | ⟨hi, _, hw⟩ := hostWrite_cases s offset w <;> rw [hw] at hj ⊢
  · exact absurd rfl hj
  · exact absurd rfl hj
  · rw [writeStatus_eq] at hj
    exact absurd rfl hj
  · exact ⟨hi, idleWrite_imemWord h hj⟩

/-- Settles O28, move by move of the interleaving. -/
theorem imemChangesOnlyByRule : Obligations.ImemChangesOnlyByRule := by
  intro s t j h hstep hj
  obtain ⟨rest, ⟨_, hs⟩ | ⟨offset, rfl⟩ | ⟨offset, w, hdue, rfl⟩ | ⟨hdue, _⟩ | rfl⟩ := step_cases hstep
  · obtain ⟨himem, _⟩ := sequencerStep_keeps hs
    exact absurd (congrArg (Memory.read · j) himem) hj
  · rw [hostRead_rest] at hj
    exact absurd rfl hj
  · have h' : State.Inv { s with moves := rest } := inv_setHostFields h rest s.draws s.hostData
    exact .inr ⟨offset, w, hdue, hostWrite_imemWord h' hj⟩
  · exact .inl hdue
  · exact absurd rfl hj

end Sys2Proof.Machine
end

section
/-! No host access during a run influences it (spec/20_memory.md R59, R63): a step of the sequencer carries the host's
and the model's own fields along unread, and an access during a run changes no other field. -/

namespace Sys2Proof.Machine

/-! The fields a run does not depend on. -/

/-- `s` with other values of `HOST_CONFLICT` and of the host's and the model's own fields. -/
def State.withHost (s : State) (conflict : Bool) (moves : List Move) (draws : Nat) (hostData : BitVec 32) : State :=
  { s with
    status := { s.status with hostConflict := conflict }, moves := moves, draws := draws, hostData := hostData }

/-- Two states that agree in all but those fields: one is the other with its own values of them. -/
theorem eq_withHost_of_runView {s s' : State} (h : s.runView = s'.runView) :
    s = s'.withHost s.status.hostConflict s.moves s.draws s.hostData :=
  calc s = s.runView.withHost s.status.hostConflict s.moves s.draws s.hostData := rfl
    _ = s'.runView.withHost s.status.hostConflict s.moves s.draws s.hostData := by rw [h]
    _ = s'.withHost s.status.hostConflict s.moves s.draws s.hostData := rfl

/-- Such states are both in a run or both not, and both under reset or both not. -/
theorem busy_reset_of_runView {s s' : State} (h : s.runView = s'.runView) :
    s.status.busy = s'.status.busy ∧ s.resetAsserted = s'.resetAsserted := by
  rw [eq_withHost_of_runView h]
  exact ⟨rfl, rfl⟩

/-- Writing registers one after another carries those fields along. -/
theorem foldRegs_withHost (f : Reg → Word) (l : List Reg) (s : State) (c : Bool) (ms : List Move) (n : Nat)
    (d : BitVec 32) :
    l.foldl (fun t p => t.writeReg p (f p)) (s.withHost c ms n d) =
      (l.foldl (fun t p => t.writeReg p (f p)) s).withHost c ms n d := by
  induction l generalizing s with
  | nil => rfl
  | cons p l ih => exact ih (s.writeReg p (f p))

/-- R100: TRANSPOSE carries them along unread. -/
theorem writePlanes_withHost (s : State) (c : Bool) (ms : List Move) (n : Nat) (d : BitVec 32) :
    (s.withHost c ms n d).writePlanes (s.withHost c ms n d) = (s.writePlanes s).withHost c ms n d :=
  foldRegs_withHost (fun p => s.plane p.val) basisRegs s c ms n d

/-- So does the end of a command (R163). -/
theorem advance_withHost (s : State) (c : Bool) (ms : List Move) (n : Nat) (d : BitVec 32) :
    (s.withHost c ms n d).advance = s.advance.withHost c ms n d := (rfl)

/-- R59, R174: so does every command. -/
theorem exec_withHost {i : Instr} {s t : State} (h : exec i s = .next t) (c : Bool) (ms : List Move) (n : Nat)
    (d : BitVec 32) : exec i (s.withHost c ms n d) = .next (t.withHost c ms n d) := by
  cases i with
  | transpose =>
    cases h
    rw [← advance_withHost, ← writePlanes_withHost]
    rfl
  | nop | halt | setTrue _ | setFalse _ | band _ _ _ | bor _ _ _ | bxor _ _ _ | bnot _ _ | sel _ _ _ _ | adv _ _ _ _
  | mstar _ _ _ _ | scanthru _ _ _ | addc _ _ _ _ | popc _ _ | accpop _ | clrc _ => cases h; rfl

/-- R161, R174: so does every step of the sequencer: whether it steps, the word it fetches and the command that word is
are the same. -/
theorem sequencerStep_withHost {s t : State} (h : s.sequencerStep = .next t) (c : Bool) (ms : List Move) (n : Nat)
    (d : BitVec 32) : (s.withHost c ms n d).sequencerStep = .next (t.withHost c ms n d) := by
  have hfetch : (s.withHost c ms n d).fetch = s.fetch := rfl
  have hgate : ((s.withHost c ms n d).status.busy && !(s.withHost c ms n d).resetAsserted) =
      (s.status.busy && !s.resetAsserted) := rfl
  rw [State.sequencerStep] at h ⊢
  rw [hgate]
  split
  · next hrun =>
    rw [if_pos hrun, State.runStep] at h
    rw [State.runStep, hfetch]
    cases hw : s.fetch with
    | none =>
      rw [hw] at h
      cases h
      rfl
    | some w =>
      rw [hw] at h
      simp only [State.executeWord] at h ⊢
      cases hd : decode w with
      | ok i =>
        rw [hd] at h
        exact exec_withHost h c ms n d
      | error why =>
        rw [hd] at h
        cases h
        rfl
  · next hrun =>
    rw [if_neg hrun] at h
    cases h
    rfl

/-- R174: from two states that agree in all but those fields, a step of the sequencer leads to two such states. -/
theorem sequencerStep_runView {s s' t' : State} (h : s.runView = s'.runView) (hs' : s'.sequencerStep = .next t') :
    ∃ t, s.sequencerStep = .next t ∧ t.runView = t'.runView := by
  rw [eq_withHost_of_runView h]
  exact ⟨_, sequencerStep_withHost hs' _ _ _ _, rfl⟩

/-- R59, R63: a host access during a run changes nothing a run depends on. -/
theorem access_runView {s : State} (hb : s.status.busy = true) (hr : s.resetAsserted = false) {m : Move}
    (hm : m.isAccess = true) : ∃ t, s.perform m = .next t ∧ t.runView = s.runView ∧ t.moves = s.moves := by
  cases m with
  | sequencer | assertReset | releaseReset => exact absurd hm (by decide)
  | read offset =>
    refine ⟨_, rfl, ?_⟩
    rw [hostRead_rest]
    exact ⟨rfl, rfl⟩
  | write offset w =>
    refine ⟨_, rfl, ?_⟩
    by_cases hl : s.locOf offset = .status
    · rw [hostWrite_status hr hl, writeStatus_eq]
      exact ⟨rfl, rfl⟩
    · rw [hostWrite_busy hb hr hl]
      exact ⟨rfl, rfl⟩

/-! Stretches of steps. -/

/-- On any machine, a stretch of `k + 1` steps that answers a next state is a step and a stretch of `k`. -/
theorem core_run_succ (M : Host.Core) {k : Nat} {s u : M.State} :
    M.run (k + 1) s = .next u ↔ ∃ t, M.step s = .next t ∧ M.run k t = .next u := by
  rw [Host.Core.run]
  cases M.step s with
  | next t => exact ⟨fun h => ⟨t, rfl, h⟩, fun ⟨_, ht, h⟩ => by cases ht; exact h⟩
  | fault r => exact ⟨nofun, fun ⟨_, ht, _⟩ => nomatch ht⟩
  | refused r => exact ⟨nofun, fun ⟨_, ht, _⟩ => nomatch ht⟩

/-- The same of the block. -/
theorem runFor_succ {k : Nat} {s u : State} :
    runFor (k + 1) s = .next u ↔ ∃ t, step s = .next t ∧ runFor k t = .next u :=
  core_run_succ core

/-- R223: an idle block with no move due holds its state. -/
theorem runFor_idle (k : Nat) {s : State} (hm : s.moves = []) (hb : s.status.busy = false) :
    runFor k s = .next s := by
  have hstep : step s = .next s := by
    rw [step_of_moves_nil hm, State.sequencerStep, hb]
    rfl
  induction k with
  | zero => rfl
  | succ k ih => exact runFor_succ.mpr ⟨s, hstep, ih⟩

/-- So a run that is in progress after some steps of the sequencer was in progress before them. -/
theorem busy_of_runFor {k : Nat} {s u : State} (hm : s.moves = []) (h : runFor k s = .next u)
    (hu : u.status.busy = true) : s.status.busy = true := by
  by_contra hb
  rw [Bool.not_eq_true] at hb
  rw [runFor_idle k hm hb] at h
  cases h
  exact absurd (hb.symm.trans hu) (by decide)

/-- R59, R63: an interleaving of sequencer steps and host accesses from `s`, beside the sequencer's steps alone from any
`s'` that agrees with it: they agree at the end, if the run is then still in progress. -/
theorem runFor_interleaving {ms : List Move} (hms : ∀ m ∈ ms, m = .sequencer ∨ m.isAccess = true) {s s' u : State}
    (hs : s.moves = ms) (hr : s.resetAsserted = false) (hs' : s'.moves = []) (hview : s.runView = s'.runView)
    (hrun : runFor (ms.countP (fun m => m = .sequencer)) s' = .next u) (hu : u.status.busy = true) :
    ∃ t, runFor ms.length s = .next t ∧ t.runView = u.runView := by
  induction ms generalizing s s' with
  | nil =>
    cases hrun
    exact ⟨s, rfl, hview⟩
  | cons m ms ih =>
    obtain ⟨hm, hrest⟩ := List.forall_mem_cons.mp hms
    have hstep := step_of_moves_cons hs
    obtain rfl | hm := hm
    · rw [List.countP_cons_of_pos (by decide)] at hrun
      obtain ⟨t', hstep', hrun⟩ := runFor_succ.mp hrun
      rw [step_of_moves_nil hs'] at hstep'
      obtain ⟨t, hseq, htview⟩ := sequencerStep_runView (s := { s with moves := ms }) hview hstep'
      obtain ⟨_, htr, htm⟩ := sequencerStep_keeps hseq
      obtain ⟨_, _, htm'⟩ := sequencerStep_keeps hstep'
      obtain ⟨v, hv, hvu⟩ := ih hrest htm (htr.trans hr) (htm'.trans hs') htview hrun
      exact ⟨v, runFor_succ.mpr ⟨t, hstep.trans hseq, hv⟩, hvu⟩
    · have hne : m ≠ .sequencer := by
        rintro rfl
        exact absurd hm (by decide)
      rw [List.countP_cons_of_neg (by simpa using hne)] at hrun
      obtain ⟨hbusy, _⟩ := busy_reset_of_runView hview
      have hb : s.status.busy = true := hbusy.trans (busy_of_runFor hs' hrun hu)
      obtain ⟨t, hperf, htview, htm⟩ := access_runView (s := { s with moves := ms }) hb hr hm
      obtain ⟨_, htr⟩ := busy_reset_of_runView htview
      obtain ⟨v, hv, hvu⟩ := ih hrest htm (htr.trans hr) hs' (htview.trans hview) hrun
      exact ⟨v, runFor_succ.mpr ⟨t, hstep.trans hperf, hv⟩, hvu⟩

/-- Settles O50: the interleaving beside the sequencer's steps from the state itself. -/
theorem hostCannotInfluenceRun : Obligations.HostCannotInfluenceRun := by
  intro ms s u hs hr hms hrun hu
  exact runFor_interleaving (s' := { s with moves := [] }) hms hs hr rfl rfl hrun hu

end Sys2Proof.Machine
end

section
/-! The decoder row by row (spec/30_encoding.md R81 to R90): a word whose `OPC` is a row's is that row's command, read
from the word's fields, unless a reserved bit of the row's format is 1; and that command packs to the word again. -/

namespace Sys2Proof

open Sys2Proof.Machine

/-! The rows of the opcode map. -/

/-- R85: the command of a row with its operands read from the fields of a word. -/
def Op.read (w : Cmd) : Op → Instr
  | .nop => .nop
  | .halt => .halt
  | .transpose => .transpose
  | .setTrue => .setTrue (rdOf w)
  | .setFalse => .setFalse (rdOf w)
  | .band => .band (rdOf w) (raOf w) (rbOf w)
  | .bor => .bor (rdOf w) (raOf w) (rbOf w)
  | .bxor => .bxor (rdOf w) (raOf w) (rbOf w)
  | .bnot => .bnot (rdOf w) (raOf w)
  | .sel => .sel (rdOf w) (raOf w) (rbOf w) (rcOf w)
  | .adv => .adv (rdOf w) (raOf w) (rbOf w) (ciOf w)
  | .mstar => .mstar (rdOf w) (raOf w) (rbOf w) (ciOf w)
  | .scanthru => .scanthru (rdOf w) (raOf w) (rbOf w)
  | .addc => .addc (rdOf w) (raOf w) (rbOf w) (ciOf w)
  | .popc => .popc (rdOf w) (raOf w)
  | .accpop => .accpop (raOf w)
  | .clrc => .clrc (ciOf w)

@[simp] theorem op_read (w : Cmd) (op : Op) : (op.read w).op = op := by
  cases op <;> rfl

/-- R85: a row's `match` and `mask` are made of its `OPC` and its format's reserved mask. -/
theorem row_match_mask : ∀ r ∈ opcodeTable,
    r.pattern = r.opc.setWidth 32 <<< 26 ∧ r.mask = 0xFC000000#32 ||| r.format.reserved := by decide

/-- R88: no two rows have the same `OPC`. -/
theorem row_opc_injective : ∀ r ∈ opcodeTable, ∀ r' ∈ opcodeTable, r.opc.toNat = r'.opc.toNat → r = r' := by decide

/-- R85: no two rows are of the same command. -/
theorem row_op_injective : ∀ r ∈ opcodeTable, ∀ r' ∈ opcodeTable, r.op = r'.op → r = r' := by decide

/-- R85, R87: the `OPC` values with a row are `0x01..0x11`. -/
theorem exists_row_iff (n : Nat) : (∃ r ∈ opcodeTable, r.opc.toNat = n) ↔ 1 ≤ n ∧ n < 0x12 := by
  constructor
  · rintro ⟨r, hr, rfl⟩
    have hall : ∀ r ∈ opcodeTable, 1 ≤ r.opc.toNat ∧ r.opc.toNat < 0x12 := by decide
    exact hall r hr
  · rintro ⟨hlo, hhi⟩
    have hall : ∀ n < 0x12, 1 ≤ n → ∃ r ∈ opcodeTable, r.opc.toNat = n := by decide
    exact hall n hhi hlo

/-! The decoder. -/

/-- R85, R87: a word with a row's `OPC` decodes to the row's command if its reserved bits are 0. -/
theorem decode_of_row {w : Cmd} {r : Row} (hr : r ∈ opcodeTable) (ho : r.opc.toNat = opcOf w) :
    decode w = checked r.format w (r.op.read w) := by
  unfold decode
  rw [← ho]
  fin_cases hr <;> rfl

/-- R87: a word whose `OPC` no row has is illegal. -/
theorem decode_of_no_row {w : Cmd} (h : ¬∃ r ∈ opcodeTable, r.opc.toNat = opcOf w) :
    decode w = .error (.opcode (opcOf w)) := by
  rw [exists_row_iff] at h
  unfold decode
  split
  case h_18 => rfl
  all_goals omega

theorem checked_eq_ok {f : Format} {w : Cmd} {i j : Instr} :
    checked f w i = .ok j ↔ w &&& f.reserved = 0#32 ∧ i = j := by
  unfold checked
  split <;> simp_all

theorem checked_eq_error {f : Format} {w : Cmd} {i : Instr} {why : Illegal} :
    checked f w i = .error why ↔ w &&& f.reserved ≠ 0#32 ∧ .reservedBits f = why := by
  unfold checked
  split <;> simp_all

/-- R85, R87: what the decoder accepts: the `OPC` of a row with its reserved bits 0, as the row's command. -/
theorem decode_eq_ok_iff {w : Cmd} {i : Instr} : decode w = .ok i ↔
    ∃ r ∈ opcodeTable, r.opc.toNat = opcOf w ∧ w &&& r.format.reserved = 0#32 ∧ r.op.read w = i := by
  constructor
  · intro h
    by_cases hrow : ∃ r ∈ opcodeTable, r.opc.toNat = opcOf w
    · obtain ⟨r, hr, ho⟩ := hrow
      rw [decode_of_row hr ho, checked_eq_ok] at h
      exact ⟨r, hr, ho, h⟩
    · rw [decode_of_no_row hrow] at h
      cases h
  · rintro ⟨r, hr, ho, h⟩
    rw [decode_of_row hr ho, checked_eq_ok]
    exact h

/-- R87: what the decoder rejects. -/
theorem decode_eq_error_iff (w : Cmd) : (∃ why, decode w = .error why) ↔
    (¬∃ r ∈ opcodeTable, r.opc.toNat = opcOf w) ∨
      ∃ r ∈ opcodeTable, r.opc.toNat = opcOf w ∧ w &&& r.format.reserved ≠ 0#32 := by
  by_cases hrow : ∃ r ∈ opcodeTable, r.opc.toNat = opcOf w
  · obtain ⟨r, hr, ho⟩ := hrow
    rw [decode_of_row hr ho]
    simp only [checked_eq_error]
    constructor
    · rintro ⟨_, hres, _⟩
      exact .inr ⟨r, hr, ho, hres⟩
    · rintro (hno | ⟨r', hr', ho', hres⟩)
      · exact absurd ⟨r, hr, ho⟩ hno
      · obtain rfl := row_opc_injective r hr r' hr' (ho.trans ho'.symm)
        exact ⟨_, hres, rfl⟩
  · exact ⟨fun _ => .inl hrow, fun _ => ⟨_, decode_of_no_row hrow⟩⟩

/-! A command is read back from its encoding. -/

/-- R82, R85: the encoding of every command has its row's `OPC` and no reserved bit. -/
theorem encodesRow (i : Instr) : Laws.EncodesRow.Statement i := by
  cases i with
  | nop => exact Laws.EncodesRow.nop
  | halt => exact Laws.EncodesRow.halt
  | transpose => exact Laws.EncodesRow.transpose
  | setTrue rd => exact Laws.EncodesRow.setTrue rd
  | setFalse rd => exact Laws.EncodesRow.setFalse rd
  | band rd ra rb => exact Laws.EncodesRow.band rd ra rb
  | bor rd ra rb => exact Laws.EncodesRow.bor rd ra rb
  | bxor rd ra rb => exact Laws.EncodesRow.bxor rd ra rb
  | bnot rd ra => exact Laws.EncodesRow.bnot rd ra
  | sel rd rcond rthen relse => exact Laws.EncodesRow.sel rd rcond rthen relse
  | adv rd rm rcc ck => exact Laws.EncodesRow.adv rd rm rcc ck
  | mstar rd rm rcc ck => exact Laws.EncodesRow.mstar rd rm rcc ck
  | scanthru rd rm rcc => exact Laws.EncodesRow.scanthru rd rm rcc
  | addc rd ra rb ck => exact Laws.EncodesRow.addc rd ra rb ck
  | popc rd ra => exact Laws.EncodesRow.popc rd ra
  | accpop ra => exact Laws.EncodesRow.accpop ra
  | clrc ck => exact Laws.EncodesRow.clrc ck

/-- R81: the fields of a word packed with `RB` and `RC`. -/
theorem packWord_reads_rc (opc : Nat) (rd ra rb rc : Reg) (ho : opc < 64 := by decide) :
    let w := packWord opc rd.val ra.val (atRb rb + atRc rc)
    rdOf w = rd ∧ raOf w = ra ∧ rbOf w = rb ∧ rcOf w = rc := by
  have hb := reg_lt rb
  have hc := reg_lt rc
  have hl : atRb rb + atRc rc < 2 ^ 16 := by simp only [atRb, atRc]; omega
  obtain ⟨_, hd, ha, hrb, hrc, _⟩ := packWord_fields ho (reg_lt rd) (reg_lt ra) hl
  refine ⟨hd.trans (Fin.ofNat_val_eq_self rd), ha.trans (Fin.ofNat_val_eq_self ra), hrb.trans ?_, hrc.trans ?_⟩ <;>
    simp only [Fin.ext_iff, Fin.ofNat, atRb, atRc] <;> omega

/-- R81: the fields of a word packed with `RB` alone. -/
theorem packWord_reads_rb (opc : Nat) (rd ra rb : Reg) (ho : opc < 64 := by decide) :
    let w := packWord opc rd.val ra.val (atRb rb)
    rdOf w = rd ∧ raOf w = ra ∧ rbOf w = rb := by
  obtain ⟨hd, ha, hb, _⟩ := packWord_reads_rc opc rd ra rb 0 ho
  rw [show atRb rb + atRc 0 = atRb rb from Nat.add_zero _] at hd ha hb
  exact ⟨hd, ha, hb⟩

/-- R81: the fields of a word packed with `RB` and `CI`. -/
theorem packWord_reads_ci (opc : Nat) (rd ra rb : Reg) (ck : Slot) (ho : opc < 64 := by decide) :
    let w := packWord opc rd.val ra.val (atRb rb + atCi ck)
    rdOf w = rd ∧ raOf w = ra ∧ rbOf w = rb ∧ ciOf w = ck := by
  have hb := reg_lt rb
  have hc := slot_lt ck
  have hl : atRb rb + atCi ck < 2 ^ 16 := by simp only [atRb, atCi]; omega
  obtain ⟨_, hd, ha, hrb, _, hci⟩ := packWord_fields ho (reg_lt rd) (reg_lt ra) hl
  refine ⟨hd.trans (Fin.ofNat_val_eq_self rd), ha.trans (Fin.ofNat_val_eq_self ra), hrb.trans ?_, hci.trans ?_⟩ <;>
    simp only [Fin.ext_iff, Fin.ofNat, atRb, atCi] <;> omega

/-- R81, R82: reading the operands of a command from its encoding gives the command back. A format with fewer fields
packs 0 in the places of the others. -/
theorem read_encode (i : Instr) : i.op.read (encode i) = i := by
  cases i with
  | nop => rfl
  | halt => rfl
  | transpose => rfl
  | setTrue rd =>
    obtain ⟨hd, _⟩ := packWord_reads_rb 0x04 rd 0 0
    exact (Instr.setTrue.injEq ..).mpr hd
  | setFalse rd =>
    obtain ⟨hd, _⟩ := packWord_reads_rb 0x05 rd 0 0
    exact (Instr.setFalse.injEq ..).mpr hd
  | band rd ra rb =>
    obtain ⟨hd, ha, hb⟩ := packWord_reads_rb 0x06 rd ra rb
    exact (Instr.band.injEq ..).mpr ⟨hd, ha, hb⟩
  | bor rd ra rb =>
    obtain ⟨hd, ha, hb⟩ := packWord_reads_rb 0x07 rd ra rb
    exact (Instr.bor.injEq ..).mpr ⟨hd, ha, hb⟩
  | bxor rd ra rb =>
    obtain ⟨hd, ha, hb⟩ := packWord_reads_rb 0x08 rd ra rb
    exact (Instr.bxor.injEq ..).mpr ⟨hd, ha, hb⟩
  | bnot rd ra =>
    obtain ⟨hd, ha, _⟩ := packWord_reads_rb 0x09 rd ra 0
    exact (Instr.bnot.injEq ..).mpr ⟨hd, ha⟩
  | sel rd rcond rthen relse =>
    obtain ⟨hd, ha, hb, hc⟩ := packWord_reads_rc 0x0A rd rcond rthen relse
    exact (Instr.sel.injEq ..).mpr ⟨hd, ha, hb, hc⟩
  | adv rd rm rcc ck =>
    obtain ⟨hd, ha, hb, hc⟩ := packWord_reads_ci 0x0B rd rm rcc ck
    exact (Instr.adv.injEq ..).mpr ⟨hd, ha, hb, hc⟩
  | mstar rd rm rcc ck =>
    obtain ⟨hd, ha, hb, hc⟩ := packWord_reads_ci 0x0C rd rm rcc ck
    exact (Instr.mstar.injEq ..).mpr ⟨hd, ha, hb, hc⟩
  | scanthru rd rm rcc =>
    obtain ⟨hd, ha, hb⟩ := packWord_reads_rb 0x0D rd rm rcc
    exact (Instr.scanthru.injEq ..).mpr ⟨hd, ha, hb⟩
  | addc rd ra rb ck =>
    obtain ⟨hd, ha, hb, hc⟩ := packWord_reads_ci 0x0E rd ra rb ck
    exact (Instr.addc.injEq ..).mpr ⟨hd, ha, hb, hc⟩
  | popc rd ra =>
    obtain ⟨hd, ha, _⟩ := packWord_reads_rb 0x0F rd ra 0
    exact (Instr.popc.injEq ..).mpr ⟨hd, ha⟩
  | accpop ra =>
    obtain ⟨_, ha, _⟩ := packWord_reads_rb 0x10 0 ra 0
    exact (Instr.accpop.injEq ..).mpr ha
  | clrc ck =>
    obtain ⟨_, _, _, hc⟩ := packWord_reads_ci 0x11 0 0 0 ck
    rw [show atRb 0 + atCi ck = atCi ck from Nat.zero_add _] at hc
    exact (Instr.clrc.injEq ..).mpr hc

/-- Settles O2: the encoding has its row's `OPC` and no reserved bit, and the operands read back. -/
theorem decodeInvertsEncode : Obligations.DecodeInvertsEncode := by
  intro i
  obtain ⟨r, hr, hop, ho, hz⟩ := encodesRow i
  exact decode_eq_ok_iff.mpr ⟨r, hr, ho, hz, by rw [hop, read_encode]⟩

/-- Settles O1: each command's word by computation, and its decoding by the round trip. -/
theorem workedEncodingsDecode : Obligations.WorkedEncodingsDecode := by
  have both : ∀ {i : Instr} {w : Cmd}, encode i = w → encode i = w ∧ decode w = .ok i := by
    rintro i _ rfl
    exact ⟨rfl, decodeInvertsEncode i⟩
  exact ⟨both rfl, both rfl, both rfl, both rfl, both rfl⟩

/-! A legal word is the encoding of its command. -/

/-- R82: the word of an `OPC` and of the operands of a format that stand in `w`. -/
def Format.pack (opc : Nat) (w : Cmd) : Format → Cmd
  | .N => packWord opc 0 0 0
  | .D => packWord opc (rdOf w).val 0 0
  | .R1 => packWord opc (rdOf w).val (raOf w).val 0
  | .R2 => packWord opc (rdOf w).val (raOf w).val (atRb (rbOf w))
  | .R3 => packWord opc (rdOf w).val (raOf w).val (atRb (rbOf w) + atRc (rcOf w))
  | .RC => packWord opc (rdOf w).val (raOf w).val (atRb (rbOf w) + atCi (ciOf w))
  | .A => packWord opc 0 (raOf w).val 0
  | .CF => packWord opc 0 0 (atCi (ciOf w))

/-- R82, R85: encoding a row's command packs the operands its format has. -/
theorem encode_read {r : Row} (hr : r ∈ opcodeTable) (w : Cmd) :
    encode (r.op.read w) = r.format.pack r.opc.toNat w := by
  fin_cases hr <;> rfl

/-- R82: a word whose reserved bits are 0 is its `OPC` and its format's operands. -/
theorem pack_of_reserved_zero {f : Format} {w : Cmd} (hz : w &&& f.reserved = 0#32) : f.pack (opcOf w) w = w := by
  have of_fields : ∀ {rd ra low : Nat}, rd = w.toNat / 2 ^ 21 % 32 → ra = w.toNat / 2 ^ 16 % 32 →
      low = w.toNat % 2 ^ 16 → packWord (opcOf w) rd ra low = w := by
    rintro _ _ _ rfl rfl rfl
    exact packWord_of_fields w
  rw [reserved_eq_zero] at hz
  cases f <;> refine of_fields ?_ ?_ ?_ <;>
    simp only [rdOf, raOf, rbOf, rcOf, ciOf, field, Fin.ofNat, Nat.shiftRight_eq_div_pow, atRb, atRc, atCi] at hz ⊢ <;>
    omega

/-- Settles O3: the operands and the `OPC` of a legal word are all of its bits. -/
theorem decodedWordIsItsEncoding : Obligations.DecodedWordIsItsEncoding := by
  intro w i h
  obtain ⟨r, hr, ho, hz, rfl⟩ := decode_eq_ok_iff.mp h
  rw [encode_read hr, ho, pack_of_reserved_zero hz]

/-! The opcode map's match and mask. -/

/-- The bits of no format's reserved mask are those of `OPC`. -/
theorem reserved_and_opcMask (f : Format) : f.reserved &&& 0xFC000000#32 = 0#32 := by
  cases f <;> rfl

/-- R81: the bits of `OPC` alone. -/
theorem and_opcMask (w : Cmd) : w &&& 0xFC000000#32 = BitVec.ofNat 32 (opcOf w * 2 ^ 26) := by
  have hshift : w >>> 26 <<< 26 = w &&& 0xFC000000#32 := BitVec.shiftLeft_ushiftRight
  rw [← hshift]
  apply BitVec.eq_of_toNat_eq
  rw [BitVec.toNat_shiftLeft, BitVec.toNat_ushiftRight, Nat.shiftLeft_eq, Nat.shiftRight_eq_div_pow, opcOf_eq_div,
    BitVec.toNat_ofNat]

/-- R85: a word under two disjoint masks is a pattern of the first exactly when it is the pattern under the first and 0
under the second. -/
theorem and_or_eq_iff {w h r p : Cmd} (hr : r &&& h = 0#32) (hp : p &&& h = p) :
    w &&& (h ||| r) = p ↔ w &&& h = p ∧ w &&& r = 0#32 := by
  have absorb : ∀ a b : Cmd, w &&& (a ||| b) &&& a = w &&& a := by
    intro a b
    ext k hk
    cases ha : a[k] <;> simp [ha]
  constructor
  · rintro rfl
    refine ⟨(absorb h r).symm.trans hp, ?_⟩
    calc w &&& r = w &&& (h ||| r) &&& r := by rw [BitVec.or_comm, absorb]
      _ = w &&& (h ||| r) &&& h &&& r := by rw [hp]
      _ = 0#32 := by rw [BitVec.and_assoc, BitVec.and_comm h, hr, BitVec.and_zero]
  · rintro ⟨rfl, h0⟩
    rw [BitVec.and_or_distrib_left, h0, BitVec.or_zero]

/-- R85: `(w & mask) == match` says that the word has the row's `OPC` and no reserved bit. -/
theorem row_matches_iff {r : Row} (hr : r ∈ opcodeTable) (w : Cmd) :
    w &&& r.mask = r.pattern ↔ r.opc.toNat = opcOf w ∧ w &&& r.format.reserved = 0#32 := by
  obtain ⟨_, hmask⟩ := row_match_mask r hr
  have hopc : r.pattern = BitVec.ofNat 32 (r.opc.toNat * 2 ^ 26) := by fin_cases hr <;> rfl
  have hp : r.pattern &&& 0xFC000000#32 = r.pattern := by fin_cases hr <;> rfl
  have hw : opcOf w < 2 ^ 6 := by rw [opcOf_eq_div]; omega
  have hr6 := r.opc.isLt
  have heq : BitVec.ofNat 32 (opcOf w * 2 ^ 26) = BitVec.ofNat 32 (r.opc.toNat * 2 ^ 26) ↔ r.opc.toNat = opcOf w := by
    rw [← BitVec.toNat_inj, BitVec.toNat_ofNat, BitVec.toNat_ofNat]
    omega
  rw [hmask, and_or_eq_iff (reserved_and_opcMask r.format) hp, and_opcMask, hopc, heq]

/-- R85: the command of a matching row is what the word decodes to. -/
theorem row_matches_iff_decode {r : Row} (hr : r ∈ opcodeTable) (w : Cmd) :
    w &&& r.mask = r.pattern ↔ ∃ i, decode w = .ok i ∧ i.op = r.op := by
  rw [row_matches_iff hr]
  constructor
  · rintro ⟨ho, hz⟩
    exact ⟨r.op.read w, decode_eq_ok_iff.mpr ⟨r, hr, ho, hz, rfl⟩, op_read w r.op⟩
  · rintro ⟨i, hd, hop⟩
    obtain ⟨r', hr', ho, hz, rfl⟩ := decode_eq_ok_iff.mp hd
    rw [op_read] at hop
    obtain rfl := row_op_injective r' hr' r hr hop
    exact ⟨ho, hz⟩

/-- Settles O4: a row's match says that the word has the row's `OPC` and no reserved bit, as the decoder asks;
no two rows have the same `OPC`. -/
theorem decodeFollowsOpcodeMap : Obligations.DecodeFollowsOpcodeMap := by
  refine ⟨row_match_mask, fun w r hr => row_matches_iff_decode hr w, ?_, ?_⟩
  · intro w r hr r' hr' h h'
    obtain ⟨ho, _⟩ := (row_matches_iff hr w).mp h
    obtain ⟨ho', _⟩ := (row_matches_iff hr' w).mp h'
    exact row_opc_injective r hr r' hr' (ho.trans ho'.symm)
  · intro w hno
    cases hd : decode w with
    | error why => exact ⟨why, rfl⟩
    | ok i =>
      obtain ⟨r, hr, ho, hz, _⟩ := decode_eq_ok_iff.mp hd
      exact absurd ((row_matches_iff hr w).mpr ⟨ho, hz⟩) (hno r hr)

/-! Fetching an illegal word. -/

/-- R87, R161: with no move due, a step of a run that fetches an illegal word takes its fault. -/
theorem step_of_illegalWord {s : State} {why : Illegal} (hm : s.moves = []) (hb : s.status.busy = true)
    (hr : s.resetAsserted = false) (hp : s.pc.toNat < s.imemWords)
    (hd : decode (s.imemWord s.pc.toNat) = .error why) :
    step s = .next (s.raiseFault .illegalInstruction s.pc (s.imemWord s.pc.toNat)) := by
  rw [step_of_moves_nil hm]
  obtain ⟨hidle, _⟩ | ⟨_, _, hf, _⟩ | ⟨_, _, _, _, hs⟩ | ⟨i, ⟨_, _, _, hi⟩, _⟩ := sequencerStep_cases s
  · simp [hb, hr] at hidle
  · omega
  · exact hs
  · rw [hd] at hi
    cases hi

/-- R87: which words are illegal, by their `OPC` and their reserved bits. -/
theorem illegal_iff (w : Cmd) : (∃ why, decode w = .error why) ↔
    opcOf w = 0x00 ∨ 0x12 ≤ opcOf w ∨ ∃ r ∈ opcodeTable, r.opc.toNat = opcOf w ∧ w &&& r.format.reserved ≠ 0#32 := by
  rw [decode_eq_error_iff, exists_row_iff, ← or_assoc]
  refine or_congr_left ?_
  omega

/-- Settles O5: what the decoder rejects, and the fault of a step that fetches such a word. -/
theorem illegalWordFaults : Obligations.IllegalWordFaults := by
  refine ⟨illegal_iff, (illegal_iff _).mpr (.inl rfl), ?_⟩
  intro s why hm hb hr hp hd
  exact ⟨_, step_of_illegalWord hm hb hr hp hd, rfl, rfl, rfl, rfl, rfl⟩

end Sys2Proof
end

section
/-! The printed text of a command assembles to it (spec/30_encoding.md R89, R91): names are told apart, a name has
none of the characters that cut a line, and the line is cut where it was joined. -/

namespace Sys2Proof

/-! Names of operands. -/

/-- The code of a decimal digit. -/
theorem digitChar_toNat : ∀ n < 10, (digitChar n).toNat = 48 + n := by decide

/-- A number below 100 from the codes of its decimal digits. -/
def ofDigits : List Char → Nat
  | [a] => a.toNat - 48
  | [a, b] => (a.toNat - 48) * 10 + (b.toNat - 48)
  | _ => 0

theorem ofDigits_decimal {n : Nat} (hn : n < 100) : ofDigits (decimal n) = n := by
  unfold decimal
  split
  · simp only [ofDigits, digitChar_toNat n ‹_›]
    omega
  · simp only [ofDigits, digitChar_toNat (n / 10) (by omega), digitChar_toNat (n % 10) (by omega)]
    omega

theorem decimal_injective {m n : Nat} (hm : m < 100) (hn : n < 100) (h : decimal m = decimal n) : m = n := by
  rw [← ofDigits_decimal hm, h, ofDigits_decimal hn]

theorem regName_injective : Function.Injective regName := by
  intro a b h
  exact Fin.ext (decimal_injective (by omega) (by omega) (List.cons.inj h).2)

theorem slotName_injective : Function.Injective slotName := by
  intro a b h
  exact Fin.ext (decimal_injective (by omega) (by omega) (List.cons.inj h).2)

/-- Looking a name up among the names of `0..n-1`. -/
theorem find?_finRange_name {n : Nat} {name : Fin n → List Char} (hinj : Function.Injective name) (k : Fin n) :
    (List.finRange n).find? (fun j => name j == name k) = some k := by
  cases h : (List.finRange n).find? (fun j => name j == name k) with
  | none => exact absurd (List.find?_eq_none.mp h k (List.mem_finRange k)) (by simp)
  | some j =>
    have hjk : (name j == name k) = true := List.find?_some (p := fun j => name j == name k) h
    rw [hinj (eq_of_beq hjk)]

/-- Looking a name up among names that begin with another letter. -/
theorem find?_finRange_letter {n : Nat} {c d : Char} (hcd : c ≠ d) (digits : Fin n → List Char) (rest : List Char) :
    (List.finRange n).find? (fun j => (c :: digits j) == (d :: rest)) = none := by
  simp [hcd]

/-- R89: the name of an operand stands for it. -/
theorem parseOperand_name (o : AsmOperand) : parseOperand o.name = some o := by
  cases o with
  | reg r => rw [AsmOperand.name, parseOperand, find?_finRange_name regName_injective]
  | slot k =>
    have hreg : (List.finRange 32).find? (fun r => regName r == slotName k) = none :=
      find?_finRange_letter (by decide) (fun r : Reg => decimal r.val) (decimal k.val)
    have hplane : (List.finRange 8).find? (fun j => planeName j == slotName k) = none :=
      find?_finRange_letter (by decide) (fun j : Fin 8 => decimal j.val) (decimal k.val)
    rw [AsmOperand.name, parseOperand, hreg, hplane]
    simp only [find?_finRange_name slotName_injective, Option.map_some]

/-! Characters that do not cut a line. -/

/-- A character that is neither a blank, a comma nor the start of a comment. -/
def isPlain (c : Char) : Bool := !isBlank c && c != ',' && c != ';'

theorem not_blank_of_plain {c : Char} (h : isPlain c = true) : isBlank c = false := by
  simp only [isPlain, Bool.and_eq_true, Bool.not_eq_true'] at h
  obtain ⟨⟨hblank, _⟩, _⟩ := h
  exact hblank

theorem ne_comma_of_plain {c : Char} (h : isPlain c = true) : c ≠ ',' := by
  rintro rfl
  exact absurd h (by decide)

theorem ne_semicolon_of_plain {c : Char} (h : isPlain c = true) : c ≠ ';' := by
  rintro rfl
  exact absurd h (by decide)

theorem digitChar_plain : ∀ n < 10, isPlain (digitChar n) = true := by decide

theorem decimal_plain {n : Nat} (hn : n < 100) : ∀ c ∈ decimal n, isPlain c = true := by
  unfold decimal
  split
  · simpa using digitChar_plain n ‹_›
  · simpa using ⟨digitChar_plain (n / 10) (by omega), digitChar_plain (n % 10) (by omega)⟩

theorem operandName_plain (o : AsmOperand) : ∀ c ∈ o.name, isPlain c = true := by
  cases o with
  | reg r => exact List.forall_mem_cons.mpr ⟨by decide, decimal_plain (by omega)⟩
  | slot k => exact List.forall_mem_cons.mpr ⟨by decide, decimal_plain (by omega)⟩

/-- R89: the mnemonic of a row is the one listed for it. -/
theorem opName_mem (op : Op) : (opName op, .row op) ∈ asmNames := by
  cases op <;> decide

theorem opName_plain (op : Op) : ∀ c ∈ opName op, isPlain c = true := by
  have hall : asmNames.all (fun p => p.1.all isPlain) = true := by decide
  exact List.all_eq_true.mp (List.all_eq_true.mp hall _ (opName_mem op))

theorem operandName_ne_nil (o : AsmOperand) : o.name ≠ [] := by
  cases o <;> exact List.cons_ne_nil _ _

theorem opName_ne_nil (op : Op) : opName op ≠ [] := by
  cases op <;> exact List.cons_ne_nil _ _

/-- R89: the mnemonic of a row names the row. -/
theorem parseMnemonic_opName (op : Op) : parseMnemonic (opName op) = some (.row op) := by
  cases op <;> decide

/-- R89: the operands of a command, in order, make the command again. -/
theorem assembleOp_operands (i : Instr) : assembleOp (.row i.op) i.operands = some i := by
  cases i <;> rfl

/-! Trimming. -/

/-- A text that neither begins nor ends with a blank. -/
def TightEnds (cs : List Char) : Prop :=
  (∀ c ∈ cs.head?, isBlank c = false) ∧ ∀ c ∈ cs.getLast?, isBlank c = false

theorem dropWhile_isBlank_of_head {cs : List Char} (h : ∀ c ∈ cs.head?, isBlank c = false) :
    cs.dropWhile isBlank = cs := by
  cases cs with
  | nil => rfl
  | cons c cs => exact List.dropWhile_cons_of_neg (by simpa using h)

theorem trimBlanks_of_tight {cs : List Char} (h : TightEnds cs) : trimBlanks cs = cs := by
  obtain ⟨hhead, hlast⟩ := h
  rw [trimBlanks, dropWhile_isBlank_of_head hhead, dropWhile_isBlank_of_head (by rwa [List.head?_reverse]),
    List.reverse_reverse]

/-- A blank in front is trimmed. -/
theorem trimBlanks_cons_blank (cs : List Char) : trimBlanks (' ' :: cs) = trimBlanks cs := by
  rfl

theorem tightEnds_of_plain {cs : List Char} (h : ∀ c ∈ cs, isPlain c = true) : TightEnds cs :=
  ⟨fun c hc => not_blank_of_plain (h c (List.mem_of_head? hc)),
    fun c hc => not_blank_of_plain (h c (List.mem_of_getLast? hc))⟩

/-- Two tight texts with anything between them. -/
theorem TightEnds.append {as cs : List Char} (ha : TightEnds as) (hne : as ≠ []) (bs : List Char) (hc : TightEnds cs)
    (hne' : cs ≠ []) : TightEnds (as ++ bs ++ cs) := by
  obtain ⟨hhead, _⟩ := ha
  obtain ⟨_, hlast⟩ := hc
  constructor
  · rwa [List.append_assoc, List.head?_append_of_ne_nil _ hne]
  · rwa [List.getLast?_append_of_ne_nil _ hne']

/-! Operands joined and cut. -/

theorem joinCommas_cons_cons (p q : List Char) (ps : List (List Char)) :
    joinCommas (p :: q :: ps) = p ++ [',', ' '] ++ joinCommas (q :: ps) := (rfl)

theorem mem_joinCommas {c : Char} {ps : List (List Char)} (hc : c ∈ joinCommas ps) :
    c = ',' ∨ c = ' ' ∨ ∃ p ∈ ps, c ∈ p := by
  induction ps with
  | nil => cases hc
  | cons p ps ih =>
    cases ps with
    | nil => exact .inr (.inr ⟨p, List.mem_cons_self, hc⟩)
    | cons q qs =>
      rw [joinCommas_cons_cons] at hc
      obtain hc | hc := List.mem_append.mp hc
      · obtain hc | hc := List.mem_append.mp hc
        · exact .inr (.inr ⟨p, List.mem_cons_self, hc⟩)
        · simp only [List.mem_cons, List.not_mem_nil, or_false] at hc
          exact hc.imp_right .inl
      · exact (ih hc).imp_right (.imp_right fun ⟨p', hp', hcp⟩ => ⟨p', List.mem_cons_of_mem p hp', hcp⟩)

/-- The names of some operands, joined, are a text with tight ends. -/
theorem joinCommas_names_tight (o : AsmOperand) (os : List AsmOperand) :
    TightEnds (joinCommas ((o :: os).map AsmOperand.name)) ∧ joinCommas ((o :: os).map AsmOperand.name) ≠ [] := by
  have hname : ∀ o : AsmOperand, TightEnds o.name := fun o => tightEnds_of_plain (operandName_plain o)
  induction os generalizing o with
  | nil => exact ⟨hname o, operandName_ne_nil o⟩
  | cons o' os ih =>
    obtain ⟨htight, hne⟩ := ih o'
    exact ⟨(hname o).append (operandName_ne_nil o) _ htight hne, List.append_ne_nil_of_right_ne_nil _ hne⟩

theorem splitCommas_of_no_comma {cs : List Char} (h : ∀ c ∈ cs, c ≠ ',') : splitCommas cs = [cs] := by
  induction cs with
  | nil => rfl
  | cons c cs ih =>
    obtain ⟨hc, hcs⟩ := List.forall_mem_cons.mp h
    rw [splitCommas, if_neg hc, ih hcs]

/-- The text is cut at its first comma. -/
theorem splitCommas_append_comma {cs : List Char} (h : ∀ c ∈ cs, c ≠ ',') (rest : List Char) :
    splitCommas (cs ++ ',' :: rest) = cs :: splitCommas rest := by
  induction cs with
  | nil => rfl
  | cons c cs ih =>
    obtain ⟨hc, hcs⟩ := List.forall_mem_cons.mp h
    rw [List.cons_append, splitCommas, if_neg hc, ih hcs]

/-- Joined texts are cut into themselves, each behind its blank. -/
theorem splitCommas_joinCommas {ps : List (List Char)} (hne : ps ≠ []) (h : ∀ p ∈ ps, ∀ c ∈ p, c ≠ ',') :
    splitCommas (' ' :: joinCommas ps) = ps.map (' ' :: ·) := by
  induction ps with
  | nil => exact absurd rfl hne
  | cons p ps ih =>
    obtain ⟨hp, hps⟩ := List.forall_mem_cons.mp h
    have hp' : ∀ c ∈ ' ' :: p, c ≠ ',' := List.forall_mem_cons.mpr ⟨by decide, hp⟩
    cases ps with
    | nil => exact splitCommas_of_no_comma hp'
    | cons q qs =>
      have hjoin : ' ' :: joinCommas (p :: q :: qs) = (' ' :: p) ++ ',' :: ' ' :: joinCommas (q :: qs) := by
        rw [joinCommas_cons_cons, List.append_assoc]
        rfl
      rw [hjoin, splitCommas_append_comma hp', ih (List.cons_ne_nil _ _) hps, ← List.map_cons]

theorem allSome_map_some {α : Type} (as : List α) : allSome (as.map some) = some as := by
  induction as with
  | nil => rfl
  | cons a as ih => rw [List.map_cons, allSome, ih]; rfl

/-! The line. -/

/-- R89: what stands behind the mnemonic. -/
def operandsText : List AsmOperand → List Char
  | [] => []
  | o :: os => ' ' :: joinCommas ((o :: os).map AsmOperand.name)

theorem text_eq (i : Instr) : i.text = opName i.op ++ operandsText i.operands := by
  rw [Instr.text]
  cases i.operands <;> rfl

/-- Cutting operands out of their text gives them back. -/
theorem parseOperands_operandsText (os : List AsmOperand) : parseOperands (operandsText os) = some os := by
  cases os with
  | nil => rfl
  | cons o os =>
    obtain ⟨htight, hne⟩ := joinCommas_names_tight o os
    have hcut : splitCommas (operandsText (o :: os)) = ((o :: os).map AsmOperand.name).map (' ' :: ·) := by
      refine splitCommas_joinCommas (List.cons_ne_nil _ _) ?_
      intro p hp c hc
      obtain ⟨o', _, rfl⟩ := List.mem_map.mp hp
      exact ne_comma_of_plain (operandName_plain o' c hc)
    have hpart : ∀ o : AsmOperand, parseOperand (trimBlanks (' ' :: o.name)) = some o := by
      intro o
      rw [trimBlanks_cons_blank, trimBlanks_of_tight (tightEnds_of_plain (operandName_plain o)), parseOperand_name]
    rw [parseOperands, if_neg, hcut, List.map_map, List.map_map]
    · rw [show _ ∘ _ = some from funext hpart, allSome_map_some]
    · rwa [operandsText, trimBlanks_cons_blank, trimBlanks_of_tight htight]

/-- R89: a printed line has no comment. -/
theorem line_no_comment (op : Op) (os : List AsmOperand) : ∀ c ∈ opName op ++ operandsText os, c ≠ ';' := by
  intro c hc
  obtain hc | hc := List.mem_append.mp hc
  · exact ne_semicolon_of_plain (opName_plain op c hc)
  · cases os with
    | nil => cases hc
    | cons o os =>
      obtain rfl | hc := List.mem_cons.mp hc
      · decide
      · obtain rfl | rfl | ⟨p, hp, hcp⟩ := mem_joinCommas hc
        · decide
        · decide
        · obtain ⟨o', _, rfl⟩ := List.mem_map.mp hp
          exact ne_semicolon_of_plain (operandName_plain o' c hcp)

/-- A printed line has no blank at its ends. -/
theorem line_tight (op : Op) (os : List AsmOperand) : TightEnds (opName op ++ operandsText os) := by
  have hop : TightEnds (opName op) := tightEnds_of_plain (opName_plain op)
  cases os with
  | nil => rwa [operandsText, List.append_nil]
  | cons o os =>
    obtain ⟨htight, hne⟩ := joinCommas_names_tight o os
    rw [operandsText, List.append_cons]
    exact hop.append (opName_ne_nil op) [' '] htight hne

/-- The first blank of a printed line is behind its mnemonic. -/
theorem line_cut (op : Op) (os : List AsmOperand) :
    (opName op ++ operandsText os).takeWhile (fun c => !isBlank c) = opName op ∧
      (opName op ++ operandsText os).dropWhile (fun c => !isBlank c) = operandsText os := by
  have hop : ∀ c ∈ opName op, (!isBlank c) = true := by
    intro c hc
    rw [not_blank_of_plain (opName_plain op c hc), Bool.not_false]
  have hos : (operandsText os).takeWhile (fun c => !isBlank c) = [] ∧
      (operandsText os).dropWhile (fun c => !isBlank c) = operandsText os := by
    cases os <;> exact ⟨rfl, rfl⟩
  obtain ⟨htake, hdrop⟩ := hos
  rw [List.takeWhile_append_of_pos hop, List.dropWhile_append_of_pos hop, htake, hdrop, List.append_nil]
  exact ⟨rfl, rfl⟩

/-- Settles O6: the line is cut at its first blank and at its commas, and every name stands for what it names. -/
theorem assembleInvertsPrint : Obligations.AssembleInvertsPrint := by
  intro i
  have hcomment : i.text.takeWhile (· != ';') = i.text :=
    List.takeWhile_eq_self_iff.mpr fun c hc => bne_iff_ne.mpr (line_no_comment i.op i.operands c (text_eq i ▸ hc))
  have htrim : trimBlanks i.text = i.text := trimBlanks_of_tight (text_eq i ▸ line_tight i.op i.operands)
  obtain ⟨htake, hdrop⟩ := line_cut i.op i.operands
  simp only [assembleLine, hcomment, htrim]
  rw [text_eq, htake, hdrop, parseMnemonic_opName, parseOperands_operandsText]
  exact assembleOp_operands i

end Sys2Proof
end

section
/-! Bit-plane transposition (spec/41_transpose.md R100, R101): what TRANSPOSE leaves in the basis registers, bit by bit,
and that it reads and keeps the 63 payload bytes. -/

namespace Sys2Proof.Machine

/-- R100: TRANSPOSE completes from every state. -/
theorem exec_transpose (s : State) : exec .transpose s = .next (s.writePlanes s).advance := rfl

theorem basisReg_val (p : Fin 8) : (basisReg p).val = p.val := Nat.mod_eq_of_lt (by omega)

/-- R100: after TRANSPOSE a basis register holds the payload of its plane. -/
theorem transpose_basisReg (s : State) (p : Fin 8) :
    (s.writePlanes s).advance.readReg (basisReg p) = payload (s.plane p.val) := by
  rw [advance_readReg, readReg_writePlanes, basisReg_val, if_pos p.isLt]

/-- R100: bit `i` of a basis register after TRANSPOSE, bit 63 included. -/
theorem transpose_getLsbD (s : State) (p : Fin 8) (i : Nat) :
    ((s.writePlanes s).advance.readReg (basisReg p)).getLsbD i =
      (decide (i < 63) && (s.ibufByte i).getLsbD p.val) := by
  rw [transpose_basisReg, getLsbD_payload, plane_getLsbD, Bool.and_right_comm, Bool.and_self]

/-- R100: a plane depends on the 63 payload bytes alone. -/
theorem plane_congr {s s' : State} (h : ∀ i, i < 63 → s'.ibufByte i = s.ibufByte i) (p : Nat) :
    s'.plane p = s.plane p := by
  refine BitVec.eq_of_getLsbD_eq fun i _ => ?_
  rw [plane_getLsbD, plane_getLsbD]
  by_cases hi : i < 63
  · rw [h i hi]
  · simp [hi]

/-- The low `n` bits of a number, weighted by their powers of two, add up to its remainder. -/
theorem sum_testBit_eq_mod (m n : Nat) :
    ((List.finRange n).map (fun p => (m.testBit p.val).toNat * 2 ^ p.val)).sum = m % 2 ^ n := by
  induction n with
  | zero => simp [Nat.mod_one]
  | succ n ih =>
    rw [List.finRange_succ_last, List.map_append, List.sum_append, List.map_map, Nat.mod_pow_succ, ← Nat.toNat_testBit,
      ← ih]
    simp [Function.comp_def, Nat.mul_comm]

/-- Settles O9: each basis register holds its plane, and the planes are made of the payload bytes. -/
theorem transposePlanes : Obligations.TransposePlanes := by
  refine ⟨by decide, fun s => ⟨_, exec_transpose s, fun p i hi => ?_, fun p => ?_, ?_, transpose_changesOnly s⟩,
    fun s s' t t' hbytes ht ht' p => ?_⟩
  · rw [transpose_getLsbD, decide_eq_true hi, Bool.true_and]
  · rw [transpose_getLsbD]; rfl
  · rw [advance_pc, writePlanes_pc]
  · cases ht
    cases ht'
    rw [transpose_basisReg, transpose_basisReg, plane_congr hbytes]

/-- Settles O10: a byte is the sum of its bits, and its bits stand in the planes. -/
theorem transposeLosesNoBit : Obligations.TransposeLosesNoBit := by
  intro s i hi
  refine ⟨_, exec_transpose s, ?_⟩
  simp only [transpose_getLsbD, hi, decide_true, Bool.true_and]
  exact ((sum_testBit_eq_mod _ 8).trans (Nat.mod_eq_of_lt (s.ibufByte i).isLt)).symm

end Sys2Proof.Machine
end

section
/-! The character-class evaluator's commands (spec/42_logic.md R110 to R116): the word of each by its format (R82), and
what each leaves in its destination, bit by bit, with its frame. -/

namespace Sys2Proof.Machine

/-! The words of formats D, R1, R2 and R3, field by field (R81, R82). -/

theorem packWord_formatD (opc : BitVec 6) (rd : Reg) :
    packWord opc.toNat rd.val 0 0 = opc ++ BitVec.ofNat 5 rd.val ++ 0#21 := by
  have := opc.isLt
  have := reg_lt rd
  apply BitVec.eq_of_toNat_eq
  simp only [packWord, toNat_append_mul, BitVec.toNat_ofNat]
  omega

theorem packWord_formatR1 (opc : BitVec 6) (rd ra : Reg) :
    packWord opc.toNat rd.val ra.val 0 = opc ++ BitVec.ofNat 5 rd.val ++ BitVec.ofNat 5 ra.val ++ 0#16 := by
  have := opc.isLt
  have := reg_lt rd
  have := reg_lt ra
  apply BitVec.eq_of_toNat_eq
  simp only [packWord, toNat_append_mul, BitVec.toNat_ofNat]
  omega

theorem packWord_formatR2 (opc : BitVec 6) (rd ra rb : Reg) :
    packWord opc.toNat rd.val ra.val (atRb rb) =
      opc ++ BitVec.ofNat 5 rd.val ++ BitVec.ofNat 5 ra.val ++ BitVec.ofNat 5 rb.val ++ 0#11 := by
  have := opc.isLt
  have := reg_lt rd
  have := reg_lt ra
  have := reg_lt rb
  apply BitVec.eq_of_toNat_eq
  simp only [packWord, atRb, toNat_append_mul, BitVec.toNat_ofNat]
  omega

theorem packWord_formatR3 (opc : BitVec 6) (rd ra rb rc : Reg) :
    packWord opc.toNat rd.val ra.val (atRb rb + atRc rc) =
      opc ++ BitVec.ofNat 5 rd.val ++ BitVec.ofNat 5 ra.val ++ BitVec.ofNat 5 rb.val ++ BitVec.ofNat 5 rc.val ++
        0#6 := by
  have := opc.isLt
  have := reg_lt rd
  have := reg_lt ra
  have := reg_lt rb
  have := reg_lt rc
  apply BitVec.eq_of_toNat_eq
  simp only [packWord, atRb, atRc, toNat_append_mul, BitVec.toNat_ofNat]
  omega

/-! What each command computes before the write's mask (R21). -/

theorem exec_setTrue (rd : Reg) (s : State) : exec (.setTrue rd) s = .next (s.setReg rd mask63) := rfl

theorem exec_setFalse (rd : Reg) (s : State) : exec (.setFalse rd) s = .next (s.setReg rd 0#64) := rfl

theorem exec_band (rd ra rb : Reg) (s : State) :
    exec (.band rd ra rb) s = .next (s.setReg rd (s.readReg ra &&& s.readReg rb)) := rfl

theorem exec_bor (rd ra rb : Reg) (s : State) :
    exec (.bor rd ra rb) s = .next (s.setReg rd (s.readReg ra ||| s.readReg rb)) := rfl

theorem exec_bxor (rd ra rb : Reg) (s : State) :
    exec (.bxor rd ra rb) s = .next (s.setReg rd (s.readReg ra ^^^ s.readReg rb)) := rfl

theorem exec_bnot (rd ra : Reg) (s : State) : exec (.bnot rd ra) s = .next (s.setReg rd (~~~s.readReg ra)) := rfl

theorem exec_sel (rd rcond rthen relse : Reg) (s : State) : exec (.sel rd rcond rthen relse) s =
    .next (s.setReg rd (selWord (s.readReg rcond) (s.readReg rthen) (s.readReg relse))) := rfl

/-- R116: a select word takes, per bit, the `then` bit where the condition is 1 and the `else` bit where it is 0. -/
theorem getLsbD_selWord (c t e : Word) {k : Nat} (hk : k < 64) :
    (selWord c t e).getLsbD k = if c.getLsbD k then t.getLsbD k else e.getLsbD k := by
  rw [selWord, BitVec.getLsbD_or, BitVec.getLsbD_and, BitVec.getLsbD_and, BitVec.getLsbD_not, decide_eq_true hk]
  cases c.getLsbD k <;> simp

/-! What a command that answers `State.setReg` leaves: the destination, the `PC` and the frame. -/

section
variable {i : Instr} {s : State} {rd : Reg} {v : Word} (h : exec i s = .next (s.setReg rd v))
include h

theorem exec_setReg_payload : ∃ t, exec i s = .next t ∧ t.readReg rd = payload v ∧ t.pc = s.pc + 1#32 ∧
    ChangesOnly [rd] [] s t := ⟨_, h, setReg_spec s rd v⟩

/-- The destination bit by bit: the 63 payload bits as computed, and the rest 0. -/
theorem exec_setReg_bits {f : Nat → Bool} (hf : ∀ k < 63, v.getLsbD k = f k) : ∃ t, exec i s = .next t ∧
    (∀ k, (t.readReg rd).getLsbD k = (decide (k < 63) && f k)) ∧ t.pc = s.pc + 1#32 ∧ ChangesOnly [rd] [] s t := by
  obtain ⟨t, ht, hreg, hpc, hframe⟩ := exec_setReg_payload h
  refine ⟨t, ht, fun k => ?_, hpc, hframe⟩
  rw [hreg, getLsbD_payload, Bool.and_comm]
  by_cases hk : k < 63
  · rw [hf k hk]
  · rw [decide_eq_false hk, Bool.false_and, Bool.false_and]

end

/-! The statements. -/

/-- Settles O11: both constants are their own payload. -/
theorem trueAndFalseConstants : Obligations.TrueAndFalseConstants := fun rd s =>
  ⟨⟨packWord_formatD 0x04#6 rd, exec_setReg_payload (exec_setTrue rd s)⟩,
    ⟨packWord_formatD 0x05#6 rd, exec_setReg_payload (exec_setFalse rd s)⟩⟩

/-- Settles O12: each operation acts bit by bit on the words read before the write. -/
theorem andOrXorBitwise : Obligations.AndOrXorBitwise := fun rd ra rb s =>
  ⟨⟨packWord_formatR2 0x06#6 rd ra rb, exec_setReg_bits (exec_band rd ra rb s) fun _ _ => BitVec.getLsbD_and⟩,
    ⟨packWord_formatR2 0x07#6 rd ra rb, exec_setReg_bits (exec_bor rd ra rb s) fun _ _ => BitVec.getLsbD_or⟩,
    ⟨packWord_formatR2 0x08#6 rd ra rb, exec_setReg_bits (exec_bxor rd ra rb s) fun _ _ => BitVec.getLsbD_xor⟩⟩

/-- Settles O13: the complement is taken bit by bit, and the write's mask clears bit 63. -/
theorem notComplementsPayload : Obligations.NotComplementsPayload := by
  intro rd ra s
  refine ⟨packWord_formatR1 0x09#6 rd ra, exec_setReg_bits (exec_bnot rd ra s) fun k hk => ?_⟩
  rw [BitVec.getLsbD_not, decide_eq_true (by omega), Bool.true_and]

/-- Settles O14: the select word chooses bit by bit. -/
theorem selChoosesBitwise : Obligations.SelChoosesBitwise := fun rd rcond rthen relse s =>
  ⟨packWord_formatR3 0x0A#6 rd rcond rthen relse,
    exec_setReg_bits (exec_sel rd rcond rthen relse s) fun _ hk => getLsbD_selWord _ _ _ (by omega)⟩

end Sys2Proof.Machine
end

section
/-! The word `W(e)` of an expression (spec/42_logic.md R117): its bits after TRANSPOSE are the expression's values on
the payload bytes, and one command per node computes it from the words of the node's children. -/

namespace Sys2Proof.Machine

/-- R117: after TRANSPOSE bit `i` of the word of an expression is its value on byte `i`, for the 63 payload bytes; every
higher bit is 0. -/
theorem getLsbD_word_transpose (s : State) (e : BoolExpr) {i : Nat} (hi : i < 64) :
    (e.word (s.writePlanes s).advance).getLsbD i = (decide (i < 63) && e.eval (s.ibufByte i)) := by
  induction e with
  | bit k => exact transpose_getLsbD s k i
  | tru => rw [BoolExpr.word, BoolExpr.eval, getLsbD_mask63, Bool.and_true]
  | fls => rw [BoolExpr.word, BoolExpr.eval, BitVec.getLsbD_zero, Bool.and_false]
  | conj l r ihl ihr =>
    rw [BoolExpr.word, BoolExpr.eval, BitVec.getLsbD_and, ihl, ihr]
    cases decide (i < 63) <;> simp
  | disj l r ihl ihr => rw [BoolExpr.word, BoolExpr.eval, BitVec.getLsbD_or, ihl, ihr, Bool.and_or_distrib_left]
  | neg e ih =>
    rw [BoolExpr.word, BoolExpr.eval, getLsbD_payload, BitVec.getLsbD_not, ih, decide_eq_true hi, Bool.true_and]
    cases decide (i < 63) <;> simp
  | ite c t e ihc iht ihe =>
    rw [BoolExpr.word, BoolExpr.eval, getLsbD_payload, getLsbD_selWord _ _ _ hi, ihc, iht, ihe]
    cases decide (i < 63) <;> simp

/-- Settles O51, by induction on the expression. -/
theorem expressionWordIsPointwise : Obligations.ExpressionWordIsPointwise := by
  intro s e
  refine ⟨_, exec_transpose s, fun i hi => ?_, getLsbD_word_transpose s e (by decide)⟩
  rw [getLsbD_word_transpose s e (by omega), decide_eq_true hi, Bool.true_and]

/-- R21, R117: the word of an expression over registers with bit 63 clear has bit 63 clear. -/
theorem getLsbD_word_63 {s : State} (h : s.Inv) (e : BoolExpr) : (e.word s).getLsbD 63 = false := by
  induction e with
  | bit k => exact h.headroom (basisReg k)
  | tru => exact getLsbD_mask63 63
  | fls => exact BitVec.getLsbD_zero
  | conj l r ihl _ => rw [BoolExpr.word, BitVec.getLsbD_and, ihl, Bool.false_and]
  | disj l r ihl ihr => rw [BoolExpr.word, BitVec.getLsbD_or, ihl, ihr, Bool.false_or]
  | neg e => rw [BoolExpr.word, getLsbD_payload]; exact Bool.and_false _
  | ite c t e => rw [BoolExpr.word, getLsbD_payload]; exact Bool.and_false _

/-- Settles O52: each command writes the payload of the node's operation, and the words of `And` and `Or` are their own
payloads. -/
theorem nodeCommandsComputeWord : Obligations.NodeCommandsComputeWord := by
  intro s t rd ra rb rc x y z hinv hx hy hz
  have node : ∀ {i : Instr} {v : Word} {e : BoolExpr}, exec i t = .next (t.setReg rd v) → payload v = e.word s →
      ∃ u, exec i t = .next u ∧ u.readReg rd = e.word s := by
    intro i v e h hv
    obtain ⟨u, hu, hreg, _⟩ := exec_setReg_payload h
    exact ⟨u, hu, hreg.trans hv⟩
  refine ⟨node (exec_setTrue rd t) rfl, node (exec_setFalse rd t) rfl, node (exec_band rd ra rb t) ?_,
    node (exec_bor rd ra rb t) ?_, node (exec_bnot rd ra t) ?_, node (exec_sel rd ra rb rc t) ?_⟩
  · rw [hx, hy]
    exact payload_of_clear (getLsbD_word_63 hinv (.conj x y))
  · rw [hx, hy]
    exact payload_of_clear (getLsbD_word_63 hinv (.disj x y))
  · rw [hx, BoolExpr.word]
  · rw [hx, hy, hz, BoolExpr.word]

end Sys2Proof.Machine
end

section
/-! The character-class compiler (spec/49_host_cc_reference.md R186 to R192): the value of each of its expressions on a
byte, and with R117 the class word (spec/42_logic.md R118). -/

namespace Sys2Proof

open Sys2Proof.Machine

/-! Comparisons of the low bits of a number, one bit at a time. -/

/-- The low `k + 1` bits are bit `k` in its place and the low `k` bits. -/
theorem mod_two_pow_succ_testBit (v k : Nat) : v % 2 ^ (k + 1) = v % 2 ^ k + 2 ^ k * (v.testBit k).toNat := by
  rw [Nat.mod_pow_succ, Nat.toNat_testBit]

/-- A bound up to `2^k` on `k + 1` bits is met by bit `k` or by the bits below it. -/
theorem le_mod_two_pow_succ_of_le {n k : Nat} (hn : n ≤ 2 ^ k) (v : Nat) :
    decide (n ≤ v % 2 ^ (k + 1)) = (v.testBit k || decide (n ≤ v % 2 ^ k)) := by
  rw [mod_two_pow_succ_testBit]
  cases v.testBit k
  · simp
  · simp only [Bool.toNat_true, Bool.true_or, decide_eq_true_eq]
    omega

/-- A bound from `2^k` up on `k + 1` bits needs bit `k`, and what is left of it of the bits below. -/
theorem le_mod_two_pow_succ_of_ge {n k : Nat} (hn : 2 ^ k ≤ n) (v : Nat) :
    decide (n ≤ v % 2 ^ (k + 1)) = (v.testBit k && decide (n - 2 ^ k ≤ v % 2 ^ k)) := by
  have hlt := Nat.mod_lt v (Nat.two_pow_pos k)
  rw [mod_two_pow_succ_testBit]
  cases v.testBit k
  · simp only [Bool.toNat_false, Bool.false_and, decide_eq_false_iff_not]
    omega
  · simp only [Bool.toNat_true, Bool.true_and, decide_eq_decide]
    omega

/-! GE and LE. -/

/-- `Bit(k)` is bit `k` of the byte as a number. -/
theorem eval_bitAt_testBit (b : Byte) {k : Nat} (hk : k < 8) : (bitAt k).eval b = b.toNat.testBit k := eval_bitAt b k hk

/-- R186: where bit `k` of the bound is 1: `And(Bit(k), GE(k, n - 2^k))`. -/
theorem eval_bitAt_and (b : Byte) {k n : Nat} {e : BoolExpr} (hk : k < 8) (hn : 2 ^ k ≤ n)
    (he : e.eval b = decide (n - 2 ^ k ≤ b.toNat % 2 ^ k)) :
    (mkAnd (bitAt k) e).eval b = decide (n ≤ b.toNat % 2 ^ (k + 1)) := by
  rw [eval_mkAnd, eval_bitAt_testBit b hk, he, le_mod_two_pow_succ_of_ge hn]

/-- R186: where bit `k` of the bound is 0: `Or(Bit(k), GE(k, n))`. -/
theorem eval_bitAt_or (b : Byte) {k n : Nat} {e : BoolExpr} (hk : k < 8) (hn : n ≤ 2 ^ k)
    (he : e.eval b = decide (n ≤ b.toNat % 2 ^ k)) :
    (mkOr (bitAt k) e).eval b = decide (n ≤ b.toNat % 2 ^ (k + 1)) := by
  rw [eval_mkOr, eval_bitAt_testBit b hk, he, le_mod_two_pow_succ_of_le hn]

/-- A number of `k + 1` bits whose bit `k` is 0 has `k` bits. -/
theorem lt_two_pow_of_not_testBit {n k : Nat} (hn : n < 2 ^ (k + 1)) (hb : ¬n.testBit k = true) : n < 2 ^ k := by
  have h := mod_two_pow_succ_testBit n k
  rw [Nat.mod_eq_of_lt hn, Bool.eq_false_iff.mpr hb, Bool.toNat_false, Nat.mul_zero, Nat.add_zero] at h
  exact h ▸ Nat.mod_lt n (Nat.two_pow_pos k)

/-- R186, R194 (b): `GE(bits, n)` compares the low `bits` bits of a byte with `n`. -/
theorem eval_geTree (b : Byte) {bits n : Nat} (hbits : bits ≤ 8) (hn : n < 2 ^ bits) :
    (geTree bits n).eval b = decide (n ≤ b.toNat % 2 ^ bits) := by
  induction bits, n using geTree.induct with
  | case1 n =>
    obtain rfl : n = 0 := by omega
    simp [geTree, BoolExpr.eval]
  | case2 n hbit ih =>
    rw [geTree, if_pos hbit]
    have hge := Nat.ge_two_pow_of_testBit hbit
    exact eval_bitAt_and b (by decide) hge (ih (Nat.zero_le 8) (Nat.sub_lt_left_of_lt_add hge hn))
  | case3 n hbit ih =>
    have hlt := lt_two_pow_of_not_testBit hn hbit
    rw [geTree, if_neg hbit]
    exact eval_bitAt_or b (by decide) hlt.le (ih (Nat.zero_le 8) hlt)
  | case4 k n hpair ih =>
    have hlt : n < 2 ^ k := by
      have hdiv : n / 2 ^ k < 4 := Nat.div_lt_of_lt_mul (by omega)
      exact Nat.lt_of_div_eq_zero (Nat.two_pow_pos k) (Nat.mod_eq_of_lt hdiv ▸ hpair.2)
    rw [geTree, if_pos hpair, eval_mkOr, eval_mkOr, Bool.or_assoc, ← eval_mkOr, ← eval_mkOr]
    exact eval_bitAt_or b (by omega) (by omega) (eval_bitAt_or b (by omega) hlt.le (ih (by omega) hlt))
  | case5 k n hnot hpair ih =>
    have hge : 3 * 2 ^ k ≤ n := by
      have hdiv : n / 2 ^ k < 4 := Nat.div_lt_of_lt_mul (by omega)
      exact (Nat.le_div_iff_mul_le (Nat.two_pow_pos k)).mp (Nat.mod_eq_of_lt hdiv ▸ hpair.2).ge
    rw [geTree, if_neg hnot, if_pos hpair, eval_mkAnd, eval_mkAnd, Bool.and_assoc, ← eval_mkAnd, ← eval_mkAnd]
    refine eval_bitAt_and b (by omega) (by omega) (eval_bitAt_and b (by omega) (by omega) ?_)
    rw [show n - 2 ^ (k + 1) - 2 ^ k = n - 3 * 2 ^ k by omega]
    exact ih (by omega) (by omega)
  | case6 k n hnot hnot' hbit ih =>
    rw [geTree, if_neg hnot, if_neg hnot', if_pos hbit]
    exact eval_bitAt_and b (by omega) (Nat.ge_two_pow_of_testBit hbit) (ih (by omega) (by omega))
  | case7 k n hnot hnot' hbit ih =>
    have hlt := lt_two_pow_of_not_testBit hn hbit
    rw [geTree, if_neg hnot, if_neg hnot', if_neg hbit]
    exact eval_bitAt_or b (by omega) hlt.le (ih (by omega) hlt)

/-- R187, R194 (b): `LE(bits, n)` compares the low `bits` bits of a byte with `n`. -/
theorem eval_leTree (b : Byte) {bits n : Nat} (hbits : bits ≤ 8) (hn : n < 2 ^ bits) :
    (leTree bits n).eval b = decide (b.toNat % 2 ^ bits ≤ n) := by
  unfold leTree
  split
  · next htop =>
    have hlt := Nat.mod_lt b.toNat (Nat.two_pow_pos bits)
    exact (decide_eq_true (by omega)).symm
  · rw [eval_mkNot, eval_geTree b hbits (by omega), ← decide_not, decide_eq_decide]
    omega

/-! Bit patterns. -/

theorem length_pairUp (es : List BoolExpr) : (pairUp es).length = (es.length + 1) / 2 := by
  induction es using pairUp.induct with
  | case1 x y rest ih =>
    rw [pairUp, List.length_cons, ih, List.length_cons, List.length_cons]
    omega
  | case2 rest h =>
    match rest, h with
    | [], _ => simp [pairUp]
    | [_], _ => simp [pairUp]
    | x :: y :: rest, h => exact (h x y rest rfl).elim

/-- R189: the balanced reduction is the conjunction of a list that its rounds suffice for. -/
theorem eval_reducePairs (b : Byte) (n : Nat) {es : List BoolExpr} (hes : es.length ≤ 2 ^ n) :
    (reducePairs n es).eval b = es.all (fun e => e.eval b) := by
  induction n, es using reducePairs.induct with
  | case1 n => simp [reducePairs, BoolExpr.eval]
  | case2 n e => simp [reducePairs]
  | case3 e rest hrest => exact (hrest (List.eq_nil_of_length_eq_zero (by simpa using hes))).elim
  | case4 n es hnil hone ih =>
    have hround : (pairUp es).length ≤ 2 ^ n := by
      rw [length_pairUp]
      omega
    rw [reducePairs, ih hround, all_pairUp]
    · exact hnil
    · exact hone

/-- R189: `bitPattern(v, mask)` asks for the bits of `v` at the positions of `mask`. -/
theorem eval_bitPattern (b v mask : Byte) : (bitPattern v mask).eval b = true ↔
    ∀ i < 8, mask.getLsbD i = true → b.getLsbD i = v.getLsbD i := by
  have hlen : (patternLiterals v mask).length ≤ 2 ^ 3 := by
    rw [patternLiterals, List.length_map]
    exact List.length_filter_le _ _
  have hlit : ∀ i < 8, (if v.getLsbD i then bitAt i else mkNot (bitAt i)).eval b = true ↔
      b.getLsbD i = v.getLsbD i := by
    intro i hi
    cases v.getLsbD i <;> simp [eval_bitAt b i hi]
  rw [bitPattern, eval_reducePairs b 3 hlen, patternLiterals, List.all_map, List.all_filter, List.all_eq_true]
  refine forall_congr' fun i => ?_
  rw [List.mem_range]
  refine imp_congr_right fun hi => ?_
  simp [← hlit i hi, -BitVec.getLsbD_eq_getElem, Classical.or_iff_not_imp_left]

/-! Ranges. -/

/-- Two numbers agree above bit `k` exactly when their bits from `k` up do. -/
theorem div_two_pow_eq_iff (x y k : Nat) : x / 2 ^ k = y / 2 ^ k ↔ ∀ i, k ≤ i → x.testBit i = y.testBit i := by
  constructor
  · intro h i hi
    rw [← Nat.sub_add_cancel hi, ← Nat.testBit_div_two_pow, ← Nat.testBit_div_two_pow, h]
  · intro h
    apply Nat.eq_of_testBit_eq
    intro i
    rw [Nat.testBit_div_two_pow, Nat.testBit_div_two_pow, h (i + k) (by omega)]

/-- A number is its bits above `k`, its bit `k` and its bits below. -/
theorem eq_high_bit_low (x k : Nat) :
    x = 2 ^ (k + 1) * (x / 2 ^ (k + 1)) + (x % 2 ^ k + 2 ^ k * (x.testBit k).toNat) := by
  rw [← mod_two_pow_succ_testBit, Nat.div_add_mod]

/-- Two numbers agree above the top bit of their exclusive or, where the less has 0 and the greater 1. -/
theorem log2_xor_splits {l h : Nat} (hlt : l < h) :
    l / 2 ^ ((l ^^^ h).log2 + 1) = h / 2 ^ ((l ^^^ h).log2 + 1) ∧ l.testBit (l ^^^ h).log2 = false ∧
      h.testBit (l ^^^ h).log2 = true := by
  have hne : l ^^^ h ≠ 0 := fun h0 => hlt.ne (Nat.xor_eq_zero_iff.mp h0)
  have hdiff := Nat.testBit_log2 hne
  have habove : ∀ i, (l ^^^ h).log2 < i → l.testBit i = h.testBit i := by
    intro i hi
    have hz := Nat.testBit_lt_two_pow (Nat.lt_of_lt_of_le Nat.lt_log2_self (Nat.pow_le_pow_right (by decide) hi))
    rw [Nat.testBit_xor] at hz
    simpa using hz
  generalize (l ^^^ h).log2 = d at hdiff habove ⊢
  rw [Nat.testBit_xor] at hdiff
  have hlow : l.testBit d = false := by
    cases hl : l.testBit d with
    | false => rfl
    | true =>
      have hhigh : h.testBit d = false := by simpa [hl] using hdiff
      exact absurd (Nat.lt_of_testBit d hhigh hl fun j hj => (habove j hj).symm) hlt.asymm
  exact ⟨(div_two_pow_eq_iff l h (d + 1)).mpr habove, hlow, by simpa [hlow] using hdiff⟩

/-- Membership in an interval whose ends agree above bit `d`, where the low end has 0 and the high end 1: the bits above
agree, and the bits below are bounded by the end that has the number's bit `d`. -/
theorem mem_interval_iff {l h d : Nat} (hsame : l / 2 ^ (d + 1) = h / 2 ^ (d + 1)) (hl : l.testBit d = false)
    (hh : h.testBit d = true) (v : Nat) : (l ≤ v ∧ v ≤ h) ↔ v / 2 ^ (d + 1) = l / 2 ^ (d + 1) ∧
      if v.testBit d then v % 2 ^ d ≤ h % 2 ^ d else l % 2 ^ d ≤ v % 2 ^ d := by
  have hl' := eq_high_bit_low l d
  have hh' := eq_high_bit_low h d
  have hv' := eq_high_bit_low v d
  have hlmod := Nat.mod_lt l (Nat.two_pow_pos d)
  have hvmod := Nat.mod_lt v (Nat.two_pow_pos d)
  by_cases hq : v / 2 ^ (d + 1) = l / 2 ^ (d + 1)
  · rw [hl, Bool.toNat_false] at hl'
    rw [hh, Bool.toNat_true, ← hsame] at hh'
    rw [hq] at hv'
    cases hvb : v.testBit d with
    | false =>
      rw [hvb, Bool.toNat_false] at hv'
      simp only [hq, true_and, Bool.false_eq_true, if_false]
      omega
    | true =>
      rw [hvb, Bool.toNat_true] at hv'
      simp only [hq, true_and, if_true]
      omega
  · refine ⟨fun ⟨hlv, hvh⟩ => absurd ?_ hq, fun ⟨h, _⟩ => absurd h hq⟩
    exact le_antisymm (hsame ▸ Nat.div_le_div_right hvh) (Nat.div_le_div_right hlv)

/-- R190: the fixed part of a range asks for the bits of its low end from bit `k` up. -/
theorem eval_bitPattern_above (b low : Byte) (k : Nat) :
    (bitPattern (low &&& ~~~BitVec.ofNat 8 (2 ^ k - 1)) (0xFF#8 ^^^ BitVec.ofNat 8 (2 ^ k - 1))).eval b = true ↔
      b.toNat / 2 ^ k = low.toNat / 2 ^ k := by
  have hmask : ∀ i < 8, (BitVec.ofNat 8 (2 ^ k - 1)).getLsbD i = decide (i < k) := by
    intro i hi
    rw [BitVec.getLsbD_ofNat, decide_eq_true hi, Bool.true_and, Nat.testBit_two_pow_sub_one]
  have hones : ∀ i < 8, (0xFF#8).getLsbD i = true := by decide
  rw [eval_bitPattern, div_two_pow_eq_iff]
  refine forall_congr' fun i => ?_
  rw [BitVec.testBit_toNat, BitVec.testBit_toNat]
  by_cases hi : i < 8
  · rw [BitVec.getLsbD_xor, BitVec.getLsbD_and, BitVec.getLsbD_not, hmask i hi, hones i hi]
    by_cases hik : i < k
    · simp [hik]
    · simp [hi, hik, Nat.not_lt.mp hik, -BitVec.getLsbD_eq_getElem]
  · have hb := BitVec.getLsbD_of_ge b i (by omega)
    have hlow := BitVec.getLsbD_of_ge low i (by omega)
    simp [hi, hb, hlow]

/-- R190: a range of one byte asks for all of its bits. -/
theorem eval_bitPattern_all (b v : Byte) : (bitPattern v 0xFF#8).eval b = true ↔ b = v := by
  have hones : ∀ i < 8, (0xFF#8).getLsbD i = true := by decide
  rw [eval_bitPattern]
  exact ⟨fun h => BitVec.eq_of_getLsbD_eq fun i hi => h i hi (hones i hi), fun h i _ _ => by rw [h]⟩

/-- R190: the expression of a range of more than one byte, by the top bit in which its ends differ. -/
theorem rangeExpr_of_ne {r : ByteRange} {d : Nat} (hne : r.low ≠ r.high)
    (hd : (r.low.toNat ^^^ r.high.toNat).log2 = d) :
    rangeExpr r =
      mkAnd (bitPattern (r.low &&& ~~~BitVec.ofNat 8 (2 ^ (d + 1) - 1)) (0xFF#8 ^^^ BitVec.ofNat 8 (2 ^ (d + 1) - 1)))
        (mkSel (bitAt d) (leTree d (r.high.toNat % 2 ^ d)) (geTree d (r.low.toNat % 2 ^ d))) := by
  have hxor : r.low.toNat ^^^ r.high.toNat ≠ 0 := fun h => hne (BitVec.eq_of_toNat_eq (Nat.xor_eq_zero_iff.mp h))
  have hlen : bitLength (r.low ^^^ r.high).toNat = d + 1 := by rw [bitLength, BitVec.toNat_xor, if_neg hxor, hd]
  simp only [rangeExpr, if_neg hne, hlen, Nat.add_sub_cancel]

/-- R194 (a): the expression of a range holds on the bytes of the range. -/
theorem eval_rangeExpr (b : Byte) {r : ByteRange} (hr : r.low.toNat ≤ r.high.toNat) :
    (rangeExpr r).eval b = true ↔ r.low.toNat ≤ b.toNat ∧ b.toNat ≤ r.high.toNat := by
  by_cases heq : r.low = r.high
  · rw [rangeExpr, if_pos heq, eval_bitPattern_all, ← heq, BitVec.toNat_eq]
    omega
  · have hlt : r.low.toNat < r.high.toNat := lt_of_le_of_ne hr fun h => heq (BitVec.eq_of_toNat_eq h)
    obtain ⟨hsame, hlow, hhigh⟩ := log2_xor_splits hlt
    rw [rangeExpr_of_ne heq rfl]
    have hd : (r.low.toNat ^^^ r.high.toNat).log2 < 8 :=
      (Nat.log2_lt (fun h => hlt.ne (Nat.xor_eq_zero_iff.mp h))).mpr (Nat.xor_lt_two_pow r.low.isLt r.high.isLt)
    generalize (r.low.toNat ^^^ r.high.toNat).log2 = d at *
    have hpos := Nat.two_pow_pos d
    rw [eval_mkAnd, Bool.and_eq_true, eval_bitPattern_above, eval_mkSel, eval_bitAt_testBit b hd,
      eval_leTree b hd.le (Nat.mod_lt _ hpos), eval_geTree b hd.le (Nat.mod_lt _ hpos),
      mem_interval_iff hsame hlow hhigh]
    cases b.toNat.testBit d <;> simp

/-! Classes. -/

/-- R192: a class is well-formed when it has a range and the ends of each are in order. -/
theorem charClass_wf_iff (c : CharClass) :
    c.wf = true ↔ c.ranges ≠ [] ∧ ∀ r ∈ c.ranges, r.low.toNat ≤ r.high.toNat := by
  simp [CharClass.wf, ByteRange.wf]

/-- R191: a well-formed class compiles to the left-to-right `Or` of its ranges' expressions. -/
theorem compile_of_cons {c : CharClass} {r : ByteRange} {rs : List ByteRange} (hwf : c.wf = true)
    (hc : c.ranges = r :: rs) : c.compile = some (rs.foldl (fun e q => mkOr e (rangeExpr q)) (rangeExpr r)) := by
  rw [CharClass.compile, if_pos hwf, hc]

/-- R192: a class with no range has no expression. -/
theorem compile_of_nil {c : CharClass} (hc : c.ranges = []) : c.compile = none := by
  rw [CharClass.compile, hc]
  split <;> rfl

/-- R118, R191: a well-formed class compiles to an expression that holds on the bytes of its ranges. -/
theorem compile_of_wf {c : CharClass} (hwf : c.wf = true) : ∃ e, c.compile = some e ∧ ∀ b : Byte,
    (e.eval b = true ↔ ∃ r ∈ c.ranges, r.low.toNat ≤ b.toNat ∧ b.toNat ≤ r.high.toNat) := by
  obtain ⟨hne, hranges⟩ := (charClass_wf_iff c).mp hwf
  obtain ⟨r, rs, hc⟩ := List.exists_cons_of_ne_nil hne
  refine ⟨_, compile_of_cons hwf hc, fun b => ?_⟩
  have hany : ((rangeExpr r).eval b || rs.any fun q => (rangeExpr q).eval b) =
      c.ranges.any fun q => (rangeExpr q).eval b := by rw [hc, List.any_cons]
  rw [eval_foldl_mkOr, hany, List.any_eq_true]
  exact exists_congr fun q => and_congr_right fun hq => eval_rangeExpr b (hranges q hq)

/-- R180, R192: a pattern that holds a class with no expression has no compiled pattern. -/
theorem compilePattern_eq_none {c : CharClass} (hc : c.compile = none) {cs : List CharClass} (hmem : c ∈ cs) :
    compilePattern cs = none := by
  induction cs with
  | nil => cases hmem
  | cons a cs ih =>
    rw [compilePattern_cons]
    rcases List.mem_cons.mp hmem with rfl | hmem
    · rw [hc, Option.bind_none]
    · simp [ih hmem]

/-- Settles O55: the bits of the class word are the expression's values on the payload bytes. -/
theorem classWordCorrect : Obligations.ClassWordCorrect := by
  refine ⟨fun c hc => ⟨compile_of_nil hc, fun cs hmem => ?_⟩, fun c hwf => ?_⟩
  · have hnone := compilePattern_eq_none (compile_of_nil hc) hmem
    exact ⟨hnone, by rw [patternProgram, hnone, Option.bind_none]⟩
  · obtain ⟨e, he, heval⟩ := compile_of_wf hwf
    refine ⟨e, he, fun s => ?_⟩
    obtain ⟨t, ht, hbits, htop⟩ := expressionWordIsPointwise s e
    exact ⟨t, ht, fun i hi => by rw [hbits i hi, heval], htop⟩

end Sys2Proof
end

section
/-! The carry-propagating operations (spec/43_carry_ops.md R130 to R135): the word of each by its format (R82), what
each leaves in its destination and its carry slot, with its frame, and MSTAR as the closure of one class. -/

namespace Sys2Proof.Machine

/-! The words of formats RC and CF, field by field (R81, R82). -/

theorem packWord_formatRC (opc : BitVec 6) (rd ra rb : Reg) (ck : Slot) :
    packWord opc.toNat rd.val ra.val (atRb rb + atCi ck) =
      opc ++ BitVec.ofNat 5 rd.val ++ BitVec.ofNat 5 ra.val ++ BitVec.ofNat 5 rb.val ++ BitVec.ofNat 6 ck.val ++
        0#5 := by
  have := opc.isLt
  have := reg_lt rd
  have := reg_lt ra
  have := reg_lt rb
  have := slot_lt ck
  apply BitVec.eq_of_toNat_eq
  simp only [packWord, atRb, atCi, toNat_append_mul, BitVec.toNat_ofNat]
  omega

theorem packWord_formatCF (opc : BitVec 6) (ck : Slot) :
    packWord opc.toNat 0 0 (atCi ck) = opc ++ 0#15 ++ BitVec.ofNat 6 ck.val ++ 0#5 := by
  have := opc.isLt
  have := slot_lt ck
  apply BitVec.eq_of_toNat_eq
  simp only [packWord, atCi, toNat_append_mul, BitVec.toNat_ofNat]
  omega

/-! What each command computes before the write's mask (R21). -/

theorem exec_adv (rd rm rcc : Reg) (ck : Slot) (s : State) : exec (.adv rd rm rcc ck) s =
    .next (s.setRegCarry rd (advWord (s.readReg rm) (s.readReg rcc) (s.readCarry ck)) ck
      (advCarry (s.readReg rm) (s.readReg rcc) (s.readCarry ck))) := rfl

theorem exec_mstar (rd rm rcc : Reg) (ck : Slot) (s : State) : exec (.mstar rd rm rcc ck) s =
    .next (s.setRegCarry rd (mstarWord (s.readReg rm) (s.readReg rcc) (s.readCarry ck)) ck
      (sumCarry (mstarSum (s.readReg rm) (s.readReg rcc) (s.readCarry ck)))) := rfl

theorem exec_scanthru (rd rm rcc : Reg) (s : State) :
    exec (.scanthru rd rm rcc) s = .next (s.setReg rd (scanWord (s.readReg rm) (s.readReg rcc))) := rfl

theorem exec_addc (rd ra rb : Reg) (ck : Slot) (s : State) : exec (.addc rd ra rb ck) s =
    .next (s.setRegCarry rd (sumWord (exactSum (s.readReg ra) (s.readReg rb) (s.readCarry ck))) ck
      (sumCarry (exactSum (s.readReg ra) (s.readReg rb) (s.readCarry ck)))) := rfl

theorem exec_clrc (ck : Slot) (s : State) : exec (.clrc ck) s = .next (s.writeCarry ck false).advance := rfl

/-- A command that answers `State.setRegCarry` leaves the payload of its result, its carry-out, the next `PC` and
nothing else. -/
theorem exec_setRegCarry_payload {i : Instr} {s : State} {rd : Reg} {v : Word} {ck : Slot} {c : Bool}
    (h : exec i s = .next (s.setRegCarry rd v ck c)) : ∃ t, exec i s = .next t ∧ t.readReg rd = payload v ∧
      t.readCarry ck = c ∧ t.pc = s.pc + 1#32 ∧ ChangesOnly [rd] [ck] s t := ⟨_, h, setRegCarry_spec s rd v ck c⟩

/-! The values, bit by bit. -/

/-- R132: MSTAR's value combines its sum with the class word and the marker, bit by bit. -/
theorem getLsbD_mstarWord (m cc : Word) (c : Bool) {k : Nat} (hk : k < 64) :
    (mstarWord m cc c).getLsbD k = (((mstarSum m cc c).testBit k ^^ cc.getLsbD k) || m.getLsbD k) := by
  rw [mstarWord, BitVec.getLsbD_or, BitVec.getLsbD_xor, sumWord_getLsbD _ k hk]

/-- R133: SCANTHRU's value is its sum off the class, bit by bit. -/
theorem getLsbD_scanWord (m cc : Word) {k : Nat} (hk : k < 64) :
    (scanWord m cc).getLsbD k = ((exactSum m cc false).testBit k && !cc.getLsbD k) := by
  rw [scanWord, BitVec.getLsbD_and, BitVec.getLsbD_not, sumWord_getLsbD _ k hk, decide_eq_true hk, Bool.true_and]

/-! The values as words, over operands with bit 63 clear (R21, R135). -/

theorem payload_or (a b : Word) : payload (a ||| b) = payload a ||| payload b := BitVec.and_or_distrib_right

theorem payload_xor (a b : Word) : payload (a ^^^ b) = payload a ^^^ payload b := by
  apply BitVec.eq_of_getLsbD_eq
  intro k _
  simp only [BitVec.getLsbD_xor, getLsbD_payload, Bool.and_xor_distrib_right]

theorem payload_and_left (a b : Word) : payload (a &&& b) = payload a &&& b := by
  rw [payload, payload, BitVec.and_assoc, BitVec.and_comm b, BitVec.and_assoc]

theorem payload_sumWord (t : Nat) : payload (sumWord t) = BitVec.ofNat 64 (t % 2 ^ 63) := by
  apply BitVec.eq_of_toNat_eq
  rw [payload_sumWord_toNat, BitVec.toNat_ofNat]
  omega

theorem payload_mstarWord {m cc : Word} (hm : m.getLsbD 63 = false) (hcc : cc.getLsbD 63 = false) (c : Bool) :
    payload (mstarWord m cc c) = (BitVec.ofNat 64 (mstarSum m cc c % 2 ^ 63) ^^^ cc) ||| m := by
  rw [mstarWord, payload_or, payload_xor, payload_sumWord, payload_of_clear hm, payload_of_clear hcc]

theorem payload_scanWord (m cc : Word) :
    payload (scanWord m cc) = BitVec.ofNat 64 (exactSum m cc false % 2 ^ 63) &&& ~~~cc := by
  rw [scanWord, payload_and_left, payload_sumWord]

/-- R135: with the class word a payload, MSTAR's sum is below `2^64`. -/
theorem mstarSum_lt (m : Word) {cc : Word} (hcc : cc.getLsbD 63 = false) (c : Bool) : mstarSum m cc c < 2 ^ 64 :=
  exactSum_lt (by rw [BitVec.getLsbD_and, hcc, Bool.and_false]) hcc c

/-- R135: the carry-out of a sum below `2^64` says whether it reaches `2^63`. -/
theorem sumCarry_of_lt {t : Nat} (ht : t < 2 ^ 64) : sumCarry t = decide (2 ^ 63 ≤ t) := by
  rw [sumCarry, Nat.testBit_eq_decide_div_mod_eq, decide_eq_decide]
  omega

/-! MSTAR as the closure of one class (R132). -/

theorem classRun_succ (cc : Word) {lo p : Nat} (h : lo ≤ p) :
    classRun cc lo (p + 1) ↔ cc.getLsbD p = true ∧ classRun cc lo p := by
  constructor
  · intro hrun
    exact ⟨hrun p h (by omega), fun k hlo hk => hrun k hlo (by omega)⟩
  · rintro ⟨hp, hrun⟩ k hlo hk
    obtain hlt | rfl : k < p ∨ k = p := by omega
    · exact hrun k hlo hlt
    · exact hp

theorem mstarReaches_zero (m cc : Word) (cin : Bool) : mstarReaches m cc cin 0 ↔ cin = true := by
  constructor
  · rintro (⟨hc, _⟩ | ⟨i, hi, _⟩)
    · exact hc
    · omega
  · intro hc
    exact .inl ⟨hc, fun k _ hk => by omega⟩

/-- R132: a position is reached exactly when the class holds at the one before and that one is marked or reached. -/
theorem mstarReaches_succ (m cc : Word) (cin : Bool) (p : Nat) : mstarReaches m cc cin (p + 1) ↔
    cc.getLsbD p = true ∧ (m.getLsbD p = true ∨ mstarReaches m cc cin p) := by
  constructor
  · rintro (⟨hc, hrun⟩ | ⟨i, hi, hm, hrun⟩)
    · obtain ⟨hp, hrun⟩ := (classRun_succ cc p.zero_le).mp hrun
      exact ⟨hp, .inr (.inl ⟨hc, hrun⟩)⟩
    · obtain ⟨hp, hrun⟩ := (classRun_succ cc (by omega)).mp hrun
      obtain hlt | rfl : i < p ∨ i = p := by omega
      · exact ⟨hp, .inr (.inr ⟨i, hlt, hm, hrun⟩)⟩
      · exact ⟨hp, .inl hm⟩
  · rintro ⟨hp, hm | ⟨hc, hrun⟩ | ⟨i, hi, hm, hrun⟩⟩
    · exact .inr ⟨p, by omega, hm, (classRun_succ cc le_rfl).mpr ⟨hp, fun k _ _ => by omega⟩⟩
    · exact .inl ⟨hc, (classRun_succ cc p.zero_le).mpr ⟨hp, hrun⟩⟩
    · exact .inr ⟨i, by omega, hm, (classRun_succ cc (by omega)).mpr ⟨hp, hrun⟩⟩

/-- R132: the carry of MSTAR's sum into a position is 1 exactly when the position is reached, by induction on the
position: a class bit passes a carry on, and with a marker it starts one. -/
theorem carry_iff_mstarReaches (m cc : Word) (cin : Bool) (p : Nat) :
    BitVec.carry p (m &&& cc) cc cin = true ↔ mstarReaches m cc cin p := by
  induction p with
  | zero => rw [BitVec.carry_zero, mstarReaches_zero]
  | succ p ih =>
    rw [BitVec.carry_succ, mstarReaches_succ, ← ih, BitVec.getLsbD_and]
    cases cc.getLsbD p <;> simp

/-- R132: MSTAR's sum differs from the class word where a marker is on the class or the position is reached, but not
both. -/
theorem mstarSum_testBit_xor (m cc : Word) (cin : Bool) {k : Nat} (hk : k < 64) :
    ((mstarSum m cc cin).testBit k ^^ cc.getLsbD k) =
      ((m.getLsbD k && cc.getLsbD k) ^^ BitVec.carry k (m &&& cc) cc cin) := by
  rw [mstarSum, exactSum_testBit _ _ _ k hk, BitVec.getLsbD_and]
  cases cc.getLsbD k <;> simp

/-- R132: MSTAR marks what was marked and what is reached. -/
theorem mstarWord_iff_mstarReaches (m cc : Word) (cin : Bool) {p : Nat} (hp : p < 64) :
    (mstarWord m cc cin).getLsbD p = true ↔ m.getLsbD p = true ∨ mstarReaches m cc cin p := by
  rw [getLsbD_mstarWord m cc cin hp, mstarSum_testBit_xor m cc cin hp, ← carry_iff_mstarReaches]
  cases m.getLsbD p <;> simp

/-- R132: MSTAR's carry-out says whether position 63 is reached. -/
theorem sumCarry_iff_mstarReaches (m : Word) {cc : Word} (hcc : cc.getLsbD 63 = false) (cin : Bool) :
    sumCarry (mstarSum m cc cin) = true ↔ mstarReaches m cc cin 63 := by
  have hbit := mstarSum_testBit_xor m cc cin (k := 63) (by decide)
  rw [hcc, Bool.and_false, Bool.xor_false, Bool.false_xor] at hbit
  rw [sumCarry, hbit, carry_iff_mstarReaches]

/-! The statements. -/

/-- Settles O15: bit `k + 1` of the shift is bit `k` of `m & cc`; bit 63 leaves through the carry slot. -/
theorem advShiftsWithCarry : Obligations.AdvShiftsWithCarry := by
  intro rd rm rcc ck s
  obtain ⟨t, ht, hreg, hcarry, hpc, hframe⟩ := exec_setRegCarry_payload (exec_adv rd rm rcc ck s)
  have hbit : ∀ k < 63, (t.readReg rd).getLsbD k = if k = 0 then s.readCarry ck
      else ((s.readReg rm).getLsbD (k - 1) && (s.readReg rcc).getLsbD (k - 1)) := by
    intro k hk
    rw [hreg, getLsbD_payload, decide_eq_true hk, Bool.and_true, advWord_getLsbD _ _ _ k (by omega)]
  refine ⟨packWord_formatRC 0x0B#6 rd rm rcc ck, t, ht, hbit 0 (by decide), fun k hk => hbit (k + 1) (by omega), ?_, ?_,
    hpc, hframe⟩
  · rw [hreg, getLsbD_payload]
    exact Bool.and_false _
  · rw [hcarry]
    exact advWord_getLsbD _ _ _ 63 (by decide)

/-- Settles O16: the slot takes bit 63 of the sum, the register the 63 payload bits of the value. -/
theorem mstarSumAndCarry : Obligations.MstarSumAndCarry := by
  intro rd rm rcc ck s
  obtain ⟨t, ht, hreg, hcarry, hpc, hframe⟩ := exec_setRegCarry_payload (exec_mstar rd rm rcc ck s)
  refine ⟨packWord_formatRC 0x0C#6 rd rm rcc ck, t, _, ht, rfl, fun k => ?_, hcarry, hpc, hframe⟩
  rw [hreg, getLsbD_payload, Bool.and_comm]
  by_cases hk : k < 63
  · rw [getLsbD_mstarWord _ _ _ (by omega)]
    rfl
  · rw [decide_eq_false hk, Bool.false_and, Bool.false_and]

/-- Settles O17: the carry into each position of the sum is reachability. -/
theorem mstarIsKleeneClosure : Obligations.MstarIsKleeneClosure := by
  intro rd rm rcc ck s hcc
  obtain ⟨t, ht, hreg, hcarry, _⟩ := exec_setRegCarry_payload (exec_mstar rd rm rcc ck s)
  refine ⟨t, ht, fun p hp => ?_, ?_⟩
  · rw [hreg, getLsbD_payload, decide_eq_true hp, Bool.and_true]
    exact mstarWord_iff_mstarReaches _ _ _ (by omega)
  · rw [hcarry]
    exact sumCarry_iff_mstarReaches _ hcc _

/-- Settles O18: the written value is a function of the two sources alone. -/
theorem scanthruSum : Obligations.ScanthruSum := by
  intro rd rm rcc s
  refine ⟨packWord_formatR2 0x0D#6 rd rm rcc, ?_, fun s' t t' hm hcc ht ht' => ?_⟩
  · obtain ⟨t, ht, hbits, hpc, hframe⟩ := exec_setReg_bits (exec_scanthru rd rm rcc s) fun k hk =>
      getLsbD_scanWord _ _ (by omega)
    exact ⟨t, _, ht, rfl, hbits, hpc, hframe⟩
  · rw [exec_scanthru] at ht ht'
    cases ht
    cases ht'
    rw [(setReg_spec s' rd _).1, (setReg_spec s rd _).1, hm, hcc]

/-- Settles O19: the register takes the sum below `2^63`, the slot its bit 63. -/
theorem addcSumAndCarry : Obligations.AddcSumAndCarry := by
  intro rd ra rb ck s
  obtain ⟨t, ht, hreg, hcarry, hpc, hframe⟩ := exec_setRegCarry_payload (exec_addc rd ra rb ck s)
  refine ⟨packWord_formatRC 0x0E#6 rd ra rb ck, t, _, ht, rfl, ?_, hcarry, hpc, hframe⟩
  rw [hreg, payload_sumWord_toNat]
  rfl

/-- Settles O20: the register and the slot are the sum modulo `2^64`, which the sum does not reach. -/
theorem addcIsExact : Obligations.AddcIsExact := by
  intro rd ra rb ck s hinv
  obtain ⟨-, t, sum, ht, hsum, hreg, hcarry, -⟩ := addcSumAndCarry rd ra rb ck s
  have hlt : sum < 2 ^ 64 := hsum ▸ exactSum_lt (hinv.headroom ra) (hinv.headroom rb) (s.readCarry ck)
  rw [← hsum]
  refine ⟨t, ht, ?_, hlt⟩
  rw [hreg, hcarry, ← mod_two_pow_succ_testBit, Nat.mod_eq_of_lt hlt]

/-- Settles O57: with bit 63 of the operands clear the sums fit, and the mask reaches nothing but them. -/
theorem mstarScanthruSumsAreExact : Obligations.MstarScanthruSumsAreExact := by
  intro rd rm rcc ck s hinv
  have hm := hinv.headroom rm
  have hcc := hinv.headroom rcc
  constructor
  · obtain ⟨t, ht, hreg, hcarry, _⟩ := exec_setRegCarry_payload (exec_mstar rd rm rcc ck s)
    have hlt := mstarSum_lt (s.readReg rm) hcc (s.readCarry ck)
    exact ⟨t, _, ht, rfl, hlt, hcarry.trans (sumCarry_of_lt hlt), hreg.trans (payload_mstarWord hm hcc _)⟩
  · exact ⟨_, _, exec_scanthru rd rm rcc s, rfl, exactSum_lt hm hcc false,
      (setReg_spec s rd _).1.trans (payload_scanWord _ _), rfl⟩

/-- Settles O21: only the slot named is written. -/
theorem clrcClearsOneSlot : Obligations.ClrcClearsOneSlot := by
  intro ck s
  refine ⟨packWord_formatCF 0x11#6 ck, _, exec_clrc ck s, readCarry_writeCarry_same s ck false, rfl, fun _ _ => rfl,
    fun j hj => ?_, rfl, rfl, keepsRest_refl s⟩
  exact readCarry_writeCarry_other s false (by simpa using hj)

end Sys2Proof.Machine
end

section
/-! Population count and match counting (spec/44_count.md R150, R151): the words of POPC and ACCPOP by their formats
(R82), what each leaves with its frame, and which steps change `MCOUNT`. -/

namespace Sys2Proof.Machine

/-! The commands. -/

theorem packWord_formatA (opc : BitVec 6) (ra : Reg) :
    packWord opc.toNat 0 ra.val 0 = opc ++ 0#5 ++ BitVec.ofNat 5 ra.val ++ 0#16 := packWord_formatR1 opc 0 ra

theorem exec_popc (rd ra : Reg) (s : State) :
    exec (.popc rd ra) s = .next (s.setReg rd (BitVec.ofNat 64 (popcount (s.readReg ra)))) := rfl

theorem exec_accpop (ra : Reg) (s : State) : exec (.accpop ra) s =
    .next { s with mcount := s.mcount + BitVec.ofNat 64 (popcount (s.readReg ra)) }.advance := rfl

/-- R150: a word with bit 63 clear has at most 63 bits that are 1. -/
theorem popcount_le_of_clear {v : Word} (h : v.getLsbD 63 = false) : popcount v ≤ 63 := by
  have hlow : (List.range 63).countP (fun k => v.getLsbD k) ≤ 63 := by
    simpa using List.countP_le_length (p := fun k => v.getLsbD k) (l := List.range 63)
  rw [popcount, List.range_succ, List.countP_append, List.countP_singleton, h]
  exact hlow

/-- A population count fits the payload of a word, so the write's mask (R21) loses nothing of it. -/
theorem payload_popcount_toNat (v : Word) : (payload (BitVec.ofNat 64 (popcount v))).toNat = popcount v := by
  have := popcount_le v
  rw [payload_toNat, BitVec.toNat_ofNat]
  omega

/-- Settles O22: the count fits the register, and a clear bit 63 leaves 63 bits to count. -/
theorem popcCountsOnes : Obligations.PopcCountsOnes := by
  intro rd ra s
  obtain ⟨t, ht, hreg, hpc, hframe⟩ := exec_setReg_payload (exec_popc rd ra s)
  have hcount : (t.readReg rd).toNat = popcount (s.readReg ra) := by rw [hreg, payload_popcount_toNat]
  refine ⟨packWord_formatR1 0x0F#6 rd ra, t, ht, ?_, fun hclear => ?_, hpc, hframe⟩
  · rw [hcount, popcount_eq_filter_length]
  · rw [hcount]
    exact popcount_le_of_clear hclear

/-! How `MCOUNT` changes. -/

/-- R151: of the commands only ACCPOP changes `MCOUNT`. -/
theorem exec_mcount {i : Instr} {s t : State} (h : exec i s = .next t) (ht : t.mcount ≠ s.mcount) :
    ∃ ra, i = .accpop ra := by
  cases i with
  | accpop ra => exact ⟨ra, rfl⟩
  | transpose =>
    rw [exec_transpose] at h
    cases h
    rw [advance_mcount, writePlanes_mcount] at ht
    exact absurd rfl ht
  | nop | halt | setTrue _ | setFalse _ | band _ _ _ | bor _ _ _ | bxor _ _ _ | bnot _ _ | sel _ _ _ _ | adv _ _ _ _
  | mstar _ _ _ _ | scanthru _ _ _ | addc _ _ _ _ | popc _ _ | clrc _ => cases h; exact absurd rfl ht

/-- R151: a step of the sequencer changes `MCOUNT` only by an ACCPOP. -/
theorem sequencerStep_mcount {s t : State} (h : s.sequencerStep = .next t) (ht : t.mcount ≠ s.mcount) :
    ∃ ra, s.runs (.accpop ra) := by
  obtain ⟨_, hs⟩ | ⟨_, _, _, hs⟩ | ⟨_, _, _, _, hs⟩ | ⟨i, hruns, hs⟩ := sequencerStep_cases s <;> rw [hs] at h
  · cases h; exact absurd rfl ht
  · cases h; exact absurd rfl ht
  · cases h; exact absurd rfl ht
  · obtain ⟨ra, rfl⟩ := exec_mcount h ht
    exact ⟨ra, hruns⟩

/-- R30, R51: a host write while idle changes `MCOUNT` only by CLR_COUNT. -/
theorem idleWrite_mcount {s : State} {w : BitVec 32} {loc : WindowLoc} (ht : (s.idleWrite w loc).mcount ≠ s.mcount) :
    loc = .ctrl ∧ w.getLsbD 2 = true := by
  cases loc with
  | ctrl =>
    rw [State.idleWrite, writeCtrl_eq] at ht
    exact ⟨rfl, by_contra fun hn => ht (if_neg hn)⟩
  | status =>
    rw [State.idleWrite, writeStatus_eq] at ht
    exact absurd rfl ht
  | startPc | pc | faultPc | faultInsn | mcountLo | mcountHi | carryLo | carryHi | config | ibuf _ | regLo _ | regHi _
  | imem _ | unmapped => exact absurd rfl ht

/-- R30, R59: a host write changes `MCOUNT` only while idle. -/
theorem hostWrite_mcount {s : State} {offset : BitVec 16} {w : BitVec 32}
    (ht : (s.hostWrite offset w).mcount ≠ s.mcount) : s.idle ∧ s.locOf offset = .ctrl ∧ w.getLsbD 2 = true := by
  obtain ⟨_, hw⟩ | ⟨_, _, _, hw⟩ | ⟨_, _, hw⟩ | ⟨hi, _, hw⟩ := hostWrite_cases s offset w <;> rw [hw] at ht
  · exact absurd rfl ht
  · exact absurd rfl ht
  · rw [writeStatus_eq] at ht
    exact absurd rfl ht
  · exact ⟨hi, idleWrite_mcount ht⟩

/-- R151: a step changes `MCOUNT` only by an ACCPOP of a run, reset, or CLR_COUNT, move by move of the interleaving. -/
theorem step_mcount {s t : State} (h : step s = .next t) (ht : t.mcount ≠ s.mcount) :
    (s.sequencerDue ∧ ∃ ra, s.runs (.accpop ra)) ∨ s.resetDue ∨
      (∃ offset w, s.writeDue offset w ∧ s.idle ∧ s.locOf offset = .ctrl ∧ w.getLsbD 2 = true) := by
  obtain ⟨rest, ⟨hdue, hs⟩ | ⟨offset, rfl⟩ | ⟨offset, w, hdue, rfl⟩ | ⟨hdue, _⟩ | rfl⟩ := step_cases h
  · exact .inl ⟨hdue, sequencerStep_mcount (s := { s with moves := rest }) hs ht⟩
  · rw [hostRead_rest] at ht
    exact absurd rfl ht
  · exact .inr (.inr ⟨offset, w, hdue, hostWrite_mcount (s := { s with moves := rest }) ht⟩)
  · exact .inr (.inl hdue)
  · exact absurd rfl ht

/-- Settles O23: the sum of ACCPOP wraps as 64-bit addition does, and `step_mcount` lists the steps that change it. -/
theorem accpopAddsToMcount : Obligations.AccpopAddsToMcount := by
  refine ⟨fun ra s => ⟨packWord_formatA 0x10#6 ra, _, exec_accpop ra s, ?_, rfl, fun _ => rfl, fun _ => rfl, rfl,
    keepsRest_refl s⟩, fun _ _ => step_mcount⟩
  rw [advance_mcount, BitVec.toNat_add, BitVec.toNat_ofNat, Nat.add_mod_mod, popcount_eq_filter_length]

end Sys2Proof.Machine
end

section
/-! The sequencer (spec/45_sequencing.md R160 to R166, R174): what NOP and HALT do, how a run begins, that every step of
it moves it on or ends it, so that it ends within the size of IMEM, and that it depends on nothing of the host's. -/

namespace Sys2Proof.Machine

/-! The commands. -/

theorem exec_nop (s : State) : exec .nop s = .next s.advance := rfl

theorem exec_halt (s : State) : exec .halt s = .next s.endRun := rfl

/-- Settles O7: NOP is `State.advance` alone. -/
theorem nopOnlyAdvances : Obligations.NopOnlyAdvances :=
  ⟨rfl, fun s => ⟨_, exec_nop s, advance_pc s, fun _ _ => rfl, fun _ _ => rfl, rfl, rfl, keepsRest_refl s⟩⟩

/-- Settles O8: HALT is `State.endRun` alone. -/
theorem haltEndsRun : Obligations.HaltEndsRun :=
  ⟨rfl, fun s => ⟨_, exec_halt s, rfl, rfl, rfl, rfl, rfl, endRun_pc s, fun _ => rfl, fun _ => rfl, rfl,
    keepsRest_refl s⟩⟩

/-- Settles O24, by the two shapes of a command. -/
theorem everyCommandAdvancesPc : Obligations.EveryCommandAdvancesPc := by
  intro i s hi
  obtain ⟨hhalt, _⟩ | ⟨_, _, _, _, he⟩ := exec_shape i s
  · exact absurd hhalt hi
  · exact ⟨_, he, rfl⟩

/-! A step of the sequencer. -/

/-- R161: when a command stands at the `PC` of a run, the sequencer's step is that command's meaning. -/
theorem sequencerStep_of_runs {s : State} {i : Instr} (h : s.runs i) : s.sequencerStep = exec i s := by
  obtain ⟨hb, hr, hp, hd⟩ := h
  rw [State.sequencerStep, hb, hr, Bool.not_false, Bool.and_self, if_pos rfl, State.runStep, State.fetch,
    if_neg (Nat.not_le.mpr hp)]
  simp only [State.executeWord, hd]

/-- Settles O29: with no move due the step is the sequencer's. -/
theorem stepRunsDecodedCommand : Obligations.StepRunsDecodedCommand := by
  intro s i hm hb hr hp hd
  rw [step_of_moves_nil hm]
  exact sequencerStep_of_runs ⟨hb, hr, hp, hd⟩

/-- R165, R211: `STATUS` after a run: the run is over, by HALT or by a fault. -/
def Status.ended (st : Status) : Prop := st.busy = false ∧ (st.done = true ∨ st.fault = true)

/-- R163, R165, R211: a step of a run inside IMEM may add 1 to the `PC` and let the run go on; every other one ends the
run and keeps the `PC`. -/
theorem sequencerStep_of_busy {s : State} (hb : s.status.busy = true) (hr : s.resetAsserted = false) :
    ∃ t, s.sequencerStep = .next t ∧
      ((s.pc.toNat < s.imemWords ∧ t.status.busy = true ∧ t.pc = s.pc + 1#32) ∨ (t.status.ended ∧ t.pc = s.pc)) := by
  obtain ⟨hidle, _⟩ | ⟨_, _, _, hs⟩ | ⟨_, _, _, _, hs⟩ | ⟨i, ⟨_, _, hp, _⟩, hs⟩ := sequencerStep_cases s
  · simp [hb, hr] at hidle
  · exact ⟨_, hs, .inr ⟨⟨rfl, .inr rfl⟩, rfl⟩⟩
  · exact ⟨_, hs, .inr ⟨⟨rfl, .inr rfl⟩, rfl⟩⟩
  · rw [hs]
    obtain ⟨_, he⟩ | ⟨_, _, _, _, he⟩ := exec_shape i s
    · exact ⟨_, he, .inr ⟨⟨rfl, .inl rfl⟩, rfl⟩⟩
    · exact ⟨_, he, .inl ⟨hp, hb, rfl⟩⟩

/-- R223: outside a run the sequencer's step holds the state. -/
theorem sequencerStep_of_not_busy {s : State} (hb : s.status.busy = false) : s.sequencerStep = .next s := by
  rw [State.sequencerStep, hb]
  rfl

/-- R166: the sequencer's step always answers a next state. -/
theorem sequencerStep_answers (s : State) : ∃ t, s.sequencerStep = .next t := by
  obtain ⟨_, hs⟩ | ⟨_, _, _, hs⟩ | ⟨_, _, _, _, hs⟩ | ⟨i, _, hs⟩ := sequencerStep_cases s
  · exact ⟨_, hs⟩
  · exact ⟨_, hs⟩
  · exact ⟨_, hs⟩
  · obtain ⟨_, he⟩ | ⟨_, _, _, _, he⟩ := exec_shape i s <;> exact ⟨_, hs.trans he⟩

/-- R166: so does every move of the interleaving. -/
theorem perform_answers (s : State) (m : Move) : ∃ t, s.perform m = .next t := by
  cases m with
  | sequencer => exact sequencerStep_answers s
  | read _ | write _ _ | assertReset | releaseReset => exact ⟨_, rfl⟩

/-- The step of a state whose next move is the sequencer's, with that move taken off the list. -/
theorem step_of_sequencerDue {s : State} (h : s.sequencerDue) :
    ∃ rest, step s = State.sequencerStep { s with moves := rest } := by
  obtain hm | ⟨rest, hm⟩ := h
  · exact ⟨s.moves, step_of_moves_nil hm⟩
  · exact ⟨rest, step_of_moves_cons hm⟩

/-- Settles O33: every move answers, and a step of a run is the sequencer's. -/
theorem blockNeverHangs : Obligations.BlockNeverHangs := by
  refine ⟨fun s => ?_, fun s hdue hb hr => ?_⟩
  · cases hm : s.moves with
    | nil => rw [step_of_moves_nil hm]; exact sequencerStep_answers s
    | cons m rest => rw [step_of_moves_cons hm]; exact perform_answers _ m
  · obtain ⟨rest, hstep⟩ := step_of_sequencerDue hdue
    obtain ⟨t, hs, hgo | ⟨⟨hbusy, hend⟩, hpc⟩⟩ := sequencerStep_of_busy (s := { s with moves := rest }) hb hr
    · exact ⟨t, hstep.trans hs, .inl hgo.2⟩
    · exact ⟨t, hstep.trans hs, .inr ⟨hbusy, hend, hpc⟩⟩

/-! A run depends on nothing of the host's. -/

/-- R174: a step of the sequencer draws no free value: it carries the count along unread. -/
theorem sequencerStep_draws {s t : State} (h : s.sequencerStep = .next t) : t.draws = s.draws := by
  have hself := sequencerStep_withHost h s.status.hostConflict s.moves s.draws s.hostData
  injection h.symm.trans hself with ht
  rw [ht]
  rfl

/-- Settles O49, by induction on the number of steps. -/
theorem runIsDeterministic : Obligations.RunIsDeterministic := by
  intro k
  induction k with
  | zero => exact fun s s' _ _ hview => ⟨s, s', rfl, rfl, hview, rfl, rfl⟩
  | succ k ih =>
    intro s s' hm hm' hview
    obtain ⟨u', hu'⟩ := sequencerStep_answers s'
    obtain ⟨u, hu, huview⟩ := sequencerStep_runView hview hu'
    obtain ⟨_, _, hum⟩ := sequencerStep_keeps hu
    obtain ⟨_, _, hum'⟩ := sequencerStep_keeps hu'
    obtain ⟨t, t', ht, ht', htview, hd, hd'⟩ := ih u u' (hum.trans hm) (hum'.trans hm') huview
    exact ⟨t, t', runFor_succ.mpr ⟨u, (step_of_moves_nil hm).trans hu, ht⟩,
      runFor_succ.mpr ⟨u', (step_of_moves_nil hm').trans hu', ht'⟩, htview,
      hd.trans (sequencerStep_draws hu), hd'.trans (sequencerStep_draws hu')⟩

/-! How a run begins. -/

/-- R160: START, as the step that is the host's write of `CTRL` with bit 0 set while idle. -/
theorem step_start {s : State} (hi : s.idle) {w : BitVec 32} (hw : w.getLsbD 0 = true) (rest : List Move) :
    step { s with moves := .write 0x000#16 w :: rest } = .next { s with
      carry := if w.getLsbD 1 then 0#64 else s.carry
      mcount := if w.getLsbD 2 then 0#64 else s.mcount
      pc := s.startPc
      status := s.startRun.status
      moves := rest } := by
  rw [step_write_idle hi (locOf_ctrl s), State.idleWrite, writeCtrl_eq]
  simp only [hw, if_true, startRun_status]

/-- Settles O36: the write while idle is `step_start`, and during a run CTRL is one of the refused locations. -/
theorem startBeginsRunAtStartPc : Obligations.StartBeginsRunAtStartPc := by
  refine ⟨fun s w rest hi hw => ⟨_, step_start hi hw rest, rfl, rfl, rfl, rfl, rfl⟩, fun s w rest hb hr => ?_⟩
  exact congrArg Host.Outcome.next (hostWrite_busy (s := { s with moves := rest }) hb hr (by simp) w)

/-! How a run ends. -/

/-- R166: a block with no move due whose latest run is over, or is in progress with fewer than `n` words of IMEM from
the `PC` on, so that it is over after at most `n` steps. -/
structure State.EndsWithin (n : Nat) (s : State) : Prop where
  inv : s.Inv
  moves : s.moves = []
  notReset : s.resetAsserted = false
  run : s.status.ended ∨ (s.status.busy = true ∧ s.imemWords - s.pc.toNat < n)

/-- R166: a step brings the end of the run one step nearer. The `PC` does not wrap, since it is inside IMEM. -/
theorem step_endsWithin {n : Nat} {s : State} (h : s.EndsWithin n) : ∃ t, step s = .next t ∧ t.EndsWithin (n - 1) := by
  obtain ⟨hinv, hm, hr, hrun⟩ := h
  suffices hseq : ∃ t, s.sequencerStep = .next t ∧
      (t.status.ended ∨ (t.status.busy = true ∧ t.imemWords - t.pc.toNat < n - 1)) by
    obtain ⟨t, hs, ht⟩ := hseq
    obtain ⟨_, htr, htm⟩ := sequencerStep_keeps hs
    exact ⟨t, (step_of_moves_nil hm).trans hs, inv_sequencerStep hinv hs, htm.trans hm, htr.trans hr, ht⟩
  obtain hend | ⟨hb, hn⟩ := hrun
  · exact ⟨s, sequencerStep_of_not_busy hend.1, .inl hend⟩
  · obtain ⟨t, hs, ⟨hp, htb, hpc⟩ | ⟨hend, _⟩⟩ := sequencerStep_of_busy hb hr
    · refine ⟨t, hs, .inr ⟨htb, ?_⟩⟩
      have hwords := sequencerStep_imemWords hs
      have hsize : s.imemWords ≤ 1024 := hinv.size.2
      have htpc : t.pc.toNat = s.pc.toNat + 1 := by
        rw [hpc, BitVec.toNat_add, BitVec.toNat_ofNat]
        omega
      omega
    · exact ⟨t, hs, .inl hend⟩

/-- R166: `k` steps bring it `k` steps nearer. -/
theorem runFor_endsWithin (k : Nat) {n : Nat} {s : State} (h : s.EndsWithin n) :
    ∃ t, runFor k s = .next t ∧ t.EndsWithin (n - k) := by
  induction k generalizing n s with
  | zero => exact ⟨s, rfl, h⟩
  | succ k ih =>
    obtain ⟨u, hstep, hu⟩ := step_endsWithin h
    obtain ⟨t, hrun, ht⟩ := ih hu
    rw [Nat.sub_sub, Nat.add_comm 1 k] at ht
    exact ⟨t, runFor_succ.mpr ⟨u, hstep, hrun⟩, ht⟩

/-- With no step left the run is over. -/
theorem ended_of_endsWithin_zero {s : State} (h : s.EndsWithin 0) : s.status.ended :=
  h.run.resolve_right fun ⟨_, hn⟩ => Nat.not_lt_zero _ hn

/-- R160, R166: from an idle state of the invariant START begins a run with `IMEM_WORDS - START_PC` words before it. -/
theorem start_endsWithin {s : State} (h : s.Inv) (hi : s.idle) {w : BitVec 32} (hw : w.getLsbD 0 = true) :
    ∃ t, step { s with moves := [.write 0x000#16 w] } = .next t ∧
      t.EndsWithin (s.imemWords - s.startPc.toNat + 1) := by
  have hstep := step_start hi hw []
  have hinv := stepKeepsInvariant _ _ (inv_setHostFields h _ s.draws s.hostData) hstep
  exact ⟨_, hstep, ⟨hinv, rfl, hi.2, .inr ⟨rfl, Nat.lt_succ_self _⟩⟩⟩

/-- Settles O32: START, then as many steps as bring the end nearest; a run that ends earlier stays ended. -/
theorem everyRunEnds : Obligations.EveryRunEnds := by
  intro s w h hi hm hw
  obtain ⟨u, hstep, hu⟩ := start_endsWithin h hi hw
  rw [← hm] at hstep
  obtain ⟨t, hrun, ht⟩ := runFor_endsWithin (s.imemWords - s.startPc.toNat + 1) hu
  rw [Nat.sub_self] at ht
  obtain ⟨hbusy, hend⟩ := ended_of_endsWithin_zero ht
  exact ⟨_, t, Nat.le_add_left 1 _, Nat.le_refl _, by rw [Nat.add_comm]; exact runFor_succ.mpr ⟨u, hstep, hrun⟩,
    hbusy, hend⟩

end Sys2Proof.Machine
end

section
/-! The host's block loop (spec/45_sequencing.md R172): the writes before a run keep the block idle, the polls see
the run end, at the latest with the `IMEM_WORDS + 2`nd, and the count is read from an idle block. -/

namespace Sys2Proof

open Sys2Proof.Machine

/-! The moves the host plays. -/

/-- `playMoves_cons_of_next` for a move given as the step with that move alone due, as the facts about accesses give
it. -/
theorem playMoves_cons_of_step {s t : State} {m : Move} (h : step { s with moves := [m] } = .next t) (ms : List Move) :
    playMoves (m :: ms) s = playMoves ms t :=
  playMoves_cons_of_next h ms

/-- Steps of the sequencer played by the host are steps of the machine with no move due. -/
theorem playMoves_replicate_sequencer {k : Nat} {s t : State} (hm : s.moves = []) (h : runFor k s = .next t) :
    playMoves (List.replicate k .sequencer) s = some t := by
  induction k generalizing s with
  | zero => cases h; rfl
  | succ k ih =>
    obtain ⟨u, hstep, hrun⟩ := runFor_succ.mp h
    rw [step_of_moves_nil hm] at hstep
    obtain ⟨_, _, hum⟩ := sequencerStep_keeps hstep
    have hself : { s with moves := [] } = s := by rw [← hm]
    have hperform : State.perform { s with moves := [] } .sequencer = .next u := by rw [hself]; exact hstep
    rw [List.replicate_succ, playMoves_cons_of_next hperform]
    exact ih (hum.trans hm) hrun

/-- R55, R172: writing IBUF leaves an idle block of the invariant one. -/
theorem playMoves_writeIbuf {ms : List Move}
    (hms : ∀ m ∈ ms, ∃ k < 16, ∃ w, m = .write (BitVec.ofNat 16 (0x100 + 4 * k)) w) {s : State} (h : s.Inv)
    (hi : s.idle) : ∃ t, playMoves ms s = some t ∧ t.Inv ∧ t.idle := by
  induction ms generalizing s with
  | nil => exact ⟨s, rfl, h, hi⟩
  | cons m ms ih =>
    obtain ⟨⟨k, hk, w, rfl⟩, hrest⟩ := List.forall_mem_cons.mp hms
    have hstep := step_write_idle hi (locOf_ibuf s hk) w []
    have hinv := stepKeepsInvariant _ _ (inv_setHostFields h _ s.draws s.hostData) hstep
    rw [playMoves_cons_of_step hstep]
    exact ih hrest hinv hi

theorem mem_ibufMoves {pad : Byte} {block : List Byte} {m : Move} (h : m ∈ ibufMoves pad block) :
    ∃ k < 16, ∃ w, m = .write (BitVec.ofNat 16 (0x100 + 4 * k)) w := by
  obtain ⟨k, hk, rfl⟩ := List.mem_map.mp h
  exact ⟨k, List.mem_range.mp hk, _, rfl⟩

/-! Reads. -/

/-- R51, R58, R59: the host reads a word whose value is open neither by a run nor by reset, and the read changes nothing
of the block. -/
theorem readWord_exact {s : State} {offset : BitVec 16} {loc : WindowLoc} (hl : s.locOf offset = loc)
    (hr : s.resetAsserted = false) (ho : s.status.busy = false ∨ loc.openWhileBusy = false) :
    readWord offset s = some ({ s with hostData := s.windowWord loc, moves := [] }, s.windowWord loc) := by
  rw [readWord, playMoves_cons_of_step (step_read_exact hl hr ho []), playMoves_nil]
  rfl

/-- R54, R172: from an idle block the host reads `MCOUNT`, and changes nothing of the block. -/
theorem readCount_idle {s : State} (hi : s.idle) :
    ∃ d, readCount s = some ({ s with hostData := d, moves := [] }, s.mcount.toNat) := by
  obtain ⟨hb, hr⟩ := hi
  refine ⟨s.mcount.extractLsb' 32 32, ?_⟩
  rw [readCount, readWord_exact (loc := .mcountLo) rfl hr (.inl hb), Option.bind_some]
  dsimp only
  rw [readWord_exact (s := { s with hostData := _, moves := [] }) (loc := .mcountHi) rfl hr (.inl hb)]
  exact congrArg (fun v : BitVec 64 => some (_, v.toNat)) (halves_append s.mcount)

/-- The state after a poll of `STATUS` (R31). -/
def pollStatus (s : State) : State := { s with hostData := s.status.word, moves := [] }

/-- R172: a poll outside reset ends the wait if the block is idle, and otherwise lets the sequencer go on. -/
theorem awaitEnd_succ (pace fuel : Nat) {s : State} (hr : s.resetAsserted = false) :
    awaitEnd pace (fuel + 1) s =
      if s.status.busy then (playMoves (List.replicate (pace + 1) .sequencer) (pollStatus s)).bind (awaitEnd pace fuel)
      else some (pollStatus s, s.status.word) := by
  have hpoll : readWord 0x004#16 s = some (pollStatus s, s.status.word) :=
    readWord_exact (loc := .status) rfl hr (.inr rfl)
  rw [awaitEnd, hpoll, Option.bind_some, ← (status_word_flags s.status).1]

/-! One run. -/

/-- A run that ends within some number of steps ends within any greater one. -/
theorem endsWithin_mono {m n : Nat} (hmn : m ≤ n) {s : State} (h : s.EndsWithin m) : s.EndsWithin n :=
  ⟨h.inv, h.moves, h.notReset, h.run.imp_right fun ⟨hb, hm⟩ => ⟨hb, Nat.lt_of_lt_of_le hm hmn⟩⟩

/-- A poll leaves the run as near to its end as it is. -/
theorem endsWithin_pollStatus {n : Nat} {s : State} (h : s.EndsWithin n) : (pollStatus s).EndsWithin n :=
  ⟨inv_setHostFields h.inv [] s.draws s.status.word, rfl, h.notReset, h.run⟩

/-- R166, R172: one poll more than the run has steps left sees its end, at any pace. -/
theorem awaitEnd_of_endsWithin (pace : Nat) {n : Nat} {s : State} (h : s.EndsWithin n) :
    ∃ t, awaitEnd pace (n + 1) s = some (t, t.status.word) ∧ t.EndsWithin 0 := by
  induction n generalizing s with
  | zero =>
    obtain ⟨hb, _⟩ := ended_of_endsWithin_zero h
    exact ⟨pollStatus s, by rw [awaitEnd_succ pace 0 h.notReset, hb]; rfl, endsWithin_pollStatus h⟩
  | succ n ih =>
    rw [awaitEnd_succ pace (n + 1) h.notReset]
    obtain hend | ⟨hb, _⟩ := h.run
    · rw [hend.1]
      exact ⟨pollStatus s, rfl, (endsWithin_pollStatus h).inv, rfl, h.notReset, .inl hend⟩
    · obtain ⟨u, hrun, hu⟩ := runFor_endsWithin (pace + 1) (endsWithin_pollStatus h)
      rw [hb, if_pos rfl, playMoves_replicate_sequencer rfl hrun, Option.bind_some]
      exact ih (endsWithin_mono (by omega) hu)

/-- R166, R172: the host sees the end of every run it begins on an idle block of the invariant. -/
theorem runBlock_ends (pace : Nat) (pad : Byte) (block : List Byte) {s : State} (h : s.Inv) (hi : s.idle) :
    ∃ t, runBlock pace pad block s = some (t, t.status.word) ∧ t.EndsWithin 0 := by
  obtain ⟨u, hplay, hinv, hidle⟩ := playMoves_writeIbuf (fun _ => mem_ibufMoves (pad := pad) (block := block)) h hi
  obtain ⟨v, hstart, hv⟩ := start_endsWithin hinv hidle (w := 0x1#32) (by decide)
  have hwords : v.imemWords = u.imemWords := step_imemWords (s := { u with moves := [.write 0x000#16 0x1#32] }) hstart
  rw [runBlock, playMoves_append, hplay, Option.bind_some, playMoves_cons_of_step hstart, playMoves_nil,
    Option.bind_some, hwords]
  exact awaitEnd_of_endsWithin pace (endsWithin_mono (by omega) hv)

/-! The loop. -/

/-- R172: a run that is over ended by HALT, as the host's check says, or by a fault alone. -/
theorem endedByHalt_cases {s : State} (h : s.EndsWithin 0) :
    (endedByHalt s.status.word = true ∧ s.status.done = true ∧ s.status.fault = false) ∨
      (endedByHalt s.status.word = false ∧ s.status.done = false ∧ s.status.fault = true) := by
  obtain ⟨_, hdone, hfault, _⟩ := status_word_flags s.status
  obtain ⟨_, _, hone, _⟩ := h.inv.status
  obtain ⟨_, hend⟩ := ended_of_endsWithin_zero h
  rw [endedByHalt, hdone, hfault]
  obtain hd | hf := hend
  · have hf : s.status.fault = false := by simpa [hd] using hone
    exact .inl ⟨by rw [hd, hf]; rfl, hd, hf⟩
  · have hd : s.status.done = false := by simpa [hf] using hone
    exact .inr ⟨by rw [hd]; rfl, hd, hf⟩

/-- R172: what the statement asks of an end of the loop: an idle block, the count that stands in it or the `STATUS` of a
fault, and, where `checked` says so, that a run ended by HALT before the count. -/
def StreamEnd.sound (checked : Prop) : StreamEnd → Prop
  | .counted t n => t.idle ∧ n = t.mcount.toNat ∧ (checked → t.status.done = true ∧ t.status.fault = false)
  | .failed t w => t.idle ∧ t.status.done = false ∧ t.status.fault = true ∧ w = t.status.word

/-- R172: the loop ends soundly: where a run's end is to be checked, either a run is still to come or the last one ended
by HALT. -/
theorem blockLoop_ends (pace : Nat) (pad : Byte) (blocks : List (List Byte)) {checked : Prop} {s : State} (h : s.Inv)
    (hi : s.idle) (hc : checked → blocks = [] → s.status.done = true ∧ s.status.fault = false) :
    ∃ r, blockLoop pace pad blocks s = some r ∧ r.sound checked := by
  induction blocks generalizing s with
  | nil =>
    obtain ⟨d, hcount⟩ := readCount_idle hi
    exact ⟨.counted { s with hostData := d, moves := [] } s.mcount.toNat, by rw [blockLoop_nil, hcount]; rfl, hi, rfl,
      fun hck => hc hck rfl⟩
  | cons b bs ih =>
    obtain ⟨t, hrun, ht⟩ := runBlock_ends pace pad b h hi
    have hidle : t.idle := ⟨(ended_of_endsWithin_zero ht).1, ht.notReset⟩
    rw [blockLoop_cons, hrun, Option.bind_some]
    obtain ⟨hcheck, hgood⟩ | ⟨hcheck, hdone, hfault⟩ := endedByHalt_cases ht <;> rw [hcheck]
    · exact ih ht.inv hidle fun _ _ => hgood
    · exact ⟨.failed t t.status.word, rfl, hidle, hdone, hfault, rfl⟩

/-- Settles O59: over at least one block the loop checks a run before it counts. -/
theorem hostLoopEnds : Obligations.HostLoopEnds := by
  intro pace pad blocks s h hi
  obtain ⟨r, hr, hsound⟩ := blockLoop_ends pace pad blocks (checked := blocks ≠ []) h hi fun hne he => absurd he hne
  refine ⟨r, hr, ?_, ?_⟩
  · rintro t n rfl
    exact hsound
  · rintro t w rfl
    exact hsound

end Sys2Proof
end

section
/-! What the character-class compiler promises (spec/49_host_cc_reference.md R180, R193, R194): GE and LE on their
domain and outside it, the expression of a range, and the pairs of a compiled pattern. -/

namespace Sys2Proof

open Sys2Proof.Machine

/-! GE and LE (R186, R187, I8). -/

theorem geExpr_of_domain {bits n : Nat} (hbits : bits ≤ 8) (hn : n < 2 ^ bits) : geExpr bits n = some (geTree bits n) :=
  if_pos ⟨hbits, hn⟩

theorem leExpr_of_domain {bits n : Nat} (hbits : bits ≤ 8) (hn : n < 2 ^ bits) : leExpr bits n = some (leTree bits n) :=
  if_pos ⟨hbits, hn⟩

theorem geExpr_of_not_domain {bits n : Nat} (h : ¬(bits ≤ 8 ∧ n < 2 ^ bits)) : geExpr bits n = none := if_neg h

theorem leExpr_of_not_domain {bits n : Nat} (h : ¬(bits ≤ 8 ∧ n < 2 ^ bits)) : leExpr bits n = none := if_neg h

/-- Settles O53: the trees compare the low `bits` bits of a byte, which are all of a byte below `2^bits`. -/
theorem geLeCorrect : Obligations.GeLeCorrect := by
  refine fun bits n => ⟨fun hbits hn => ?_, fun hout => ?_⟩
  · refine ⟨_, _, geExpr_of_domain hbits hn, leExpr_of_domain hbits hn, fun b hb => ?_⟩
    rw [eval_geTree b hbits hn, eval_leTree b hbits hn, Nat.mod_eq_of_lt hb]
    exact ⟨rfl, rfl⟩
  · have hnot : ¬(bits ≤ 8 ∧ n < 2 ^ bits) := by omega
    exact ⟨geExpr_of_not_domain hnot, leExpr_of_not_domain hnot⟩

/-- Settles O54: above the top bit in which the ends differ the byte must agree with them, and its own bit there chooses
the end that bounds the bits below. -/
theorem rangeExpressionCorrect : Obligations.RangeExpressionCorrect := fun _ b hr => eval_rangeExpr b hr

/-! Compiled patterns (R180, R193). -/

/-- R180: the compiled patterns of a list of classes are the lists of pairs over it of a class and its expression. -/
theorem compilePattern_eq_some_iff {cs : List CharClass} {p : CompiledPattern} :
    compilePattern cs = some p ↔ p.map Prod.fst = cs ∧ ∀ q ∈ p, q.1.compile = some q.2 := by
  induction cs generalizing p with
  | nil =>
    rw [compilePattern_nil, Option.some_inj, List.map_eq_nil_iff]
    constructor
    · rintro rfl
      exact ⟨rfl, List.forall_mem_nil _⟩
    · exact fun h => h.1.symm
  | cons c cs ih =>
    simp only [compilePattern_cons, Option.bind_eq_some_iff, Option.map_eq_some_iff, ih]
    constructor
    · rintro ⟨e, he, p, ⟨hfst, hp⟩, rfl⟩
      exact ⟨congrArg (c :: ·) hfst, List.forall_mem_cons.mpr ⟨he, hp⟩⟩
    · rintro ⟨hfst, hall⟩
      obtain ⟨q, p, rfl, rfl, rfl⟩ := List.map_eq_cons_iff.mp hfst
      obtain ⟨hq, hp⟩ := List.forall_mem_cons.mp hall
      exact ⟨q.2, hq, p, ⟨rfl, hp⟩, rfl⟩

/-- R193: a pattern compiles when each of its classes does. -/
theorem exists_compilePattern {cs : List CharClass} (h : ∀ c ∈ cs, ∃ e, c.compile = some e) :
    ∃ p, compilePattern cs = some p := by
  induction cs with
  | nil => exact ⟨[], compilePattern_nil⟩
  | cons c cs ih =>
    obtain ⟨⟨e, he⟩, hcs⟩ := List.forall_mem_cons.mp h
    obtain ⟨p, hp⟩ := ih hcs
    exact ⟨(c, e) :: p, by rw [compilePattern_cons, he, hp, Option.bind_some, Option.map_some]⟩

/-- R193: each class of a pattern that compiles has an expression, the one it is paired with. -/
theorem exists_compile_of_mem {cs : List CharClass} {p : CompiledPattern} (hp : compilePattern cs = some p)
    {c : CharClass} (hc : c ∈ cs) : ∃ e, c.compile = some e := by
  obtain ⟨rfl, hall⟩ := compilePattern_eq_some_iff.mp hp
  obtain ⟨q, hq, rfl⟩ := List.mem_map.mp hc
  exact ⟨q.2, hall q hq⟩

/-- Settles O58: `compilePattern_eq_some_iff` gives the pairs, and with them the expression of each class. -/
theorem compiledPatternPairsClasses : Obligations.CompiledPatternPairsClasses := fun _ =>
  ⟨⟨fun ⟨_, hp⟩ _ hc => exists_compile_of_mem hp hc, exists_compilePattern⟩,
    fun _ hp => compilePattern_eq_some_iff.mp hp⟩

end Sys2Proof
end

section
/-! The two faults, what a command can reach and what begins a run (spec/60_exceptions.md R210, R211, R218, R223;
spec/70_reset_and_hazards.md R231): what each move of the interleaving can do to `STATUS`, said once. -/

namespace Sys2Proof.Machine

/-! What a command reaches. -/

/-- Settles O25, by the two shapes of a command. -/
theorem commandsReachOnlyData : Obligations.CommandsReachOnlyData := by
  intro i s
  obtain ⟨hhalt, he⟩ | ⟨_, _, _, _, he⟩ := exec_shape i s
  · exact ⟨_, he, keepsRest_refl s, rfl, rfl, rfl, fun hne => absurd hhalt hne⟩
  · exact ⟨_, he, keepsRest_refl s, rfl, rfl, rfl, fun _ => rfl⟩

/-! What a move does to `STATUS`. -/

/-- R30, R31: an idle write leaves `STATUS` alone but for `HOST_CONFLICT`, unless it is START. -/
theorem idleWrite_status (s : State) (w : BitVec 32) (loc : WindowLoc) :
    (∃ conflict, (s.idleWrite w loc).status = { s.status with hostConflict := conflict }) ∨
      (loc = .ctrl ∧ w.getLsbD 0 = true ∧ (s.idleWrite w loc).status = s.startRun.status) := by
  cases loc with
  | ctrl =>
    rw [State.idleWrite, writeCtrl_eq]
    by_cases hw : w.getLsbD 0 = true
    · exact .inr ⟨rfl, hw, if_pos hw⟩
    · exact .inl ⟨_, if_neg hw⟩
  | status =>
    rw [State.idleWrite, writeStatus_eq]
    exact .inl ⟨_, rfl⟩
  | startPc | pc | faultPc | faultInsn | mcountLo | mcountHi | carryLo | carryHi | config | ibuf _ | regLo _ | regHi _
  | imem _ | unmapped => exact .inl ⟨_, rfl⟩

/-- R31, R59, R230: so does a host write at any time. -/
theorem hostWrite_status_cases (s : State) (offset : BitVec 16) (w : BitVec 32) :
    (∃ conflict, (s.hostWrite offset w).status = { s.status with hostConflict := conflict }) ∨
      (s.locOf offset = .ctrl ∧ w.getLsbD 0 = true ∧ (s.hostWrite offset w).status = s.startRun.status) := by
  obtain ⟨_, hw⟩ | ⟨_, _, _, hw⟩ | ⟨_, _, hw⟩ | ⟨_, _, hw⟩ := hostWrite_cases s offset w <;> rw [hw]
  · exact .inl ⟨_, rfl⟩
  · exact .inl ⟨_, rfl⟩
  · rw [writeStatus_eq]
    exact .inl ⟨_, rfl⟩
  · exact idleWrite_status s w (s.locOf offset)

/-- What a step does to `STATUS`: apart from the sequencer's step, reset and START, nothing but to `HOST_CONFLICT`. -/
theorem step_status_cases {s t : State} (h : step s = .next t) :
    (s.sequencerDue ∧ ∃ rest, State.sequencerStep { s with moves := rest } = .next t) ∨
      (∃ conflict, t.status = { s.status with hostConflict := conflict }) ∨
      (s.resetDue ∧ t.status = Status.reset) ∨
      (∃ offset w, s.writeDue offset w ∧ s.locOf offset = .ctrl ∧ w.getLsbD 0 = true ∧
        t.status = s.startRun.status) := by
  obtain ⟨rest, ⟨hdue, hs⟩ | ⟨offset, rfl⟩ | ⟨offset, w, hdue, rfl⟩ | ⟨hdue, rfl⟩ | rfl⟩ := step_cases h
  · exact .inl ⟨hdue, rest, hs⟩
  · rw [hostRead_rest]
    exact .inr (.inl ⟨_, rfl⟩)
  · obtain hkeep | hstart := hostWrite_status_cases { s with moves := rest } offset w
    · exact .inr (.inl hkeep)
    · exact .inr (.inr (.inr ⟨offset, w, hdue, hstart⟩))
  · exact .inr (.inr (.inl ⟨hdue, rfl⟩))
  · exact .inr (.inl ⟨_, rfl⟩)

/-! Faults. -/

/-- R161, R210: with no move due, a step of a run whose `PC` lies beyond IMEM takes the fetch fault. -/
theorem step_of_fetchRange {s : State} (hm : s.moves = []) (hb : s.status.busy = true) (hr : s.resetAsserted = false)
    (hp : s.imemWords ≤ s.pc.toNat) : step s = .next (s.raiseFault .fetchRange s.pc 0#32) := by
  rw [step_of_moves_nil hm]
  obtain ⟨hidle, _⟩ | ⟨_, _, _, hs⟩ | ⟨_, _, hin, _⟩ | ⟨i, ⟨_, _, hin, _⟩, _⟩ := sequencerStep_cases s
  · simp [hb, hr] at hidle
  · exact hs
  · omega
  · omega

/-- R210: a step of the sequencer sets FAULT only by a fetch beyond IMEM or an illegal word, during a run. -/
theorem sequencerStep_sets_fault {s t : State} (h : s.sequencerStep = .next t) (hs : s.status.fault = false)
    (ht : t.status.fault = true) : s.status.busy = true ∧ s.resetAsserted = false ∧
      (s.imemWords ≤ s.pc.toNat ∨ ∃ why, decode (s.imemWord s.pc.toNat) = .error why) := by
  obtain ⟨_, he⟩ | ⟨hb, hr, hout, _⟩ | ⟨hb, hr, _, hill, _⟩ | ⟨i, _, he⟩ := sequencerStep_cases s
  · rw [he] at h
    cases h
    exact absurd (hs.symm.trans ht) Bool.false_ne_true
  · exact ⟨hb, hr, .inl hout⟩
  · exact ⟨hb, hr, .inr hill⟩
  · obtain ⟨u, hu, _, hfault, _⟩ := commandsReachOnlyData i s
    rw [he, hu] at h
    cases h
    exact absurd (hs.symm.trans (hfault.symm.trans ht)) Bool.false_ne_true

/-- R210: a step of the machine sets FAULT only by such a step of the sequencer. -/
theorem step_sets_fault {s t : State} (h : step s = .next t) (hs : s.status.fault = false)
    (ht : t.status.fault = true) : s.sequencerDue ∧ s.status.busy = true ∧ s.resetAsserted = false ∧
      (s.imemWords ≤ s.pc.toNat ∨ ∃ why, decode (s.imemWord s.pc.toNat) = .error why) := by
  obtain ⟨hdue, rest, hseq⟩ | ⟨_, hst⟩ | ⟨_, hst⟩ | ⟨_, _, _, _, _, hst⟩ := step_status_cases h
  · exact ⟨hdue, sequencerStep_sets_fault (s := { s with moves := rest }) hseq hs ht⟩
  · rw [hst, hs] at ht
    exact absurd ht Bool.false_ne_true
  · rw [hst] at ht
    exact absurd ht Bool.false_ne_true
  · rw [hst] at ht
    exact absurd ht Bool.false_ne_true

/-- Settles O30: both causes enter by `State.raiseFault`, and `step_sets_fault` leaves no other. -/
theorem faultCausesAndEntry : Obligations.FaultCausesAndEntry := by
  refine ⟨fun s hm hb hr hp => ?_, fun s why hm hb hr hp hd => ?_, fun s t => step_sets_fault⟩
  · exact ⟨_, step_of_fetchRange hm hb hr hp, rfl, rfl, rfl, rfl, rfl, rfl⟩
  · exact ⟨_, step_of_illegalWord hm hb hr hp hd, rfl, rfl, rfl, rfl, rfl, rfl⟩

/-! How a run begins. -/

/-- R231: a step sets BUSY only by a START. -/
theorem step_sets_busy {s t : State} (h : step s = .next t) (hs : s.status.busy = false) (ht : t.status.busy = true) :
    ∃ offset w, s.writeDue offset w ∧ s.locOf offset = .ctrl ∧ w.getLsbD 0 = true := by
  obtain ⟨_, rest, hseq⟩ | ⟨_, hst⟩ | ⟨_, hst⟩ | ⟨offset, w, hdue, hl, hw, _⟩ := step_status_cases h
  · rw [sequencerStep_of_not_busy (s := { s with moves := rest }) hs] at hseq
    cases hseq
    exact absurd (hs.symm.trans ht) Bool.false_ne_true
  · rw [hst, hs] at ht
    exact absurd ht Bool.false_ne_true
  · rw [hst] at ht
    exact absurd ht Bool.false_ne_true
  · exact ⟨offset, w, hdue, hl, hw⟩

/-- Settles O31: an idle sequencer holds the state, and `step_sets_busy` leaves only START. -/
theorem onlyStartBeginsRun : Obligations.OnlyStartBeginsRun :=
  ⟨fun _ hb hm => (step_of_moves_nil hm).trans (sequencerStep_of_not_busy hb), fun _ _ => step_sets_busy⟩

end Sys2Proof.Machine
end

section
/-! The reset input (spec/70_reset_and_hazards.md R230): the reset values, which meet the invariant, and what a move of
the interleaving does while reset is asserted. -/

namespace Sys2Proof.Machine

/-! The reset values. -/

@[simp] theorem resetOf_readReg (n : Nat) (r : Reg) : (State.resetOf n).readReg r = 0#64 :=
  Vector.getElem_replicate r.isLt

@[simp] theorem applyReset_readReg (s : State) (r : Reg) : s.applyReset.readReg r = 0#64 := resetOf_readReg s.imemWords r

@[simp] theorem applyReset_readCarry (s : State) (j : Slot) : s.applyReset.readCarry j = false := BitVec.getLsbD_zero

/-- R230, R28: the reset values of a block of any size from 1 to 1024 meet the invariant. -/
theorem inv_resetOf {n : Nat} (hlo : 1 ≤ n) (hhi : n ≤ 1024) : (State.resetOf n).Inv where
  headroom r := by rw [resetOf_readReg, BitVec.getLsbD_zero]
  ibufWf := memory_wf_nil
  imemWf := memory_wf_nil
  status := by simp [Status.legal, State.resetOf]
  size := ⟨hlo, hhi⟩
  held := nofun

/-- Settles O34: `State.reset` is the block of 1024 words. -/
theorem resetMeetsInvariant : Obligations.ResetMeetsInvariant :=
  ⟨inv_resetOf (by decide) (by decide), fun _ => inv_resetOf⟩

/-! Under reset. -/

/-- R230: under reset a host write is ignored. -/
theorem hostWrite_of_reset {s : State} (hr : s.resetAsserted = true) (offset : BitVec 16) (w : BitVec 32) :
    s.hostWrite offset w = s := by
  rw [State.hostWrite, if_pos hr]

/-- R230: under reset a host read draws the next free value, whatever the offset names. -/
theorem hostRead_of_reset {s : State} (hr : s.resetAsserted = true) (offset : BitVec 16) :
    s.hostRead offset = s.drawRead := by
  rw [State.hostRead, hr, Bool.true_or, if_pos rfl]

/-- R230: under reset the sequencer holds the state, BUSY or not. -/
theorem sequencerStep_of_reset {s : State} (hr : s.resetAsserted = true) : s.sequencerStep = .next s := by
  rw [State.sequencerStep, hr, Bool.not_true, Bool.and_false]
  rfl

/-- Settles O48: asserting reset leads to `State.applyReset`; under reset each move is one of the three rules above. -/
theorem resetSetsAndHoldsEveryState : Obligations.ResetSetsAndHoldsEveryState := by
  refine ⟨fun s rest => ?_, fun s offset w rest hr => ⟨?_, ?_, ?_, ?_⟩, fun _ _ => rfl⟩
  · exact ⟨_, step_cons s .assertReset rest, applyReset_readReg _, applyReset_readCarry _, rfl,
      fun a => memory_read_nil a, fun j => memory_read_nil j, rfl, rfl, rfl, rfl, rfl, rfl, rfl⟩
  · exact congrArg Host.Outcome.next (hostWrite_of_reset (s := { s with moves := rest }) hr offset w)
  · exact congrArg Host.Outcome.next (hostRead_of_reset (s := { s with moves := rest }) hr offset)
  · exact sequencerStep_of_reset (s := { s with moves := rest }) hr
  · exact sequencerStep_of_reset (s := { s with moves := [] }) hr

end Sys2Proof.Machine
end
